-- ==== Sys2Proof/Word.lean ====
section
/-! DEFINITION. The word types of the engine: a byte, a 32-bit word, a 72-bit command word (00_scope.md R6, R7, R8;
30_encoding.md R70). -/

namespace Sys2Proof

/-- A byte: what the sink takes, a CRC input, an opcode. -/
abbrev Byte := BitVec 8

/-- A 32-bit register or operand value (00_scope.md R6). -/
abbrev Word := BitVec 32

/-- A command word: one length, 72 bits (30_encoding.md R70). -/
abbrev CmdWord := BitVec 72

end Sys2Proof
end

