-- ==== Sys2Proof/Syntax.lean ====
section
/-! DEFINITION. The twelve commands of the opcode map (30_encoding.md R74), with the operands of R73: each operand has
the width of its field, so that every term has an encoding. The range checks of R80 are the machine's, at execution. -/

namespace Sys2Proof

/-- One constructor for each row of spec/opcode_table.json. -/
inductive Instr where
  /-- `CRC.RESET`: reset the running register (40_crc.md R103). -/
  | crcReset
  /-- `CRC.UPD byte`: fold one byte (40_crc.md R104). -/
  | crcUpd (byte : Byte)
  /-- `CRC.UPDN byte, count`: fold `count` copies of a byte (40_crc.md R105). -/
  | crcUpdn (byte : Byte) (count : Word)
  /-- `CRC.RES`: return the block CRC (40_crc.md R106). -/
  | crcRes
  /-- `CRC.COMB crc, len`: append a segment known by its CRC and its length (40_crc.md R107). -/
  | crcComb (crc len : Word)
  /-- `CRC.FOLD`: fold the block CRC into the combined CRC (40_crc.md R108). -/
  | crcFold
  /-- `CRC.RDC`: return the combined CRC (40_crc.md R109). -/
  | crcRdc
  /-- `BW.PUT n, value`: append the low `n` bits of `value` (41_bitwriter.md R132). -/
  | bwPut (n value : Word)
  /-- `BW.FLUSH`: drain, and pad the final partial byte with zeros (41_bitwriter.md R133). -/
  | bwFlush
  /-- `FA.SHDR level, leaveOpen`: open a stream and write its header (42_field_assembler.md R151). -/
  | faShdr (level : Word) (leaveOpen : Bool)
  /-- `FA.BHDR rand, origPtr`: write the header of a block (42_field_assembler.md R154). -/
  | faBhdr (rand : Bool) (origPtr : Word)
  /-- `FA.STRL`: write the trailer, pad, close the stream (42_field_assembler.md R157). -/
  | faStrl
deriving DecidableEq, Repr

end Sys2Proof
end

