-- ==== Sys2Proof/WellFormed.lean ====
section
/-! DEFINITION. Which words are commands, said by the opcode table alone: a row is a pattern of fixed bits, and a word
is well formed when it has the fixed bits of some row (30_encoding.md R72, R74, R76, R77; opcode_table.json "match" and
"mask"). Decode.lean does not use this file: it follows the procedure of R75, and a statement says the two agree.
A term of `Instr` needs no check of its own: each operand's type is its field. -/

namespace Sys2Proof

/-- One row of the opcode table: a word `w` is of the row when `w &&& mask = bits`. -/
structure TableRow where
  /-- The mnemonic, as the table spells it. -/
  mnemonic : String
  /-- The values of the fixed bits (the table's "match"). -/
  bits : CmdWord
  /-- Which bits are fixed, the reserved-zero bits of R77 among them. -/
  mask : CmdWord
deriving DecidableEq, Repr

/-- The word has every fixed bit of the row. -/
def TableRow.accepts (row : TableRow) (w : CmdWord) : Bool :=
  w &&& row.mask == row.bits

/-- The row that stands for a command in the opcode table (R74). -/
def Instr.row : Instr → TableRow
  | .crcReset => ⟨"CRC.RESET", 0x100000000000000000, 0xFFFFFFFFFFFFFFFFFF⟩
  | .crcUpd _ => ⟨"CRC.UPD", 0x110000000000000000, 0xFFFFFFFFFFFFFFFF00⟩
  | .crcUpdn _ _ => ⟨"CRC.UPDN", 0x120000000000000000, 0xFF00000000FFFFFF00⟩
  | .crcRes => ⟨"CRC.RES", 0x130000000000000000, 0xFFFFFFFFFFFFFFFFFF⟩
  | .crcComb _ _ => ⟨"CRC.COMB", 0x140000000000000000, 0xFF0000000000000000⟩
  | .crcFold => ⟨"CRC.FOLD", 0x150000000000000000, 0xFFFFFFFFFFFFFFFFFF⟩
  | .crcRdc => ⟨"CRC.RDC", 0x160000000000000000, 0xFFFFFFFFFFFFFFFFFF⟩
  | .bwPut _ _ => ⟨"BW.PUT", 0x200000000000000000, 0xFF0000000000000000⟩
  | .bwFlush => ⟨"BW.FLUSH", 0x210000000000000000, 0xFFFFFFFFFFFFFFFFFF⟩
  | .faShdr _ _ => ⟨"FA.SHDR", 0x300000000000000000, 0xFFFFFFFFFE00000000⟩
  | .faBhdr _ _ => ⟨"FA.BHDR", 0x310000000000000000, 0xFFFFFFFFFE00000000⟩
  | .faStrl => ⟨"FA.STRL", 0x320000000000000000, 0xFFFFFFFFFFFFFFFFFF⟩

/-- The rows of the opcode table, in its order. -/
def opcodeTable : List TableRow :=
  [Instr.row .crcReset, Instr.row (.crcUpd 0), Instr.row (.crcUpdn 0 0), Instr.row .crcRes, Instr.row (.crcComb 0 0),
    Instr.row .crcFold, Instr.row .crcRdc, Instr.row (.bwPut 0 0), Instr.row .bwFlush, Instr.row (.faShdr 0 false),
    Instr.row (.faBhdr false 0), Instr.row .faStrl]

/-- The word is a command: it fits a row of the opcode table. Every other word is an IllegalCommand (R76, R77). -/
def CmdWord.wellFormed (w : CmdWord) : Bool :=
  opcodeTable.any fun row => row.accepts w

end Sys2Proof
end

