-- ==== Sys2Proof/Decode.lean ====
section
/-! DEFINITION. The command word taken apart and put together (30_encoding.md R70 to R77): fields, formats, the decoder
of R75 (total, rejecting by name), the encoder of R74 and R84, and the host's entry `decodeTableWord`. -/

namespace Sys2Proof

/-- `OP = w[71:64]` (R71). -/
def opField (w : CmdWord) : Byte := w.extractLsb' 64 8

/-- `A = w[63:32]` (R71). -/
def aField (w : CmdWord) : Word := w.extractLsb' 32 32

/-- `B = w[31:0]` (R71). -/
def bField (w : CmdWord) : Word := w.extractLsb' 0 32

/-- The five formats of R72. -/
inductive Format where
  /-- N: no operand. -/
  | fmtN
  /-- BY: a byte in `B[7:0]`. -/
  | fmtBY
  /-- CB: a count in `A`, a byte in `B[7:0]`. -/
  | fmtCB
  /-- AB: two 32-bit operands. -/
  | fmtAB
  /-- FB: a flag in `A[0]`, a 32-bit operand in `B`. -/
  | fmtFB
deriving DecidableEq, Repr

/-- Why a word is no command. -/
inductive DecodeError where
  /-- The opcode is none of the twelve (R76). -/
  | reservedOpcode
  /-- A reserved-zero bit of the format is one (R77). -/
  | reservedBits
deriving DecidableEq, Repr

/-- The outcome of decoding: "either a command or the IllegalCommand error" (R75). -/
inductive Decoded where
  /-- The word is this command. -/
  | command (i : Instr)
  /-- The word raises IllegalCommand, for this reason. -/
  | illegal (why : DecodeError)
deriving DecidableEq, Repr

/-- The format of each opcode; `none` for a reserved opcode (R74, R76). -/
def formatOf (op : Byte) : Option Format :=
  if op = 0x10 then some .fmtN
  else if op = 0x11 then some .fmtBY
  else if op = 0x12 then some .fmtCB
  else if op = 0x13 then some .fmtN
  else if op = 0x14 then some .fmtAB
  else if op = 0x15 then some .fmtN
  else if op = 0x16 then some .fmtN
  else if op = 0x20 then some .fmtAB
  else if op = 0x21 then some .fmtN
  else if op = 0x30 then some .fmtFB
  else if op = 0x31 then some .fmtFB
  else if op = 0x32 then some .fmtN
  else none

/-- The reserved-zero bits of the format are zero in the operands `a` and `b` (R72, R75, R77). -/
def reservedClear (f : Format) (a b : Word) : Bool :=
  match f with
  | .fmtN => a == 0 && b == 0
  | .fmtBY => a == 0 && b.extractLsb' 8 24 == 0
  | .fmtCB => b.extractLsb' 8 24 == 0
  | .fmtAB => true
  | .fmtFB => a.extractLsb' 1 31 == 0

/-- `byte = B[7:0]` (R73). -/
def byteOperand (b : Word) : Byte := b.extractLsb' 0 8

/-- `flag = A[0]` (R73). -/
def flagOperand (a : Word) : Bool := a.getLsbD 0

/-- The command of an opcode with its operands assembled (R73, R74). -/
def instrOf (op : Byte) (a b : Word) : Option Instr :=
  if op = 0x10 then some .crcReset
  else if op = 0x11 then some (.crcUpd (byteOperand b))
  else if op = 0x12 then some (.crcUpdn (byteOperand b) a)
  else if op = 0x13 then some .crcRes
  else if op = 0x14 then some (.crcComb b a)
  else if op = 0x15 then some .crcFold
  else if op = 0x16 then some .crcRdc
  else if op = 0x20 then some (.bwPut a b)
  else if op = 0x21 then some .bwFlush
  else if op = 0x30 then some (.faShdr b (flagOperand a))
  else if op = 0x31 then some (.faBhdr (flagOperand a) b)
  else if op = 0x32 then some .faStrl
  else none

/-- The decoder of R75: first the opcode, then the format's reserved bits, then the operands. It reads no state. -/
def decode (w : CmdWord) : Decoded :=
  match formatOf (opField w) with
  | none => .illegal .reservedOpcode
  | some f =>
    if reservedClear f (aField w) (bField w) then
      match instrOf (opField w) (aField w) (bField w) with
      | some i => .command i
      | none => .illegal .reservedOpcode
    else .illegal .reservedBits

/-- A word from its three fields (R71). -/
def packWord (op : Byte) (a b : Word) : CmdWord :=
  (op.setWidth 72 <<< 64) ||| (a.setWidth 72 <<< 32) ||| b.setWidth 72

/-- A flag in bit 0 of operand A (R72, format FB). -/
def flagField (f : Bool) : Word := (BitVec.ofBool f).setWidth 32

/-- The word of a command (R72, R74, and the encodings of R84). -/
def encode (i : Instr) : CmdWord :=
  match i with
  | .crcReset => packWord 0x10 0 0
  | .crcUpd byte => packWord 0x11 0 (byte.setWidth 32)
  | .crcUpdn byte count => packWord 0x12 count (byte.setWidth 32)
  | .crcRes => packWord 0x13 0 0
  | .crcComb crc len => packWord 0x14 len crc
  | .crcFold => packWord 0x15 0 0
  | .crcRdc => packWord 0x16 0 0
  | .bwPut n value => packWord 0x20 n value
  | .bwFlush => packWord 0x21 0 0
  | .faShdr level leaveOpen => packWord 0x30 (flagField leaveOpen) level
  | .faBhdr rand origPtr => packWord 0x31 (flagField rand) origPtr
  | .faStrl => packWord 0x32 0 0

/-- The command word whose low `nbits` bits are those of `w`, the bits above them zero. A command is one word, so the
host's numbering of bits is the spec's own (R7, R70). -/
def tableWord (nbits w : Nat) : CmdWord := BitVec.ofNat 72 (w % 2 ^ nbits)

/-- The command that the decoder reads from an opcode-table word; `none` where it refuses (log entry 9). -/
def decodeTableWord (nbits w : Nat) : Option Instr :=
  match decode (tableWord nbits w) with
  | .command i => some i
  | .illegal _ => none

end Sys2Proof
end

