-- ==== Sys2Proof/Machine/Params.lean ====
section
/-! DEFINITION. The fixed constants of the hardware (00_scope.md R6; 40_crc.md R100; 42_field_assembler.md R153, R161).
None of them is state (10_state.md R35). -/

namespace Sys2Proof.Machine

/-- The generator polynomial, most-significant-bit first (R6, R100). -/
def poly : Word := 0x04C11DB7

/-- The reflected polynomial of the second table construction, `REV32(0x04C11DB7)` (R100). -/
def reflectedPoly : Word := 0xEDB88320

/-- The value `CRC.RESET` gives the running register (R103). -/
def allOnes : Word := 0xFFFFFFFF

/-- The largest field of one write-bits (R6, R132). -/
def maxFieldWidth : Nat := 24

/-- `'B' 'Z' 'h'` (R151, R153). -/
def headerMark : List Byte := [0x42, 0x5A, 0x68]

/-- `'0'`, to which the block-size level is added (R151, R153). -/
def digitZero : Byte := 0x30

/-- The 6-byte block magic (R154, R161). -/
def blockMagic : List Byte := [0x31, 0x41, 0x59, 0x26, 0x53, 0x59]

/-- The 6-byte trailer magic (R157, R161). -/
def trailerMagic : List Byte := [0x17, 0x72, 0x45, 0x38, 0x50, 0x90]

end Sys2Proof.Machine
end

