-- ==== Sys2Proof/Config.lean ====
section
/-! DEFINITION. What the spec leaves open to the environment: the answer of the sink to each call (20_memory.md R53).
Nothing else of the hardware is a parameter (00_scope.md R6); its fixed constants stand in Machine/Params.lean. -/

namespace Sys2Proof

/-- What the sink answers to `SinkWrite` and to `SinkClose` (20_memory.md R51). -/
inductive SinkAnswer where
  /-- The byte was taken, or the sink was closed. -/
  | ok
  /-- The call failed; for a write, the byte was not taken. -/
  | fail
deriving DecidableEq, Repr, Inhabited

/-- FREE VALUE (log entry 1). The answer of the sink to its call number `n`, when `State.sinkAnswers` lays down no
answer for it. "A model must admit `fail` at every call" (20_memory.md R53): this constant has no body, so nothing can
be proved of a value of it. -/
opaque Config.sinkAnswer : Nat → SinkAnswer

end Sys2Proof
end

