-- ==== Sys2Proof/Machine/State.lean ====
section
/-! DEFINITION. The state of the machine: the registers of the engine (10_state.md R20), the sink as far as it can be
observed (20_memory.md R52, R53), and the host's list of commands with the position in it (10_state.md R21). The ROM
`T` is no field: nothing writes it (R24) and the table "is not state" (R35); Machine/CrcMath.lean gives it. -/

namespace Sys2Proof.Machine

/-- The framing phase (10_state.md R27). Its 2-bit code is `phaseCode` (Machine/Flags.lean). -/
inductive Phase where
  /-- IDLE: no stream header written yet. -/
  | idle
  /-- OPEN: between the stream header and the trailer. -/
  | opened
  /-- CLOSED: the trailer has been written. -/
  | closed
  /-- FAILED: an error has been raised; every command is ignored until reset. -/
  | failed
deriving DecidableEq, Repr

/-- The error kinds (60_exceptions.md R181). Their 4-bit codes are `errorCode` (Machine/Flags.lean). An error is no
stop of the model: it is entered as R186 says, and the machine goes on in FAILED. -/
inductive ErrorKind where
  /-- Code 1: `FA.SHDR` with a level outside 1..9 (R182). -/
  | configuration
  /-- Code 2: a command outside its phase (R183). -/
  | invalidState
  /-- Code 3: the sink answered `fail` (R184). -/
  | underlyingIO
  /-- Code 4: never raised by this hardware (R189). -/
  | formatOverflow
  /-- Code 5: a reserved opcode or a reserved bit set (R185). -/
  | illegalCommand
  /-- Code 6: `BW.PUT` with `n > 24`, `FA.BHDR` with `origPtr ≥ 2^24` (R188). -/
  | fieldRange
deriving DecidableEq, Repr

/-- What the host does next (10_state.md R33): it issues a command word on the command port, or asserts the reset input
between two commands (70_reset_and_hazards.md R210). -/
inductive HostEvent where
  /-- A word offered on the command port. -/
  | command (w : CmdWord)
  /-- The reset input is asserted. It is not a command and has no encoding. -/
  | reset
deriving DecidableEq, Repr

/-- The state: plain data. The first ten fields are the registers of R20; the others are the model's own record of the
sink and of the host (log entries 1, 2 and 3). -/
structure State where
  /-- `R`, the running block CRC register (R22). -/
  r : Word
  /-- `C`, the combined CRC of the stream (R23). -/
  c : Word
  /-- `ACC`, the pending output bits, left-aligned (R25). -/
  acc : Word
  /-- `NACC`, how many bits are pending, 0 to 31 (R25). -/
  nacc : BitVec 5
  /-- `RES`, the result register (R26). -/
  res : Word
  /-- `PHASE` (R27). -/
  phase : Phase
  /-- `ERR`: the first error since reset; `none` is code 0, NONE (R28). -/
  err : Option ErrorKind
  /-- `LEVEL`, the block-size level of the stream (R29). -/
  level : BitVec 4
  /-- `LEAVE_OPEN` (R30). -/
  leaveOpen : Bool
  /-- `SINK_CLOSED` (R31). -/
  sinkClosed : Bool
  /-- `SINKOUT`: the bytes the sink took, in call order (20_memory.md R52). -/
  sinkOut : List Byte
  /-- The answers of the `SinkClose` calls made, in call order (R52). -/
  sinkCloses : List SinkAnswer
  /-- The answers the sink will give to the next calls; after them, `Config.sinkAnswer` (R53, log entry 1). -/
  sinkAnswers : List SinkAnswer
  /-- How many sink calls have been made; it numbers the draws of `Config.sinkAnswer` (log entry 1). -/
  sinkCalls : Nat
  /-- The host's list of commands and resets (R21, log entry 3). -/
  program : List HostEvent
  /-- The host's position in that list: the index of what it does next (R21). -/
  pos : Nat
deriving DecidableEq, Repr

/-- Why the machine stops: it never does. Every error of 60_exceptions.md has an entry the spec describes (R186), and
every command ends (70_reset_and_hazards.md R225), so no step raises a fault (log entry 8). -/
inductive Fault where
deriving DecidableEq, Repr

/-- Why an instruction has no meaning. -/
inductive Refusal where
  /-- Raised by an arm of `exec` for an instruction that is not modelled yet: safe, the machine stops. No arm does. -/
  | notModelled (mnemonic : String)
deriving DecidableEq, Repr

/-- The machine after power-on, which is a reset (70_reset_and_hazards.md R210, R211): every register at its reset
value, the sink empty, no command issued (R213). -/
def State.reset : State where
  r := 0xFFFFFFFF
  c := 0x00000000
  acc := 0x00000000
  nacc := 0
  res := 0x00000000
  phase := .idle
  err := none
  level := 0
  leaveOpen := false
  sinkClosed := false
  sinkOut := []
  sinkCloses := []
  sinkAnswers := []
  sinkCalls := 0
  program := []
  pos := 0

/-! The named updates of the state: what each writes, and nothing else. -/

/-- `R <- v`. -/
def State.setR (s : State) (v : Word) : State :=
  { s with r := v }

/-- `C <- v`. -/
def State.setC (s : State) (v : Word) : State :=
  { s with c := v }

/-- `RES <- v`. -/
def State.setRes (s : State) (v : Word) : State :=
  { s with res := v }

/-- `ACC <- acc; NACC <- nacc`. -/
def State.setPending (s : State) (acc : Word) (nacc : BitVec 5) : State :=
  { s with acc := acc, nacc := nacc }

/-- `PHASE <- p`. -/
def State.setPhase (s : State) (p : Phase) : State :=
  { s with phase := p }

/-- `ERR <- e`. -/
def State.setError (s : State) (e : Option ErrorKind) : State :=
  { s with err := e }

/-- `LEVEL <- level; LEAVE_OPEN <- leaveOpen`. -/
def State.setStream (s : State) (level : BitVec 4) (leaveOpen : Bool) : State :=
  { s with level := level, leaveOpen := leaveOpen }

/-- `SINK_CLOSED <- 1`. -/
def State.setSinkClosed (s : State) : State :=
  { s with sinkClosed := true }

/-- The sink took the byte `b`: it is appended to `SINKOUT` (R58). -/
def State.appendOut (s : State) (b : Byte) : State :=
  { s with sinkOut := s.sinkOut ++ [b] }

/-- `SinkClose` was called and answered `a`: the answer is recorded (R52). -/
def State.appendClose (s : State) (a : SinkAnswer) : State :=
  { s with sinkCloses := s.sinkCloses ++ [a] }

/-- One sink call has been answered: the next answer is another draw (R53). -/
def State.tickAnswer (s : State) : State :=
  { s with sinkAnswers := s.sinkAnswers.tail, sinkCalls := s.sinkCalls + 1 }

/-- The host's position is `n` (R21). -/
def State.setPos (s : State) (n : Nat) : State :=
  { s with pos := n }

end Sys2Proof.Machine
end

