-- ==== Sys2Proof/Machine/Operands.lean ====
section
/-! DEFINITION. What the machine does with operands beyond decoding (30_encoding.md R73, R78, R80): the range checks made
at execution, and the pieces of operands that the bit writer is given. -/

namespace Sys2Proof.Machine

/-- The check of `BW.PUT`: `n > 24` is a FieldRange error (R80, R132, R188). -/
def widthError (n : Word) : Option ErrorKind :=
  if maxFieldWidth < n.toNat then some .fieldRange else none

/-- The check of `FA.SHDR`: a level outside 1..9 is a ConfigurationError (R80, R151, R182). -/
def levelError (level : Word) : Option ErrorKind :=
  if level.toNat < 1 ∨ 9 < level.toNat then some .configuration else none

/-- The check of `FA.BHDR`: `origPtr ≥ 2^24` is a FieldRange error (R80, R154, R188). -/
def origPtrError (origPtr : Word) : Option ErrorKind :=
  if 2 ^ 24 ≤ origPtr.toNat then some .fieldRange else none

/-- `zext_32(v[n−1:0])`: the low `n` bits of a value, the bits above them ignored (R73, R78). -/
def lowBits (n : Nat) (v : Word) : Word :=
  (v.setWidth n).setWidth 32

/-- The four bytes of a word, most significant first: `k[31:24]`, `k[23:16]`, `k[15:8]`, `k[7:0]` (R154, R157). -/
def wordBytes (k : Word) : List Byte :=
  [k.extractLsb' 24 8, k.extractLsb' 16 8, k.extractLsb' 8 8, k.extractLsb' 0 8]

/-- The block-size digit `'0' + level` of the stream header (R151). -/
def levelDigit (level : Word) : Byte :=
  digitZero + level.setWidth 8

/-- A flag as a value whose bit 0 it is (R154, `Put(1, rand)`). -/
def flagValue (f : Bool) : Word :=
  (BitVec.ofBool f).setWidth 32

end Sys2Proof.Machine
end

