-- ==== Sys2Proof/Machine/Ops.lean ====
section
/-! DEFINITION. The shared operations: the error entry and the reset input (60_exceptions.md R186, R187;
70_reset_and_hazards.md R210), the calls of the sink (20_memory.md R51, R53), the procedures of the bit writer
(41_bitwriter.md R131 to R133), the order of a command's checks (60_exceptions.md R191), and the command port
(10_state.md R21, R33). -/

namespace Sys2Proof.Machine

/-- `raise Error(e)` (R186): the first error is kept, the phase becomes FAILED, nothing else is written. -/
def raiseError (e : ErrorKind) (s : State) : State :=
  (s.setError (if s.err = none then some e else s.err)).setPhase .failed

/-- The reset input, the only way out of CLOSED and FAILED: every register takes its reset value; the sink is not
touched, and the pending bits are dropped (R210, R211). The host's list and position are the host's own (R21). -/
def resetInput (s : State) : State :=
  { State.reset with
    sinkOut := s.sinkOut, sinkCloses := s.sinkCloses, sinkAnswers := s.sinkAnswers, sinkCalls := s.sinkCalls,
    program := s.program, pos := s.pos }

/-- How far a command has come: it goes on, or an error has ended it (R186: "no further step of it is performed"). -/
inductive Progress where
  /-- The command goes on from this state. -/
  | going (s : State)
  /-- An error has ended the command in this state. -/
  | ended (s : State)
deriving DecidableEq, Repr

/-- The state reached. -/
def Progress.state : Progress → State
  | .going s => s
  | .ended s => s

/-- The next step of a command, performed only if no error has ended it. -/
def Progress.andThen (p : Progress) (f : State → Progress) : Progress :=
  match p with
  | .going s => f s
  | .ended s => .ended s

/-- The answer the sink gives to the next call: the one laid down, else a free value (R53, log entry 1). -/
def nextAnswer (s : State) : SinkAnswer :=
  s.sinkAnswers.headD (Config.sinkAnswer s.sinkCalls)

/-- `if SinkWrite(b) = fail: raise UnderlyingIOError(3)` (R51, R131, R184). -/
def sinkWrite (b : Byte) (s : State) : Progress :=
  match nextAnswer s with
  | .ok => .going (s.tickAnswer.appendOut b)
  | .fail => .ended (raiseError .underlyingIO s.tickAnswer)

/-- The top byte of the accumulator, `ACC[31:24]`: the oldest pending bits (R25, R131). -/
def topByte (s : State) : Byte :=
  s.acc.extractLsb' 24 8

/-- `while NACC >= 8` with a bound on the number of rounds (R131, log entry 15). -/
def drainLoop : Nat → State → Progress
  | 0, s => .going s
  | k + 1, s =>
    if 8 ≤ s.nacc.toNat then
      (sinkWrite (topByte s) s).andThen fun s' => drainLoop k (s'.setPending (s'.acc <<< 8) (s'.nacc - 8))
    else .going s

/-- `Drain()` (R131): every complete pending byte is written, oldest first. At most 31 bits are pending, so three rounds
are all there can be. -/
def drain (s : State) : Progress :=
  drainLoop 3 s

/-- `Put(n, v)` (R132): drain, then append the low `n` bits of `v`. -/
def put (n : Nat) (v : Word) (s : State) : Progress :=
  (drain s).andThen fun s' =>
    if 0 < n then
      .going (s'.setPending (s'.acc ||| (lowBits n v <<< (32 - s'.nacc.toNat - n))) (s'.nacc + BitVec.ofNat 5 n))
    else .going s'

/-- `Put(8, b)` for each byte of a list, in order (R162). -/
def putBytes : List Byte → State → Progress
  | [], s => .going s
  | b :: bs, s => (put 8 (b.setWidth 32) s).andThen (putBytes bs)

/-- `Flush()` (R133): drain, then write the partial byte that is left, padded with the zeros below it. -/
def flush (s : State) : Progress :=
  (drain s).andThen fun s' =>
    if 0 < s'.nacc.toNat then
      (sinkWrite (topByte s') s').andThen fun s'' => .going (s''.setPending 0 0)
    else .going s'

/-- `CloseSink()` (R158): unless LEAVE_OPEN is set, SINK_CLOSED is set and the sink is asked to close. -/
def closeSink (s : State) : Progress :=
  if s.leaveOpen then .going s
  else
    match nextAnswer s with
    | .ok => .going (s.setSinkClosed.tickAnswer.appendClose .ok)
    | .fail => .ended (raiseError .underlyingIO (s.setSinkClosed.tickAnswer.appendClose .fail))

/-- The state after a command, with its checks in the order of R191: in FAILED it is ignored (R187), then the phase
check, then the operand check, then the body. -/
def commandResult (legal : Phase → Bool) (operandError : Option ErrorKind) (body : State → Progress) (s : State) :
    State :=
  if s.phase = .failed then s
  else if legal s.phase then
    match operandError with
    | some e => raiseError e s
    | none => (body s).state
  else raiseError .invalidState s

/-- A command runs to its end: it always gives a next state (R225). -/
def runCommand (legal : Phase → Bool) (operandError : Option ErrorKind) (body : State → Progress) (s : State) :
    Host.Outcome State Fault Refusal :=
  .next (commandResult legal operandError body s)

/-- Legal in every phase but FAILED, where a command is ignored before the question (R110). -/
def anyPhase : Phase → Bool := fun _ => true

/-- Legal in IDLE only (R150). -/
def idleOnly : Phase → Bool := fun p => p == .idle

/-- Legal in OPEN only (R130, R150). -/
def openOnly : Phase → Bool := fun p => p == .opened

/-- A word that decoding rejects: ignored in FAILED, else IllegalCommand (R185, R187, R191). -/
def rejectWord (s : State) : State :=
  if s.phase = .failed then s else raiseError .illegalCommand s

/-- What the host does next; `none` when its list is at its end, and the engine waits (R21, R213). -/
def nextEvent (s : State) : Option HostEvent :=
  s.program[s.pos]?

/-- The host's position moves on by one: exactly one for each command, never a branch (R21). -/
def advance (s : State) : State :=
  s.setPos (s.pos + 1)

/-- The host's list with `w` as the command it issues next. What stood before the position and after it stays. -/
def placeNext (w : CmdWord) (s : State) : State :=
  { s with
    program := s.program.take s.pos ++ .command w :: s.program.drop (s.pos + 1)
    pos := (s.program.take s.pos).length }

end Sys2Proof.Machine
end

