-- ==== Sys2Proof/Machine/BitWriter.lean ====
section
/-! DEFINITION. The bit-writer family (41_bitwriter.md R130, R132, R133): legal in OPEN only. -/

namespace Sys2Proof.Machine

/-- `BW.PUT n, value`: append the low `n` bits of `value`; `n > 24` is a FieldRange error (R132). -/
def execBwPut (n value : Word) (s : State) : Host.Outcome State Fault Refusal :=
  runCommand openOnly (widthError n) (put n.toNat value) s

/-- `BW.FLUSH`: drain, and pad the final partial byte with zeros (R133). -/
def execBwFlush (s : State) : Host.Outcome State Fault Refusal :=
  runCommand openOnly none flush s

end Sys2Proof.Machine
end

