-- ==== Sys2Proof/Machine/CrcMath.lean ====
section
/-! DEFINITION. The arithmetic of the CRC (00_scope.md R8; 40_crc.md R100 to R102, R107, R108, R111): the ROM `T`, the
byte step, the zero-extension operator, the combination of two segments, the rotate-and-xor fold. -/

namespace Sys2Proof.Machine

/-- One bit of the CRC shift register fed with a zero: `if c[31] = 1 then (c << 1) ^ poly else c << 1`
(the body of the loops of R100 and R111). -/
def crcShift (c : Word) : Word :=
  if c.msb then (c <<< 1) ^^^ poly else c <<< 1

/-- `T[i]`, an entry of the ROM, by the first construction of R100: `i << 24`, shifted eight times. -/
def tableEntry (i : Byte) : Word :=
  crcShift^[8] (i.setWidth 32 <<< 24)

/-- One bit of the reflected shift register (the loop body of R100's second construction). -/
def reflectedShift (c : Word) : Word :=
  if c.getLsbD 0 then (c >>> 1) ^^^ reflectedPoly else c >>> 1

/-- The entry of the reflected table that R100's second construction puts, bit-reversed, at `T[REV8(j)]`. -/
def reflectedEntry (j : Byte) : Word :=
  reflectedShift^[8] (j.setWidth 32)

/-- `REV8` (R8): bit `i` of the result is bit `7 − i`. -/
def rev8 (v : Byte) : Byte := v.reverse

/-- `REV32` (R8): bit `i` of the result is bit `31 − i`. -/
def rev32 (v : Word) : Word := v.reverse

/-- `step(r, b) = (r << 8) ^ T[(r >> 24) ^ b]` (R101). -/
def byteStep (r : Word) (b : Byte) : Word :=
  (r <<< 8) ^^^ tableEntry (r.extractLsb' 24 8 ^^^ b)

/-- One bit `d` shifted into the register (the bit-serial form of R101). -/
def bitStep (r : Word) (d : Bool) : Word :=
  if r.msb != d then (r <<< 1) ^^^ poly else r <<< 1

/-- `count` copies of the byte `b`, folded one after the other (R105). -/
def byteStepN (count : Nat) (b : Byte) (r : Word) : Word :=
  (fun x => byteStep x b)^[count] r

/-- The register after the bytes of a string, in order (R102). -/
def foldBytes (r : Word) (bytes : List Byte) : Word :=
  bytes.foldl byteStep r

/-- The CRC of a byte string: from all ones, every byte folded, the one's complement (R102). -/
def crcOf (bytes : List Byte) : Word :=
  ~~~ (foldBytes allOnes bytes)

/-- `Z_n`, the zero-extension operator for `n` bytes (R111). -/
def zeroExt (n : Nat) (c : Word) : Word :=
  crcShift^[8 * n] c

/-- The running register after a segment of `len` bytes whose CRC is `crc` has been appended (R107). -/
def combine (r crc len : Word) : Word :=
  if len = 0 then r else ~~~ (zeroExt len.toNat (~~~ r) ^^^ crc)

/-- `rotl32(x, 1) = (x << 1) | (x >> 31)` (R8). -/
def rotl1 (x : Word) : Word :=
  (x <<< 1) ||| (x >>> 31)

/-- `rotl32(C, 1) ^ ~R`: the block CRC folded into the combined register (R108). -/
def foldBlock (c r : Word) : Word :=
  rotl1 c ^^^ ~~~ r

end Sys2Proof.Machine
end

