-- ==== Sys2Proof/Machine/Crc.lean ====
section
/-! DEFINITION. The CRC family (40_crc.md R103 to R110): legal in IDLE, OPEN and CLOSED, no operand check, no sink. -/

namespace Sys2Proof.Machine

/-- `CRC.RESET`: `R <- 0xFFFFFFFF` (R103). -/
def execCrcReset (s : State) : Host.Outcome State Fault Refusal :=
  runCommand anyPhase none (fun s => .going (s.setR allOnes)) s

/-- `CRC.UPD byte`: `R <- step(R, byte)` (R104). -/
def execCrcUpd (byte : Byte) (s : State) : Host.Outcome State Fault Refusal :=
  runCommand anyPhase none (fun s => .going (s.setR (byteStep s.r byte))) s

/-- `CRC.UPDN byte, count`: `R <- step(R, byte)`, `count` times (R105). -/
def execCrcUpdn (byte : Byte) (count : Word) (s : State) : Host.Outcome State Fault Refusal :=
  runCommand anyPhase none (fun s => .going (s.setR (byteStepN count.toNat byte s.r))) s

/-- `CRC.RES`: `RES <- ~R` (R106). -/
def execCrcRes (s : State) : Host.Outcome State Fault Refusal :=
  runCommand anyPhase none (fun s => .going (s.setRes (~~~ s.r))) s

/-- `CRC.COMB crc, len`: the segment is appended; a length of 0 leaves `R` (R107). -/
def execCrcComb (crc len : Word) (s : State) : Host.Outcome State Fault Refusal :=
  runCommand anyPhase none (fun s => .going (s.setR (combine s.r crc len))) s

/-- `CRC.FOLD`: `C <- rotl32(C, 1) ^ ~R` (R108). -/
def execCrcFold (s : State) : Host.Outcome State Fault Refusal :=
  runCommand anyPhase none (fun s => .going (s.setC (foldBlock s.c s.r))) s

/-- `CRC.RDC`: `RES <- C` (R109). -/
def execCrcRdc (s : State) : Host.Outcome State Fault Refusal :=
  runCommand anyPhase none (fun s => .going (s.setRes s.c)) s

end Sys2Proof.Machine
end

