-- ==== Sys2Proof/Machine/FieldAssembler.lean ====
section
/-! DEFINITION. The field-assembler family (42_field_assembler.md R150, R151, R154, R157, R158): the stream header, the
block header and the trailer, each by the `Put` calls its rule shows (R162). -/

namespace Sys2Proof.Machine

/-- The registers `FA.SHDR` writes before the header: `PHASE`, `LEVEL`, `LEAVE_OPEN`, `C` (R151). -/
def openStream (level : Word) (leaveOpen : Bool) (s : State) : State :=
  ((s.setPhase .opened).setStream (level.setWidth 4) leaveOpen).setC 0

/-- `FA.SHDR level, leaveOpen`: open the stream, write `'B' 'Z' 'h'` and the level digit (R151). -/
def execFaShdr (level : Word) (leaveOpen : Bool) (s : State) : Host.Outcome State Fault Refusal :=
  runCommand idleOnly (levelError level)
    (fun s => putBytes (headerMark ++ [levelDigit level]) (openStream level leaveOpen s)) s

/-- The fields of a block header: magic, `~R`, the randomized flag, `origPtr` (R154). -/
def putBlockHeader (rand : Bool) (origPtr : Word) (s : State) : Progress :=
  (putBytes blockMagic s).andThen fun s =>
    (putBytes (wordBytes (~~~ s.r)) s).andThen fun s =>
      (put 1 (flagValue rand) s).andThen (put 24 origPtr)

/-- `FA.BHDR rand, origPtr`: write the header of a block; `origPtr ≥ 2^24` is a FieldRange error (R154). -/
def execFaBhdr (rand : Bool) (origPtr : Word) (s : State) : Host.Outcome State Fault Refusal :=
  runCommand openOnly (origPtrError origPtr) (putBlockHeader rand origPtr) s

/-- The trailer: magic, `C`, the flush, `PHASE <- CLOSED`, the close of the sink (R157). -/
def putTrailer (s : State) : Progress :=
  (putBytes trailerMagic s).andThen fun s =>
    (putBytes (wordBytes s.c) s).andThen fun s =>
      (flush s).andThen fun s => closeSink (s.setPhase .closed)

/-- `FA.STRL`: write the trailer, pad, close the stream (R157, R158). -/
def execFaStrl (s : State) : Host.Outcome State Fault Refusal :=
  runCommand openOnly none putTrailer s

end Sys2Proof.Machine
end

