-- ==== Sys2Proof/Machine/Dispatch.lean ====
section
/-! DEFINITION. The meaning of each command of the opcode map (30_encoding.md R74): one arm, one call. -/

namespace Sys2Proof.Machine

open Sys2Proof

/-- What a decoded command does to the state. -/
def exec (i : Instr) (s : State) : Host.Outcome State Fault Refusal :=
  match i with
  | .crcReset => Sys2Proof.Machine.execCrcReset s
  | .crcUpd byte => Sys2Proof.Machine.execCrcUpd byte s
  | .crcUpdn byte count => Sys2Proof.Machine.execCrcUpdn byte count s
  | .crcRes => Sys2Proof.Machine.execCrcRes s
  | .crcComb crc len => Sys2Proof.Machine.execCrcComb crc len s
  | .crcFold => Sys2Proof.Machine.execCrcFold s
  | .crcRdc => Sys2Proof.Machine.execCrcRdc s
  | .bwPut n value => Sys2Proof.Machine.execBwPut n value s
  | .bwFlush => Sys2Proof.Machine.execBwFlush s
  | .faShdr level leaveOpen => Sys2Proof.Machine.execFaShdr level leaveOpen s
  | .faBhdr rand origPtr => Sys2Proof.Machine.execFaBhdr rand origPtr s
  | .faStrl => Sys2Proof.Machine.execFaStrl s

end Sys2Proof.Machine
end

