-- ==== Sys2Proof/Machine/Step.lean ====
section
/-! DEFINITION. One step: what the host does next, done (10_state.md R21, R33). A command word is decoded and run to its
end, a rejected word takes the error entry, the reset input resets; with nothing to do the engine waits (R213). -/

namespace Sys2Proof.Machine

/-- One step of the machine. -/
def step (s : State) : Host.Outcome State Fault Refusal :=
  match nextEvent s with
  | none => .next s
  | some .reset => .next (resetInput (advance s))
  | some (.command w) =>
    match decode w with
    | .command i => exec i (advance s)
    | .illegal _ => .next (rejectWord (advance s))

/-- `s` with the command of an opcode-table word as what the host issues next (log entry 9). -/
def State.withFetchWord (s : State) (nbits w : Nat) : State :=
  placeNext (tableWord nbits w) s

end Sys2Proof.Machine
end

