-- ==== Sys2Proof/Machine/Assembler.lean ====
section
/-! DEFINITION. The assembler of 30_encoding.md R84 and R85: a line of text, the line with its operands as numbers, the
commands it stands for (pseudo-instructions expanded), their words. A refused line gives `none`. The machine does not
use this file: a program is a list of words (00_scope.md R10, 10_state.md R21). -/

namespace Sys2Proof.Machine

/-- A line of assembler: a mnemonic of R84 or a pseudo-instruction of R85, its operands as numbers in the order of the
source line. -/
inductive AsmLine where
  /-- No command: the line is empty or holds only a comment. -/
  | blank
  | crcReset
  | crcUpd (byte : Nat)
  | crcUpdn (byte count : Nat)
  | crcRes
  | crcComb (crc len : Nat)
  | crcFold
  | crcRdc
  | bwPut (n value : Nat)
  | bwFlush
  | faShdr (level leaveOpen : Nat)
  | faBhdr (rand origPtr : Nat)
  | faStrl
  /-- `crc.str "s"`: one `crc.upd` for each byte of the string (R85). -/
  | crcStr (bytes : List Nat)
  /-- `bw.byte b`: `bw.put 8, b` (R85). -/
  | bwByte (b : Nat)
  /-- `bw.put32 v`: two `bw.put 16` (R85). -/
  | bwPut32 (v : Nat)
  /-- `crc.block`: `crc.fold`, `crc.reset` (R85). -/
  | crcBlock
  /-- `fa.empty level`: a complete stream for empty input (R85). -/
  | faEmpty (level : Nat)
deriving DecidableEq, Repr

/-- An operand in a field of `width` bits: "the assembler refuses an operand that does not fit its field" (R84). -/
def asmField (width v : Nat) : Option (BitVec width) :=
  if v < 2 ^ width then some (BitVec.ofNat width v) else none

/-- A flag operand, 0 or 1 (R84). -/
def asmFlag (v : Nat) : Option Bool :=
  (asmField 1 v).map fun f => f == 1#1

/-- The commands a line stands for (R84, R85); `none` when an operand does not fit its field. -/
def AsmLine.expand : AsmLine → Option (List Instr)
  | .blank => some []
  | .crcReset => some [.crcReset]
  | .crcUpd byte => (asmField 8 byte).map fun b => [.crcUpd b]
  | .crcUpdn byte count => (asmField 8 byte).bind fun b => (asmField 32 count).map fun n => [.crcUpdn b n]
  | .crcRes => some [.crcRes]
  | .crcComb crc len => (asmField 32 crc).bind fun x => (asmField 32 len).map fun n => [.crcComb x n]
  | .crcFold => some [.crcFold]
  | .crcRdc => some [.crcRdc]
  | .bwPut n value => (asmField 32 n).bind fun k => (asmField 32 value).map fun v => [.bwPut k v]
  | .bwFlush => some [.bwFlush]
  | .faShdr level leaveOpen => (asmField 32 level).bind fun l => (asmFlag leaveOpen).map fun f => [.faShdr l f]
  | .faBhdr rand origPtr => (asmFlag rand).bind fun f => (asmField 32 origPtr).map fun p => [.faBhdr f p]
  | .faStrl => some [.faStrl]
  | .crcStr bytes => bytes.mapM fun c => (asmField 8 c).map Instr.crcUpd
  | .bwByte b => (asmField 32 b).map fun v => [.bwPut 8 v]
  | .bwPut32 v =>
    (asmField 32 v).map fun x => [.bwPut 16 ((x.extractLsb' 16 16).setWidth 32), .bwPut 16 ((x.extractLsb' 0 16).setWidth 32)]
  | .crcBlock => some [.crcFold, .crcReset]
  | .faEmpty level => (asmField 32 level).map fun l => [.faShdr l false, .crcReset, .crcFold, .faStrl]

/-- The words of a line. -/
def AsmLine.words (line : AsmLine) : Option (List CmdWord) :=
  line.expand.map fun is => is.map encode

/-! The text of a line: "mnemonics are case-insensitive; operands are decimal or `0x` hexadecimal numbers, separated by
commas; `;` starts a comment" (R84). What R84 does not say of the text is in log entry 13. -/

/-- The double quote, around the string of `crc.str`. -/
def asmQuote : Char := '\x22'

/-- White space within a line. -/
def asmBlank (c : Char) : Bool := c == ' ' || c == '\t' || c == '\r'

/-- The line without its comment; a `;` between quotes starts none. -/
def stripComment : Bool → List Char → List Char
  | _, [] => []
  | quoted, c :: cs =>
    if c == ';' && !quoted then [] else c :: stripComment (if c == asmQuote then !quoted else quoted) cs

/-- The text without white space at its ends. -/
def asmTrim (cs : List Char) : List Char :=
  ((cs.dropWhile asmBlank).reverse.dropWhile asmBlank).reverse

/-- The pieces between separators; there is always at least one. -/
def asmSplit (sep : Char) (cs : List Char) : List (List Char) :=
  cs.foldr
    (fun c pieces =>
      if c == sep then [] :: pieces
      else
        match pieces with
        | [] => [[c]]
        | p :: ps => (c :: p) :: ps)
    [[]]

/-- The value of a hexadecimal digit. -/
def digitValue (c : Char) : Option Nat :=
  if '0' ≤ c ∧ c ≤ '9' then some (c.toNat - '0'.toNat)
  else if 'a' ≤ c ∧ c ≤ 'f' then some (c.toNat - 'a'.toNat + 10)
  else if 'A' ≤ c ∧ c ≤ 'F' then some (c.toNat - 'A'.toNat + 10)
  else none

/-- The value of a string of digits of a base, after `acc`. -/
def parseDigits (base : Nat) : List Char → Nat → Option Nat
  | [], acc => some acc
  | c :: cs, acc =>
    match digitValue c with
    | some d => if d < base then parseDigits base cs (acc * base + d) else none
    | none => none

/-- A number: decimal, or hexadecimal after `0x`. -/
def parseNumber (cs : List Char) : Option Nat :=
  match cs with
  | [] => none
  | ['0', 'x'] => none
  | '0' :: 'x' :: digits => parseDigits 16 digits 0
  | digits => parseDigits 10 digits 0

/-- The operands of a line: none, or numbers separated by commas. -/
def parseOperands (cs : List Char) : Option (List Nat) :=
  if cs = [] then some [] else (asmSplit ',' cs).mapM fun piece => parseNumber (asmTrim piece)

/-- The bytes of a quoted string of ASCII characters. -/
def parseString (cs : List Char) : Option (List Nat) :=
  match cs with
  | [] => none
  | first :: rest =>
    match rest.reverse with
    | [] => none
    | last :: middle =>
      if first = asmQuote ∧ last = asmQuote ∧ middle.all (fun c => c != asmQuote && c.toNat < 128) then
        some (middle.reverse.map Char.toNat)
      else none

/-- A mnemonic with its operands (R84, R85); `leaveopen` defaults to 0. -/
def lineOf (mnemonic : String) (operands : List Nat) : Option AsmLine :=
  match mnemonic, operands with
  | "crc.reset", [] => some .crcReset
  | "crc.upd", [byte] => some (.crcUpd byte)
  | "crc.updn", [byte, count] => some (.crcUpdn byte count)
  | "crc.res", [] => some .crcRes
  | "crc.comb", [crc, len] => some (.crcComb crc len)
  | "crc.fold", [] => some .crcFold
  | "crc.rdc", [] => some .crcRdc
  | "bw.put", [n, value] => some (.bwPut n value)
  | "bw.flush", [] => some .bwFlush
  | "fa.shdr", [level] => some (.faShdr level 0)
  | "fa.shdr", [level, leaveOpen] => some (.faShdr level leaveOpen)
  | "fa.bhdr", [rand, origPtr] => some (.faBhdr rand origPtr)
  | "fa.strl", [] => some .faStrl
  | "bw.byte", [b] => some (.bwByte b)
  | "bw.put32", [v] => some (.bwPut32 v)
  | "crc.block", [] => some .crcBlock
  | "fa.empty", [level] => some (.faEmpty level)
  | _, _ => none

/-- A line of text read: "one command per line" (R84). -/
def parseLine (text : List Char) : Option AsmLine :=
  let line := asmTrim (stripComment false text)
  let mnemonic := String.ofList ((line.takeWhile fun c => !asmBlank c).map Char.toLower)
  let rest := asmTrim (line.dropWhile fun c => !asmBlank c)
  if line = [] then some .blank
  else if mnemonic = "crc.str" then (parseString rest).map AsmLine.crcStr
  else (parseOperands rest).bind (lineOf mnemonic)

/-- The words of a program text, one command per line (R10, R84). DESIGN CHOICE (log entry 13): R84 says only that the
assembler refuses the operand; here one refused line refuses the whole text, and the other lines give no words. -/
def assembleText (text : List Char) : Option (List CmdWord) :=
  ((asmSplit '\n' text).mapM fun line => (parseLine line).bind AsmLine.words).map List.flatten

end Sys2Proof.Machine
end

