-- ==== Sys2Proof/Machine/Doubling.lean ====
section
/-! DEFINITION. The "precomputed GF(2) zero-extension matrix (doubling-squares technique)" that the document computes
`Z_n` by (40_crc.md R111), and the same technique for repeated bytes. "Any method that yields `Z_n` is conforming": the
meanings use the clear loops of Machine/CrcMath.lean, and statements say that these fast forms equal them. -/

namespace Sys2Proof.Machine

/-- A 32 by 32 bit matrix as its columns: column `k` is the image of `1 << k`. -/
abbrev BitMatrix := List Word

/-- The matrix applied to a vector: the exclusive-or of the columns of its set bits, from bit `k` on. -/
def applyFrom : BitMatrix → Nat → Word → Word
  | [], _, _ => 0
  | col :: cols, k, v => (if v.getLsbD k then col else 0) ^^^ applyFrom cols (k + 1) v

/-- The matrix applied to a vector. -/
def BitMatrix.apply (m : BitMatrix) (v : Word) : Word :=
  applyFrom m 0 v

/-- The matrix of a linear map. -/
def matrixOf (f : Word → Word) : BitMatrix :=
  (List.range 32).map fun k => f (1#32 <<< k)

/-- The matrix applied twice. -/
def BitMatrix.square (m : BitMatrix) : BitMatrix :=
  m.map m.apply

/-- For each set bit of `bits`, from the least significant, the matrix of that power of two is applied; the matrix is
squared from bit to bit, `fuel` bits in all. -/
def applyPowers : Nat → BitMatrix → Nat → Word → Word
  | 0, _, _, c => c
  | fuel + 1, m, bits, c => applyPowers fuel m.square (bits / 2) (if bits % 2 = 1 then m.apply c else c)

/-- `Z_n` by doubling squares: "the matrix for one zero bit is squared repeatedly to get the matrices for 2, 4, 8, ...
zero bits, and those for the set bits of `8·n` are applied in turn" (R111), for `n` below 2^32. -/
def zeroExtDoubling (n : Nat) (c : Word) : Word :=
  applyPowers 35 (matrixOf crcShift) (8 * n) c

/-- Repeated bytes by doubling: `m` feeds 2^k zero bytes, `d` is what 2^k copies of the byte make of the zero register. -/
def repeatPowers : Nat → BitMatrix → Word → Nat → Word → Word
  | 0, _, _, _, r => r
  | fuel + 1, m, d, count, r =>
    repeatPowers fuel m.square (m.apply d ^^^ d) (count / 2) (if count % 2 = 1 then m.apply r ^^^ d else r)

/-- `count` copies of a byte by doubling, for `count` below 2^32 (R105, R225). -/
def byteStepNDoubling (count : Nat) (b : Byte) (r : Word) : Word :=
  repeatPowers 32 (matrixOf fun r => byteStep r 0) (byteStep 0 b) count r

end Sys2Proof.Machine
end

