-- ==== Sys2Proof/Machine/Flags.lean ====
section
/-! DEFINITION. The codes of the phases and the errors, and the ports the host reads (10_state.md R27, R32, R33, R34;
60_exceptions.md R181). The engine has no flags but the fields of `STATUS` (R35). -/

namespace Sys2Proof.Machine

/-- The 2-bit code of a phase (R27). -/
def phaseCode : Phase → BitVec 2
  | .idle => 0
  | .opened => 1
  | .closed => 2
  | .failed => 3

/-- The 4-bit code of an error; 0 is NONE (R181). -/
def errorCode : Option ErrorKind → BitVec 4
  | none => 0
  | some .configuration => 1
  | some .invalidState => 2
  | some .underlyingIO => 3
  | some .formatOverflow => 4
  | some .illegalCommand => 5
  | some .fieldRange => 6

/-- `STATUS[22]`, also the level of the error output (R32, R33, R193). -/
def errorOutput (s : State) : Bool :=
  s.phase == .failed

/-- A flag as a word whose bit 0 it is. -/
def flagBit (f : Bool) : Word :=
  (BitVec.ofBool f).setWidth 32

/-- `STATUS`, the word of the status port, built from the state: each field at its place, every other bit reads 0
(R32). -/
def statusWord (s : State) : Word :=
  (phaseCode s.phase).setWidth 32 |||
    ((errorCode s.err).setWidth 32 <<< 4) |||
    (s.nacc.setWidth 32 <<< 8) |||
    (s.level.setWidth 32 <<< 16) |||
    (flagBit s.leaveOpen <<< 20) |||
    (flagBit s.sinkClosed <<< 21) |||
    (flagBit (errorOutput s) <<< 22)

/-- `RES`, the word of the result port (R26, R33). -/
def resultPort (s : State) : Word :=
  s.res

end Sys2Proof.Machine
end

