-- ==== Sys2Proof/Safety.lean ====
section
/-! DEFINITION. The terms claims are made in: the observation of a run (20_memory.md R52, 70_reset_and_hazards.md R226),
the sink's coming answers (R53), the stream as a sequence of bits (20_memory.md R54, R59; 41_bitwriter.md R135), the
invariant of the registers (10_state.md R25; 41_bitwriter.md R134), and sequences of commands. -/

namespace Sys2Proof.Machine

/-- What a run shows: `SINKOUT`, the closes and their answers, `STATUS`, `RES` (R52, R226). -/
structure Observation where
  sinkOut : List Byte
  closes : List SinkAnswer
  status : Word
  result : Word
deriving DecidableEq, Repr

/-- The observation of a state. -/
def observe (s : State) : Observation where
  sinkOut := s.sinkOut
  closes := s.sinkCloses
  status := statusWord s
  result := resultPort s

/-- A run that has ended safely: no error has been raised, so its output need not be discarded (R186, R226). -/
abbrev State.unfailed (s : State) : Prop := s.phase ≠ .failed

/-! ### The answers of the sink -/

/-- The answer the sink gives to the call that comes after `j` others (R53). -/
def answerAt (s : State) (j : Nat) : SinkAnswer :=
  s.sinkAnswers.getD j (Config.sinkAnswer (s.sinkCalls + j))

/-- The next `k` sink answers are all `ok`. -/
abbrev answersOk (s : State) (k : Nat) : Prop := ∀ j, j < k → answerAt s j = .ok

/-- `k` more sink calls have been answered. -/
def consumeAnswers (k : Nat) (s : State) : State :=
  { s with sinkAnswers := s.sinkAnswers.drop k, sinkCalls := s.sinkCalls + k }

/-! ### Bits -/

/-- The low `n` bits of a value, most significant first (R55). -/
def bitsOf {w : Nat} (n : Nat) (v : BitVec w) : List Bool :=
  (List.range n).map fun i => v.getLsbD (n - 1 - i)

/-- The pending bits `ACC[31:32−NACC]`, oldest first (R25). -/
def pendingBits (s : State) : List Bool :=
  (List.range s.nacc.toNat).map fun i => s.acc.getLsbD (31 - i)

/-- The bits of a byte sequence, most significant bit of each byte first (R54). -/
def bytesBits (bs : List Byte) : List Bool :=
  bs.flatMap fun b => bitsOf 8 b

/-- `SINKOUT ++ ACC[31:32−NACC]`, the whole bit sequence built so far (R135). -/
def streamBits (s : State) : List Bool :=
  bytesBits s.sinkOut ++ pendingBits s

/-- The zero bits that bring `n` bits to the next byte boundary (R57, R133). -/
def padBits (n : Nat) : List Bool :=
  List.replicate ((8 - n % 8) % 8) false

/-- The stream header (R153). -/
def headerBits (level : Word) : List Bool :=
  bitsOf 24 0x425A68#24 ++ bitsOf 8 (0x30#8 + level.setWidth 8)

/-- The block header: magic, block CRC, randomized flag, `origPtr` (R155). -/
def blockHeaderBits (r : Word) (rand : Bool) (origPtr : Word) : List Bool :=
  bitsOf 48 0x314159265359#48 ++ bitsOf 32 (~~~ r) ++ [rand] ++ bitsOf 24 origPtr

/-- The trailer without its padding: magic, combined CRC (R159). -/
def trailerBits (c : Word) : List Bool :=
  bitsOf 48 0x177245385090#48 ++ bitsOf 32 c

/-- The bits a command appends when it raises no error and is not ignored: its fields and its padding (R135). -/
def appendedBits (i : Instr) (s : State) : List Bool :=
  match i with
  | .bwPut n value => bitsOf n.toNat value
  | .bwFlush => padBits s.nacc.toNat
  | .faShdr level _ => headerBits level
  | .faBhdr rand origPtr => blockHeaderBits s.r rand origPtr
  | .faStrl => trailerBits s.c ++ padBits (s.nacc.toNat + 80)
  | .crcReset | .crcUpd _ | .crcUpdn _ _ | .crcRes | .crcComb _ _ | .crcFold | .crcRdc => []

/-- How many of the bits of `appendedBits i s` stand in the accumulator or the sink when the sink refuses the call that
comes after `k` others (60_exceptions.md R184): a `Put` drains before it appends (41_bitwriter.md R131, R132), so the call
after `k` finds as many 8-bit fields appended as it takes for byte `k` to be complete, and no more. `BW.PUT` and `BW.FLUSH`
drain before anything is appended; `FA.BHDR` may fail at the byte completed by its flag, `FA.STRL` at the padded byte, or,
with every bit appended, at the close. -/
def bitsBeforeFailure (i : Instr) (s : State) (k : Nat) : Nat :=
  let fields := 8 * (k + 1 - s.nacc.toNat / 8)
  match i with
  | .faShdr _ _ => fields
  | .faBhdr _ _ => min fields 81
  | .faStrl => if s.nacc.toNat + 80 ≤ 8 * k then (appendedBits i s).length else min fields 80
  | .bwPut _ _ | .bwFlush => 0
  | .crcReset | .crcUpd _ | .crcUpdn _ _ | .crcRes | .crcComb _ _ | .crcFold | .crcRdc => 0

/-- The first `k` bytes of the accumulator, oldest first. -/
def firstBytes (k : Nat) (acc : Word) : List Byte :=
  (List.range k).map fun j => acc.extractLsb' (24 - 8 * j) 8

/-- `k` complete pending bytes have been written, each answered `ok` (R131). -/
def written (k : Nat) (s : State) : State :=
  { consumeAnswers k s with
    sinkOut := s.sinkOut ++ firstBytes k s.acc
    acc := s.acc <<< (8 * k)
    nacc := s.nacc - BitVec.ofNat 5 (8 * k) }

/-! ### Words and families of commands -/

/-- `w` is the word of the command `i`, and no other word decodes to it (30_encoding.md R74, R77). -/
def EncodedAs (i : Instr) (w : CmdWord) : Prop :=
  ∀ v : CmdWord, decode v = .command i ↔ v = w

/-- The commands `0x10` to `0x16` (40_crc.md R110). -/
def isCrcCommand : Instr → Bool
  | .crcReset | .crcUpd _ | .crcUpdn _ _ | .crcRes | .crcComb _ _ | .crcFold | .crcRdc => true
  | .bwPut _ _ | .bwFlush | .faShdr _ _ | .faBhdr _ _ | .faStrl => false

/-- A polynomial over GF(2) of degree at most 7 times one of degree at most 32, a bit for each coefficient. -/
def polyMul (q : Byte) (p : BitVec 40) : BitVec 40 :=
  (List.range 8).foldl (fun acc k => if q.getLsbD k then acc ^^^ (p <<< k) else acc) 0

/-! ### The order of a command's checks -/

/-- The phases a command is legal in (R110, R130, R150): the table of the rules, beside the meanings' own checks. -/
def phaseLegal (i : Instr) (p : Phase) : Bool :=
  match i with
  | .bwPut _ _ | .bwFlush | .faBhdr _ _ | .faStrl => p == .opened
  | .faShdr _ _ => p == .idle
  | .crcReset | .crcUpd _ | .crcUpdn _ _ | .crcRes | .crcComb _ _ | .crcFold | .crcRdc => p != .failed

/-- The error of a command's operands, if any (R182, R188). -/
def operandErrorOf : Instr → Option ErrorKind
  | .bwPut n _ => if n.toNat > 24 then some .fieldRange else none
  | .faShdr level _ => if level.toNat < 1 ∨ level.toNat > 9 then some .configuration else none
  | .faBhdr _ origPtr => if origPtr.toNat ≥ 16777216 then some .fieldRange else none
  | _ => none

/-- `s` after the entry of error `e`, written out (R186): the first error kept, FAILED, every other register as it was. -/
def failedWith (e : ErrorKind) (s : State) : State :=
  { s with phase := .failed, err := if s.err = none then some e else s.err }

/-! ### The invariant -/

/-- `ACC[31−NACC:0] = 0`: no bit below the pending ones; so `NACC = 0` implies `ACC = 0` (R25, R134). -/
abbrev AccClean (s : State) : Prop := s.acc <<< s.nacc.toNat = 0

/-- What each phase says of the other registers (R29, R30, R31, R151, R152, R157, R158). -/
abbrev PhaseRegisters (s : State) : Prop :=
  (s.phase = .idle → s.nacc = 0 ∧ s.level = 0 ∧ s.leaveOpen = false ∧ s.sinkClosed = false) ∧
  (s.phase = .opened → 1 ≤ s.level.toNat ∧ s.level.toNat ≤ 9 ∧ s.sinkClosed = false) ∧
  (s.phase = .closed → s.nacc = 0 ∧ 1 ≤ s.level.toNat ∧ s.level.toNat ≤ 9 ∧ s.sinkClosed = !s.leaveOpen) ∧
  (s.phase = .failed → s.level.toNat ≤ 9)

/-- An error is recorded exactly in FAILED (R28, R186), and it is never FormatOverflowError (R189). -/
abbrev ErrorPhase (s : State) : Prop :=
  (s.phase = .failed ↔ s.err ≠ none) ∧ s.err ≠ some .formatOverflow

/-- The invariant of the registers, kept by every step and by reset. -/
abbrev State.Inv (s : State) : Prop := AccClean s ∧ PhaseRegisters s ∧ ErrorPhase s

/-! ### Sequences of commands -/

/-- The state a command leaves. -/
def after (i : Instr) (s : State) : State :=
  match exec i s with
  | .next t => t
  | .fault _ => s
  | .refused _ => s

/-- The state a sequence of commands leaves, issued in order (R59). -/
def runCommands (is : List Instr) (s : State) : State :=
  is.foldl (fun s i => after i s) s

/-- The bits a sequence of commands appends, each in the state it finds. -/
def appendedByAll : List Instr → State → List Bool
  | [], _ => []
  | i :: is, s => appendedBits i s ++ appendedByAll is (after i s)

/-- The value of the combined register after folding the block CRCs `bs` into `c`, by the closed form of R113: each CRC
rotated left once for every fold that follows it. -/
def foldLaw (c : Word) (bs : List Word) : Word :=
  (bs.zipIdx.map fun p => p.1.rotateLeft (bs.length - 1 - p.2)).foldl (· ^^^ ·) (c.rotateLeft bs.length)

/-! ### The host sequence -/

/-- A run of equal original bytes, as the host issues it (70_reset_and_hazards.md R221). -/
inductive ByteRun where
  /-- `crc.upd b`: a run of one byte. -/
  | one (b : Byte)
  /-- `crc.updn b, n`: a run of `n` bytes. DESIGN CHOICE (log entry 16): `n = 0` is admitted. -/
  | many (b : Byte) (n : Word)
deriving DecidableEq, Repr

/-- The command of a run (R221). -/
def ByteRun.command : ByteRun → Instr
  | .one b => .crcUpd b
  | .many b n => .crcUpdn b n

/-- The bytes of a run. -/
def ByteRun.bytes : ByteRun → List Byte
  | .one b => [b]
  | .many b n => List.replicate n.toNat b

/-- A block of the host sequence (R221): the runs of its bytes, and, for its header and its payload, what the host
supplies. -/
structure StreamBlock where
  /-- The runs of original bytes, in input order. -/
  runs : List ByteRun
  /-- The randomized flag of the block. -/
  rand : Bool
  /-- `origPtr` of the block. -/
  origPtr : Word
  /-- The payload fields `(n, v)`, in order. -/
  payload : List (Word × Word)
  /-- The host folds the block's CRC before it writes the header: "`crc.fold` may equally come before `fa.bhdr`". -/
  foldFirst : Bool
deriving DecidableEq, Repr

/-- The original bytes of the block. -/
def StreamBlock.bytes (b : StreamBlock) : List Byte :=
  b.runs.flatMap ByteRun.bytes

/-- The block's CRC commands that come before its header: its `crc.reset`, its updates, and its fold if that comes first
(R221). -/
def StreamBlock.crcBefore (b : StreamBlock) : List Instr :=
  .crcReset :: b.runs.map ByteRun.command ++ (if b.foldFirst then [.crcFold] else [])

/-- The block's fold, if it comes after its header (R221). -/
def StreamBlock.crcAfter (b : StreamBlock) : List Instr :=
  if b.foldFirst then [] else [.crcFold]

/-- The header of a non-empty block (R221). -/
def StreamBlock.header (b : StreamBlock) : Instr :=
  .faBhdr b.rand b.origPtr

/-- The payload of a non-empty block (R221). -/
def StreamBlock.puts (b : StreamBlock) : List Instr :=
  b.payload.map fun field => .bwPut field.1 field.2

/-- The commands the host issues for the block, one part after the other; an empty block has no header and no payload
(R221; 42_field_assembler.md R156). -/
def StreamBlock.commands (b : StreamBlock) : List Instr :=
  b.crcBefore ++ (if b.bytes = [] then [] else b.header :: b.puts) ++ b.crcAfter

/-- The bits of the block in the stream (42_field_assembler.md R155, R160): its CRC is that of its bytes. -/
def StreamBlock.bits (b : StreamBlock) : List Bool :=
  if b.bytes = [] then []
  else
    bitsOf 48 0x314159265359#48 ++ bitsOf 32 (crcOf b.bytes) ++ [b.rand] ++ bitsOf 24 b.origPtr ++
      b.payload.flatMap fun field => bitsOf field.1.toNat field.2

/-- The block's operands are in their ranges (R132, R154). -/
abbrev StreamBlock.legal (b : StreamBlock) : Prop :=
  b.origPtr.toNat < 2 ^ 24 ∧ ∀ field ∈ b.payload, field.1.toNat ≤ 24

/-- The host sequence as R221 lists it, nothing interleaved. -/
def hostSequence (level : Word) (leaveOpen : Bool) (blocks : List StreamBlock) : List Instr :=
  .faShdr level leaveOpen :: blocks.flatMap StreamBlock.commands ++ [.faStrl]

/-- `zs` is an interleaving of `xs` and `ys`: each keeps its order. -/
inductive Merged : List Instr → List Instr → List Instr → Prop where
  /-- Nothing is left. -/
  | nil : Merged [] [] []
  /-- The next command is the first of `xs`. -/
  | left (x : Instr) {xs ys zs : List Instr} (h : Merged xs ys zs) : Merged (x :: xs) ys (x :: zs)
  /-- The next command is the first of `ys`. -/
  | right (y : Instr) {xs ys zs : List Instr} (h : Merged xs ys zs) : Merged xs (y :: ys) (y :: zs)

/-- `commands` issues the blocks in an order that R221 allows, while `puts` of an earlier block's payload and `owed` CRC
commands are still to come: up to a block's header the payload before it may be interleaved with the CRC commands before
it ("CRC commands may be interleaved with the payload's `bw.put`s only if they are for the same block before its fold, or
for the next block after its `crc.reset`"); every update of a block comes before its header and its fold.
DESIGN CHOICE (log entry 16): R221 does not say which block is "the next" when a middle block is empty; here the CRC
commands of the empty block, and of the blocks after it up to the next non-empty one, may all stand amid the payload before
it. -/
def BlocksIssued (puts owed : List Instr) : List StreamBlock → List Instr → Prop
  | [], commands => Merged puts owed commands
  | b :: bs, commands =>
    if b.bytes = [] then BlocksIssued puts (owed ++ b.crcBefore ++ b.crcAfter) bs commands
    else
      ∃ first rest, commands = first ++ b.header :: rest ∧ Merged puts (owed ++ b.crcBefore) first ∧
        BlocksIssued b.puts b.crcAfter bs rest

/-- `commands` is the sequence of R221 for the blocks, in any order it allows. DESIGN CHOICE (log entry 16): `CRC.RES`
and `CRC.RDC`, which R221 does not list and which write `RES` only, may stand anywhere. -/
def StreamIssued (level : Word) (leaveOpen : Bool) (blocks : List StreamBlock) (commands : List Instr) : Prop :=
  ∃ body reads, BlocksIssued [] [] blocks body ∧ (∀ i ∈ reads, i = .crcRes ∨ i = .crcRdc) ∧
    Merged (.faShdr level leaveOpen :: body ++ [.faStrl]) reads commands

/-- The blocks are those of an input: at least one, "the last block is empty only when the whole input is empty" (R221). -/
abbrev BlocksOfInput (blocks : List StreamBlock) : Prop :=
  blocks ≠ [] ∧ ∀ last ∈ blocks.getLast?, last.bytes = [] → ∀ b ∈ blocks, b.bytes = []

/-- The host sequence of R221, with every one of its requirements. -/
def IsHostSequence (level : Word) (leaveOpen : Bool) (blocks : List StreamBlock) (commands : List Instr) : Prop :=
  1 ≤ level.toNat ∧ level.toNat ≤ 9 ∧ BlocksOfInput blocks ∧ (∀ b ∈ blocks, b.legal) ∧
    StreamIssued level leaveOpen blocks commands

/-- The whole stream without its padding (R160): header, blocks, trailer with the combined CRC of R113. -/
def layoutBits (level : Word) (blocks : List StreamBlock) : List Bool :=
  headerBits level ++ blocks.flatMap StreamBlock.bits ++ trailerBits (foldLaw 0 (blocks.map fun b => crcOf b.bytes))

end Sys2Proof.Machine
end

