-- ==== Sys2Proof/Certificates/Slice0/Obligations.lean ====
section
/-! DEFINITION. The statements for the provers, in the order of the spec's files. Each docstring names the rules it
formalises; OBLIGATIONS.json says what each is. -/

open Sys2Proof Sys2Proof.Machine

/-! ### Encoding (30_encoding.md) -/

/-- R71 to R74: the encoder loses no bit of any operand of any command. -/
def Obligations.DecodeOfEncode : Prop :=
  ∀ i : Instr, decode (encode i) = .command i

/-- R71 to R75: no bit of a legal word is dropped, so a command has one word only. -/
def Obligations.EncodeOfDecode : Prop :=
  ∀ (w : CmdWord) (i : Instr), decode w = .command i → encode i = w

/-- R72, R74 to R77: the procedure of R75 accepts the words that fit a row of the opcode table, and no other. -/
def Obligations.DecodeAcceptsTableWords : Prop :=
  ∀ w : CmdWord, (∃ i : Instr, decode w = .command i) ↔ CmdWord.wellFormed w = true

/-- R74: no word fits two rows of the opcode table. -/
def Obligations.TableRowsAreDisjoint : Prop :=
  opcodeTable.Pairwise fun a b => ∀ w : CmdWord, ¬ (a.accepts w = true ∧ b.accepts w = true)

/-- R74, R84: words written out bit by bit decode to the commands they stand for. -/
def Obligations.SpecWordsDecode : Prop :=
  decode 0x10_00000000_00000000 = .command .crcReset ∧
  decode 0x12_00000005_00000041 = .command (.crcUpdn 0x41 5) ∧
  decode 0x14_00000004_8A3C41F7 = .command (.crcComb 0x8A3C41F7 4) ∧
  decode 0x20_00000018_00ABCDEF = .command (.bwPut 24 0x00ABCDEF) ∧
  decode 0x30_00000001_00000009 = .command (.faShdr 9 true) ∧
  decode 0x31_00000000_00FFFFFF = .command (.faBhdr false 0x00FFFFFF) ∧
  decode 0x00_00000000_00000000 = .illegal .reservedOpcode ∧
  decode 0x30_00000002_00000009 = .illegal .reservedBits

/-- R76: a word with a reserved opcode raises IllegalCommand and has no other effect (the host's position moves on, R21). -/
def Obligations.ReservedOpcodeIsIllegal : Prop :=
  ∀ (w : CmdWord) (s : State),
    (let op := (w.extractLsb' 64 8).toNat;
      op ≤ 0x0F ∨ (0x17 ≤ op ∧ op ≤ 0x1F) ∨ (0x22 ≤ op ∧ op ≤ 0x2F) ∨ 0x33 ≤ op) →
    nextEvent s = some (.command w) → s.phase ≠ .failed →
    step s = .next (failedWith .illegalCommand { s with pos := s.pos + 1 })

/-- R72, R77: a one in a reserved-zero bit of the word's format raises IllegalCommand and has no other effect. -/
def Obligations.ReservedBitIsIllegal : Prop :=
  ∀ (w : CmdWord) (s : State),
    (let op := w.extractLsb' 64 8;
      ((op = 0x10 ∨ op = 0x13 ∨ op = 0x15 ∨ op = 0x16 ∨ op = 0x21 ∨ op = 0x32) ∧ w.extractLsb' 0 64 ≠ 0) ∨
      (op = 0x11 ∧ w.extractLsb' 8 56 ≠ 0) ∨
      (op = 0x12 ∧ w.extractLsb' 8 24 ≠ 0) ∨
      ((op = 0x30 ∨ op = 0x31) ∧ w.extractLsb' 33 31 ≠ 0)) →
    nextEvent s = some (.command w) → s.phase ≠ .failed →
    step s = .next (failedWith .illegalCommand { s with pos := s.pos + 1 })

/-! ### The assembler (30_encoding.md) -/

/-- R84: a line whose operands fit their fields has the word of the table of R84; each word is written out as a number. -/
def Obligations.AssemblerWords : Prop :=
  ∀ byte count crc len n value level leaveOpen rand origPtr : Nat,
    byte < 2 ^ 8 → count < 2 ^ 32 → crc < 2 ^ 32 → len < 2 ^ 32 → n < 2 ^ 32 → value < 2 ^ 32 → level < 2 ^ 32 →
    leaveOpen < 2 → rand < 2 → origPtr < 2 ^ 32 →
    AsmLine.crcReset.words = some [0x10_00000000_00000000] ∧
    (AsmLine.crcUpd byte).words = some [BitVec.ofNat 72 (0x11 * 2 ^ 64 + byte)] ∧
    (AsmLine.crcUpdn byte count).words = some [BitVec.ofNat 72 (0x12 * 2 ^ 64 + count * 2 ^ 32 + byte)] ∧
    AsmLine.crcRes.words = some [0x13_00000000_00000000] ∧
    (AsmLine.crcComb crc len).words = some [BitVec.ofNat 72 (0x14 * 2 ^ 64 + len * 2 ^ 32 + crc)] ∧
    AsmLine.crcFold.words = some [0x15_00000000_00000000] ∧
    AsmLine.crcRdc.words = some [0x16_00000000_00000000] ∧
    (AsmLine.bwPut n value).words = some [BitVec.ofNat 72 (0x20 * 2 ^ 64 + n * 2 ^ 32 + value)] ∧
    AsmLine.bwFlush.words = some [0x21_00000000_00000000] ∧
    (AsmLine.faShdr level leaveOpen).words = some [BitVec.ofNat 72 (0x30 * 2 ^ 64 + leaveOpen * 2 ^ 32 + level)] ∧
    (AsmLine.faBhdr rand origPtr).words = some [BitVec.ofNat 72 (0x31 * 2 ^ 64 + rand * 2 ^ 32 + origPtr)] ∧
    AsmLine.faStrl.words = some [0x32_00000000_00000000]

/-- R84: "The assembler refuses an operand that does not fit its field", and refuses nothing else: not `n > 24`, not a
level outside 1..9, not `origptr ≥ 2^24`. -/
def Obligations.AssemblerRefusals : Prop :=
  ∀ byte count crc len n value level leaveOpen rand origPtr : Nat,
    ((AsmLine.crcUpd byte).words = none ↔ 255 < byte) ∧
    ((AsmLine.crcUpdn byte count).words = none ↔ 255 < byte ∨ 2 ^ 32 - 1 < count) ∧
    ((AsmLine.crcComb crc len).words = none ↔ 2 ^ 32 - 1 < crc ∨ 2 ^ 32 - 1 < len) ∧
    ((AsmLine.bwPut n value).words = none ↔ 2 ^ 32 - 1 < n ∨ 2 ^ 32 - 1 < value) ∧
    ((AsmLine.faShdr level leaveOpen).words = none ↔ 2 ^ 32 - 1 < level ∨ 1 < leaveOpen) ∧
    ((AsmLine.faBhdr rand origPtr).words = none ↔ 1 < rand ∨ 2 ^ 32 - 1 < origPtr)

/-- A pseudo-instruction is the commands it expands to (30_encoding.md R85), for operands that fit. Which operands fit is
the model's choice where R85 does not say (log entry 14): `bw.byte` takes every 32-bit number, 256 and above included,
`bw.put32` and `fa.empty` every 32-bit number. -/
def Obligations.PseudoInstructionExpansions : Prop :=
  ∀ (bytes : List Byte) (b v level : Word),
    (AsmLine.crcStr (bytes.map BitVec.toNat)).expand = some (bytes.map Instr.crcUpd) ∧
    (AsmLine.bwByte b.toNat).expand = some [.bwPut 8 b] ∧
    (AsmLine.bwPut32 v.toNat).expand = some [.bwPut 16 (v >>> 16), .bwPut 16 (v &&& 0xFFFF)] ∧
    AsmLine.crcBlock.expand = some [.crcFold, .crcReset] ∧
    (AsmLine.faEmpty level.toNat).expand = some [.faShdr level false, .crcReset, .crcFold, .faStrl]

/-! ### Steps, reset and phases (10_state.md, 70_reset_and_hazards.md, 42_field_assembler.md) -/

/-- R21, R33, R75: a word on the command port that decodes to a command is that command run to its end, the host's
position moved on by exactly one. -/
def Obligations.StepRunsDecodedCommand : Prop :=
  ∀ (s : State) (w : CmdWord) (i : Instr),
    s.program[s.pos]? = some (.command w) → decode w = .command i →
    step s = exec i { s with pos := s.pos + 1 }

/-- R213, and log entry 4 (DEDUCED): with nothing offered by the host the engine waits, and nothing changes. -/
def Obligations.StepWaitsWithoutEvent : Prop :=
  ∀ s : State, s.program.length ≤ s.pos → step s = .next s

/-- R225: every command, and every other step, ends: no step faults and none is refused, whatever the state, the word
and the sink's answers. -/
def Obligations.EveryStepEnds : Prop :=
  ∀ s : State, ∃ t : State, step s = .next t

/-- R210, R211: the reset values, at power-on and after the reset input asserted in any phase; `STATUS` reads 0 and the
error output is 0. The reset input does not touch the sink. That it is an event of the host's list, that the host's position
moves on by one and that the sink's coming answers stay is the model's choice (log entry 5). -/
def Obligations.ResetValues : Prop :=
  (let z := State.reset;
    z.r = 0xFFFFFFFF ∧ z.c = 0 ∧ z.acc = 0 ∧ z.nacc = 0 ∧ z.res = 0 ∧ z.phase = .idle ∧ z.err = none ∧ z.level = 0 ∧
      z.leaveOpen = false ∧ z.sinkClosed = false ∧ statusWord z = 0 ∧ errorOutput z = false) ∧
  ∀ s : State, s.program[s.pos]? = some .reset →
    ∃ t : State,
      step s = .next t ∧
      t = { s with
            r := 0xFFFFFFFF, c := 0, acc := 0, nacc := 0, res := 0, phase := .idle, err := none, level := 0,
            leaveOpen := false, sinkClosed := false, pos := s.pos + 1 } ∧
      statusWord t = 0 ∧ errorOutput t = false

/-- R152: the only transitions of `PHASE`, and that each row of the table is taken: `FA.SHDR` passing its checks gives OPEN and
`FA.STRL` gives CLOSED, unless the sink answers `fail` to the call that is the command's last. -/
def Obligations.PhaseTransitions : Prop :=
  ∀ s t : State, step s = .next t →
    (t.phase = s.phase ∨
      (nextEvent s = some .reset ∧ t.phase = .idle) ∨
      (s.phase = .idle ∧ t.phase = .opened ∧
        ∃ w level leaveOpen, nextEvent s = some (.command w) ∧ decode w = .command (.faShdr level leaveOpen) ∧
          1 ≤ level.toNat ∧ level.toNat ≤ 9) ∨
      (s.phase = .opened ∧ t.phase = .closed ∧ t.nacc = 0 ∧
        ∃ w, nextEvent s = some (.command w) ∧ decode w = .command .faStrl) ∨
      (s.phase ≠ .failed ∧ t.phase = .failed ∧ t.err ≠ none ∧ nextEvent s ≠ some .reset)) ∧
    (nextEvent s = some .reset → t.phase = .idle) ∧
    (∀ w level leaveOpen, s.phase = .idle → nextEvent s = some (.command w) →
      decode w = .command (.faShdr level leaveOpen) → 1 ≤ level.toNat → level.toNat ≤ 9 →
      t.phase = .opened ∨
        (t.phase = .failed ∧ ∃ k, answersOk s k ∧ answerAt s k = .fail ∧ t.sinkCalls = s.sinkCalls + k + 1)) ∧
    (∀ w, s.phase = .opened → nextEvent s = some (.command w) → decode w = .command .faStrl →
      t.phase = .closed ∨
        (t.phase = .failed ∧ ∃ k, answersOk s k ∧ answerAt s k = .fail ∧ t.sinkCalls = s.sinkCalls + k + 1)) ∧
    (nextEvent s ≠ some .reset → t.err ≠ s.err → t.phase = .failed)

/-! ### The CRC family (40_crc.md) -/

/-- R100: each entry of the ROM is the remainder of `i · x^32` divided by the generator polynomial, its first construction
gives it, the second construction gives the same table, and the check entries. -/
def Obligations.TableConstructionsAgree : Prop :=
  (∀ i : Byte, ∃ q : Byte,
    i.setWidth 40 <<< 32 = polyMul q (0x104C11DB7#40) ^^^ (tableEntry i).setWidth 40) ∧
  (∀ i : Byte, tableEntry i = crcShift^[8] (i.setWidth 32 <<< 24)) ∧
  (∀ c : Word, crcShift c = if c.getLsbD 31 then (c <<< 1) ^^^ 0x04C11DB7 else c <<< 1) ∧
  (∀ j : Byte, tableEntry (rev8 j) = rev32 (reflectedEntry j)) ∧
  tableEntry 0x00 = 0x00000000 ∧ tableEntry 0x01 = 0x04C11DB7 ∧ tableEntry 0x02 = 0x09823B6E ∧
  tableEntry 0x80 = 0x690CE0EE ∧ tableEntry 0xFF = 0xB1F740B4

/-- R101: the byte step, its bit-serial form (the bits of `b` shifted in from `b[7]` to `b[0]`), its linearity. -/
def Obligations.ByteStepForms : Prop :=
  (∀ (r : Word) (b : Byte), byteStep r b = (r <<< 8) ^^^ tableEntry (r.extractLsb' 24 8 ^^^ b)) ∧
  (∀ (r : Word) (b : Byte), byteStep r b = (bitsOf 8 b).foldl bitStep r) ∧
  (∀ (r r' : Word) (b b' : Byte), byteStep (r ^^^ r') (b ^^^ b') = byteStep r b ^^^ byteStep r' b')

/-- R103: `CRC.RESET` sets `R` to all ones and writes nothing else, in IDLE, OPEN and CLOSED; a `CRC.RES` after it
returns 0. -/
def Obligations.CrcResetResult : Prop :=
  EncodedAs .crcReset 0x10_00000000_00000000 ∧
  ∀ s : State, s.phase ≠ .failed →
    exec .crcReset s = .next { s with r := 0xFFFFFFFF } ∧ (runCommands [.crcReset, .crcRes] s).res = 0x00000000

/-- R104: `CRC.UPD` folds one byte into `R` by the table step and writes nothing else; its corner cases and example. -/
def Obligations.CrcUpdResult : Prop :=
  (∀ byte : Byte, EncodedAs (.crcUpd byte) (BitVec.ofNat 72 (0x11 * 2 ^ 64 + byte.toNat))) ∧
  (∀ (byte : Byte) (s : State), s.phase ≠ .failed →
    exec (.crcUpd byte) s = .next { s with r := (s.r <<< 8) ^^^ tableEntry ((s.r >>> 24).setWidth 8 ^^^ byte) }) ∧
  byteStep 0xFFFFFFFF 0x00 = 0x4E08BFB4 ∧ byteStep 0xFFFFFFFF 0xFF = 0xFFFFFF00 ∧ byteStep 0xFFFFFFFF 0x41 = 0x7E4FD274

/-- R105: `CRC.UPDN` is `count` consecutive `CRC.UPD byte`; it completes for every count; a count of 0 leaves the state
as it was, a count of 1 is `CRC.UPD`. -/
def Obligations.CrcUpdnIsRepeatedUpd : Prop :=
  (∀ (byte : Byte) (count : Word),
    EncodedAs (.crcUpdn byte count) (BitVec.ofNat 72 (0x12 * 2 ^ 64 + count.toNat * 2 ^ 32 + byte.toNat))) ∧
  (∀ (byte : Byte) (count : Word) (s : State), s.phase ≠ .failed →
    exec (.crcUpdn byte count) s = .next { s with r := (fun x => byteStep x byte)^[count.toNat] s.r } ∧
    exec (.crcUpdn byte count) s = .next (runCommands (List.replicate count.toNat (.crcUpd byte)) s) ∧
    exec (.crcUpdn byte 0) s = .next s ∧
    exec (.crcUpdn byte 1) s = exec (.crcUpd byte) s) ∧
  byteStepN 5 0x41 0xFFFFFFFF = 0xD14298BA

/-- R106, R109: `CRC.RES` returns the one's complement of `R`, `CRC.RDC` returns `C` as it stands; only `RES` is
written. After `CRC.RESET` the first gives 0; after reset and after `FA.SHDR` the second does. -/
def Obligations.ResultReads : Prop :=
  EncodedAs .crcRes 0x13_00000000_00000000 ∧ EncodedAs .crcRdc 0x16_00000000_00000000 ∧
  (∀ s : State, s.phase ≠ .failed →
    exec .crcRes s = .next { s with res := ~~~ s.r } ∧ exec .crcRdc s = .next { s with res := s.c } ∧
    (runCommands [.crcReset, .crcRes] s).res = 0x00000000) ∧
  exec .crcRdc State.reset = .next { State.reset with res := 0x00000000 } ∧
  (∀ (level : Word) (leaveOpen : Bool) (s : State), s.phase = .idle → (after (.faShdr level leaveOpen) s).phase = .opened →
    (runCommands [.faShdr level leaveOpen, .crcRdc] s).res = 0x00000000)

/-- R107: `CRC.COMB` replaces `R` by the register of the two segments joined; a length of 0 leaves it; after an empty first
segment the result is `~crc`; only `R` is written. -/
def Obligations.CrcCombResult : Prop :=
  (∀ crc len : Word, EncodedAs (.crcComb crc len) (BitVec.ofNat 72 (0x14 * 2 ^ 64 + len.toNat * 2 ^ 32 + crc.toNat))) ∧
  (∀ (crc len : Word) (s : State), s.phase ≠ .failed →
    (len ≠ 0 → exec (.crcComb crc len) s = .next { s with r := ~~~ (zeroExt len.toNat (~~~ s.r) ^^^ crc) }) ∧
    (len = 0 → exec (.crcComb crc len) s = .next s) ∧
    (len ≠ 0 → s.r = 0xFFFFFFFF → exec (.crcComb crc len) s = .next { s with r := ~~~ crc })) ∧
  (∀ x y : List Byte, y.length < 2 ^ 32 →
    ~~~ (combine (~~~ (crcOf x)) (crcOf y) (BitVec.ofNat 32 y.length)) = crcOf (x ++ y)) ∧
  combine 0xBD9AB747 0x8A3C41F7 4 = 0x0376E6E7

/-- R108: `CRC.FOLD` rotates `C` left by one and adds the block CRC; only `C` is written; an empty block still rotates,
and bit 31 moves to bit 0. -/
def Obligations.CrcFoldResult : Prop :=
  EncodedAs .crcFold 0x15_00000000_00000000 ∧
  (∀ s : State, s.phase ≠ .failed →
    exec .crcFold s = .next { s with c := ((s.c <<< 1) ||| (s.c >>> 31)) ^^^ ~~~ s.r } ∧
    (s.r = 0xFFFFFFFF → exec .crcFold s = .next { s with c := s.c.rotateLeft 1 } ∧
      (s.c.rotateLeft 1).getLsbD 0 = s.c.getLsbD 31)) ∧
  foldBlock 0x00000000 0x7E4FD274 = 0x81B02D8B ∧ foldBlock 0x81B02D8B 0x7E4FD274 = 0x82D0769C

/-- R110: every CRC command is legal in IDLE, OPEN and CLOSED, raises no error there, and neither reads nor changes
`PHASE`, `ACC`, `NACC`, `LEVEL`, `LEAVE_OPEN` or the sink; in FAILED it is ignored. -/
def Obligations.CrcPhaseRule : Prop :=
  ∀ i : Instr, isCrcCommand i = true → ∀ s : State,
    (s.phase = .failed → exec i s = .next s) ∧
    (s.phase ≠ .failed → ∃ t : State,
      exec i s = .next t ∧ t = { s with r := t.r, c := t.c, res := t.res } ∧
      ∀ u : State, u.phase ≠ .failed → u.r = s.r → u.c = s.c → u.res = s.res →
        exec i u = .next { u with r := t.r, c := t.c, res := t.res })

/-- R103 to R109: the frame of the CRC family: apart from the command's one destination register nothing changes, in any
phase; no error is raised. -/
def Obligations.CrcFamilyFrame : Prop :=
  ∀ (s t : State) (byte : Byte) (count crc len : Word),
    ((exec .crcReset s = .next t ∨ exec (.crcUpd byte) s = .next t ∨ exec (.crcUpdn byte count) s = .next t ∨
      exec (.crcComb crc len) s = .next t) → t = { s with r := t.r }) ∧
    ((exec .crcRes s = .next t ∨ exec .crcRdc s = .next t) → t = { s with res := t.res }) ∧
    (exec .crcFold s = .next t → t = { s with c := t.c })

/-- R111: `Z_n` is the shift register fed `8·n` zero bits; `Z_0` is the identity, `Z_{m+n} = Z_m ∘ Z_n`, and `Z_n` is
linear. -/
def Obligations.ZeroExtensionLaws : Prop :=
  (∀ c : Word, zeroExt 0 c = c) ∧
  (∀ (m n : Nat) (c : Word), zeroExt (m + n) c = zeroExt m (zeroExt n c)) ∧
  (∀ (n : Nat) (c d : Word), zeroExt n (c ^^^ d) = zeroExt n c ^^^ zeroExt n d) ∧
  (∀ (n : Nat) (c : Word), zeroExt n c = (fun x => byteStep x 0)^[n] c)

/-- R111: the doubling-squares technique yields `Z_n` for every length a `CRC.COMB` can have. -/
def Obligations.ZeroExtensionByDoubling : Prop :=
  ∀ (n : Nat) (c : Word), n < 2 ^ 32 → zeroExtDoubling n c = zeroExt n c

/-- R105, R111: repeated bytes can be folded by doubling squares, for every count a `CRC.UPDN` can have. -/
def Obligations.RepeatedUpdateByDoubling : Prop :=
  ∀ (n : Nat) (b : Byte) (r : Word), n < 2 ^ 32 → byteStepNDoubling n b r = byteStepN n b r

/-- R112, the combine law: `CRC.RESET`, `X` folded with `CRC.UPD`, then `CRC.COMB crc(Y), |Y|` leaves `~R = crc(X ++ Y)`. -/
def Obligations.CombineLaw : Prop :=
  ∀ (x y : List Byte) (s : State), s.phase ≠ .failed → y.length < 2 ^ 32 →
    ~~~ (runCommands (.crcReset :: x.map Instr.crcUpd ++ [.crcComb (crcOf y) (BitVec.ofNat 32 y.length)]) s).r =
      crcOf (x ++ y)

/-- R113, the fold law: from `C = 0`, after folding the blocks `bs` (each `CRC.RESET`, its bytes, `CRC.FOLD`),
`C = rotl^{k−1}(b_1) ^ ... ^ b_k`. Stated from any `C`, which rotates along. The result depends on how the input was cut. -/
def Obligations.FoldLaw : Prop :=
  (∀ (blocks : List (List Byte)) (s : State), s.phase ≠ .failed →
    (runCommands (blocks.flatMap fun bytes => .crcReset :: bytes.map Instr.crcUpd ++ [.crcFold]) s).c =
      foldLaw s.c (blocks.map crcOf)) ∧
  (∀ bs : List Word,
    foldLaw 0 bs = (bs.zipIdx.map fun p => p.1.rotateLeft (bs.length - 1 - p.2)).foldl (· ^^^ ·) 0) ∧
  foldLaw 0 [crcOf [0x41, 0x41]] ≠ foldLaw 0 [crcOf [0x41], crcOf [0x41]]

/-! ### The bit writer (41_bitwriter.md, 20_memory.md) -/

/-- R132 with R131: `BW.PUT n, value` in every phase but FAILED. Outside OPEN and with `n > 24` it raises its error with
nothing touched. With the sink taking the complete pending bytes it drains them and appends the low `n` bits of `value`
below the bits that stay pending (with `n = 0` it only drains), and nothing else changes. When the sink refuses the byte
after `j` bytes taken, those bytes stay in `SINKOUT` and `ACC`, `NACC` keep their values at the failing call. -/
def Obligations.BwPutResult : Prop :=
  ∀ n value : Word,
    EncodedAs (.bwPut n value) (BitVec.ofNat 72 (0x20 * 2 ^ 64 + n.toNat * 2 ^ 32 + value.toNat)) ∧
    ∀ s : State,
      (s.phase = .idle ∨ s.phase = .closed → exec (.bwPut n value) s = .next (failedWith .invalidState s)) ∧
      (s.phase = .opened → 24 < n.toNat → exec (.bwPut n value) s = .next (failedWith .fieldRange s)) ∧
      (s.phase = .opened → n.toNat ≤ 24 → answersOk s (s.nacc.toNat / 8) →
        exec (.bwPut n value) s =
          .next
            { consumeAnswers (s.nacc.toNat / 8) s with
              sinkOut := s.sinkOut ++ firstBytes (s.nacc.toNat / 8) s.acc
              acc :=
                (s.acc <<< (8 * (s.nacc.toNat / 8))) |||
                  ((value.setWidth n.toNat).setWidth 32 <<< (32 - s.nacc.toNat % 8 - n.toNat))
              nacc := BitVec.ofNat 5 (s.nacc.toNat % 8 + n.toNat) }) ∧
      (∀ j, s.phase = .opened → n.toNat ≤ 24 → j < s.nacc.toNat / 8 → answersOk s j → answerAt s j = .fail →
        exec (.bwPut n value) s =
          .next
            (failedWith .underlyingIO
              { consumeAnswers (j + 1) s with
                sinkOut := s.sinkOut ++ firstBytes j s.acc
                acc := s.acc <<< (8 * j)
                nacc := BitVec.ofNat 5 (s.nacc.toNat - 8 * j) }))

/-- R78: the bits of `value` above bit `n − 1` are not reserved: with any of them set the word is legal, a `BW.PUT`; and
they have no effect, in any state. -/
def Obligations.BwPutIgnoresHighBits : Prop :=
  (∀ n value : Word,
    decode (BitVec.ofNat 72 (0x20 * 2 ^ 64 + n.toNat * 2 ^ 32 + value.toNat)) = .command (.bwPut n value)) ∧
  (∀ (n v v' : Word) (s : State), (∀ j, j < n.toNat → v.getLsbD j = v'.getLsbD j) →
    exec (.bwPut n v) s = exec (.bwPut n v') s)

/-- R133 with R131: `BW.FLUSH` in every phase but FAILED. With the sink taking the bytes it writes every complete pending
byte and the partial byte padded with zeros, nothing is pending afterwards, and nothing else changes; with nothing pending
it changes nothing. When the sink refuses a byte, as for `BW.PUT`. -/
def Obligations.BwFlushResult : Prop :=
  EncodedAs .bwFlush 0x21_00000000_00000000 ∧
  ∀ s : State, AccClean s →
    (s.phase = .idle ∨ s.phase = .closed → exec .bwFlush s = .next (failedWith .invalidState s)) ∧
    (s.phase = .opened → answersOk s ((s.nacc.toNat + 7) / 8) →
      exec .bwFlush s =
        .next
          { consumeAnswers ((s.nacc.toNat + 7) / 8) s with
            sinkOut := s.sinkOut ++ firstBytes ((s.nacc.toNat + 7) / 8) s.acc
            acc := 0
            nacc := 0 }) ∧
    (s.phase = .opened → s.nacc = 0 → exec .bwFlush s = .next s) ∧
    (∀ j, s.phase = .opened → j < (s.nacc.toNat + 7) / 8 → answersOk s j → answerAt s j = .fail →
      exec .bwFlush s =
        .next
          (failedWith .underlyingIO
            { consumeAnswers (j + 1) s with
              sinkOut := s.sinkOut ++ firstBytes j s.acc
              acc := s.acc <<< (8 * j)
              nacc := BitVec.ofNat 5 (s.nacc.toNat - 8 * j) }))

/-- R56: a field written whole and the same field written in two parts give the same `SINKOUT` after the next `BW.FLUSH`.
If the flush follows at once and the sink takes the bytes, the two machines are equal; with any other commands in between,
`SINKOUT` is the same when neither run fails. -/
def Obligations.FieldSplit : Prop :=
  ∀ (n n1 v : Word) (s : State), s.phase = .opened → AccClean s → 0 < n1.toNat → n1.toNat < n.toNat → n.toNat ≤ 24 →
    let upper := Instr.bwPut n1 (v.extractLsb' (n.toNat - n1.toNat) n1.toNat |>.setWidth 32)
    let lower := Instr.bwPut (n - n1) (v.extractLsb' 0 (n.toNat - n1.toNat) |>.setWidth 32)
    (answersOk s ((s.nacc.toNat + n.toNat + 7) / 8) →
      runCommands [.bwPut n v, .bwFlush] s = runCommands [upper, lower, .bwFlush] s) ∧
    (∀ between : List Instr,
      let whole := runCommands (.bwPut n v :: between ++ [.bwFlush]) s
      let split := runCommands (upper :: lower :: between ++ [.bwFlush]) s
      whole.phase ≠ .failed → split.phase ≠ .failed → whole.sinkOut = split.sinkOut)

/-- R134: kept by every command: `NACC ≤ 31`, no bit below the pending ones, `NACC = 0` implies `ACC = 0`; and after a
command that ended with `Put(n, v)`, `NACC ≤ 7 + n`. -/
def Obligations.AccumulatorInvariant : Prop :=
  ∀ (i : Instr) (s t : State), AccClean s → exec i s = .next t →
    t.nacc.toNat ≤ 31 ∧ (∀ k, k < 32 - t.nacc.toNat → t.acc.getLsbD k = false) ∧ (t.nacc = 0 → t.acc = 0) ∧
    (∀ n value, i = .bwPut n value → s.phase = .opened → t.phase = .opened → t.nacc.toNat ≤ 7 + n.toNat) ∧
    (∀ level leaveOpen, i = .faShdr level leaveOpen → s.phase = .idle → t.phase = .opened → t.nacc.toNat ≤ 7 + 8) ∧
    (∀ rand origPtr, i = .faBhdr rand origPtr → s.phase = .opened → t.phase = .opened → t.nacc.toNat ≤ 7 + 24)

/-- R135 for one command: unless it fails, the sink's bytes followed by the pending bits grow by exactly the bits of the
command's fields and padding, most significant first. -/
def Obligations.CommandAppendsItsBits : Prop :=
  ∀ (i : Instr) (s t : State), AccClean s → s.phase ≠ .failed → exec i s = .next t → t.phase ≠ .failed →
    streamBits t = streamBits s ++ appendedBits i s

/-- R59, R135 for every sequence of commands that raises no error. -/
def Obligations.SequenceAppendsItsBits : Prop :=
  ∀ (is : List Instr) (s : State), AccClean s → (runCommands is s).phase ≠ .failed →
    streamBits (runCommands is s) = streamBits s ++ appendedByAll is s

/-- R51, R58, R59: no step, the reset input included, takes a byte back or changes one: `SINKOUT` only grows at its end. -/
def Obligations.SinkOutOnlyGrows : Prop :=
  ∀ s t : State, step s = .next t → ∃ bytes : List Byte, t.sinkOut = s.sinkOut ++ bytes

/-- R53, R184: a command that passes its checks consumes the sink's answers in order. If all it needs are `ok` it raises
no error, and each call took a byte or closed the sink. The first `fail` ends it with UnderlyingIOError (the first error is
kept, R186) and it makes no further call: the `k` bytes taken before stand in `SINKOUT` and the failing byte does not; and
`ACC`, `NACC` keep their values at the failing call, so that the bit stream has grown by the bits appended up to that call,
which `bitsBeforeFailure` counts. -/
def Obligations.SinkAnswersDecide : Prop :=
  ∀ (i : Instr) (s t : State), phaseLegal i s.phase = true → operandErrorOf i = none → exec i s = .next t →
    ∃ k, answersOk s k ∧ s.sinkOut <+: t.sinkOut ∧
      ((t.phase ≠ .failed ∧ t.err = s.err ∧ t.sinkCalls = s.sinkCalls + k ∧ t.sinkAnswers = s.sinkAnswers.drop k ∧
          t.sinkOut.length + t.sinkCloses.length = s.sinkOut.length + s.sinkCloses.length + k) ∨
        (answerAt s k = .fail ∧ t.phase = .failed ∧ t.err = (if s.err = none then some .underlyingIO else s.err) ∧
          t.sinkCalls = s.sinkCalls + k + 1 ∧ t.sinkAnswers = s.sinkAnswers.drop (k + 1) ∧
          t.sinkOut.length = s.sinkOut.length + k ∧
          (AccClean s → AccClean t ∧
            streamBits t = streamBits s ++ (appendedBits i s).take (bitsBeforeFailure i s k))))

/-! ### The field assembler (42_field_assembler.md) -/

/-- R151: in IDLE, with a level of 1..9 and the sink taking three bytes, `FA.SHDR` opens the stream: `42 5A 68` reach
the sink, the level digit is pending, `C` is cleared, `R` and `RES` stay. Nothing is pending in IDLE (the invariant). -/
def Obligations.FaShdrResult : Prop :=
  ∀ (level : Word) (leaveOpen : Bool) (s : State),
    s.phase = .idle → s.Inv → 1 ≤ level.toNat → level.toNat ≤ 9 → answersOk s 3 →
    exec (.faShdr level leaveOpen) s =
      .next
        { consumeAnswers 3 s with
          phase := .opened
          level := BitVec.ofNat 4 level.toNat
          leaveOpen := leaveOpen
          c := 0
          sinkOut := s.sinkOut ++ [0x42, 0x5A, 0x68]
          acc := (0x30 + level) <<< 24
          nacc := 8 }

/-- R154, R155: in OPEN, with `origPtr < 2^24` and the sink taking the complete bytes, `FA.BHDR` appends the 105 bits of
the block header at whatever bit position the output has reached, and changes no other register. How many bits stay
pending follows from the `Put` calls of R154 (log entry 10). -/
def Obligations.FaBhdrResult : Prop :=
  ∀ (rand : Bool) (origPtr : Word) (s : State),
    s.phase = .opened → AccClean s → origPtr.toNat < 2 ^ 24 → answersOk s ((s.nacc.toNat + 81) / 8) →
    ∃ t : State,
      exec (.faBhdr rand origPtr) s = .next t ∧
      streamBits t = streamBits s ++ blockHeaderBits s.r rand origPtr ∧
      t.nacc.toNat = (s.nacc.toNat + 81) % 8 + 24 ∧
      t = { consumeAnswers ((s.nacc.toNat + 81) / 8) s with sinkOut := t.sinkOut, acc := t.acc, nacc := t.nacc }

/-- R157, R158, R159: in OPEN, with the sink taking the bytes (and, unless LEAVE_OPEN is set, the close), `FA.STRL`
writes the trailer and its zero padding, leaves nothing pending, closes the stream, and asks the sink to close exactly
when LEAVE_OPEN is clear. -/
def Obligations.FaStrlResult : Prop :=
  ∀ s : State, s.phase = .opened → AccClean s →
    let k := (s.nacc.toNat + 87) / 8
    (s.leaveOpen = true → answersOk s k →
      ∃ t : State,
        exec .faStrl s = .next t ∧
        bytesBits t.sinkOut = streamBits s ++ trailerBits s.c ++ padBits (s.nacc.toNat + 80) ∧
        t = { consumeAnswers k s with phase := .closed, acc := 0, nacc := 0, sinkOut := t.sinkOut }) ∧
    (s.leaveOpen = false → answersOk s (k + 1) →
      ∃ t : State,
        exec .faStrl s = .next t ∧
        bytesBits t.sinkOut = streamBits s ++ trailerBits s.c ++ padBits (s.nacc.toNat + 80) ∧
        t = { consumeAnswers (k + 1) s with
              phase := .closed, acc := 0, nacc := 0, sinkOut := t.sinkOut, sinkClosed := true
              sinkCloses := s.sinkCloses ++ [.ok] })

/-- R158: when the close fails, the trailer stands in `SINKOUT`, SINK_CLOSED is set, and the phase is FAILED with
UnderlyingIOError. -/
def Obligations.FaStrlCloseFailure : Prop :=
  ∀ s : State, s.phase = .opened → AccClean s → s.leaveOpen = false →
    answersOk s ((s.nacc.toNat + 87) / 8) → answerAt s ((s.nacc.toNat + 87) / 8) = .fail →
    ∃ t : State,
      exec .faStrl s = .next t ∧
      bytesBits t.sinkOut = streamBits s ++ trailerBits s.c ++ padBits (s.nacc.toNat + 80) ∧
      t = failedWith .underlyingIO
            { consumeAnswers ((s.nacc.toNat + 87) / 8 + 1) s with
              acc := 0, nacc := 0, sinkOut := t.sinkOut, sinkClosed := true
              sinkCloses := s.sinkCloses ++ [.fail] }

/-- R51, R131 to R133, R151, R154, R157: the frame of the commands that write to the sink, on every path, errors
included. -/
def Obligations.StreamFamilyFrame : Prop :=
  ∀ (s t : State) (n value level origPtr : Word) (leaveOpen rand : Bool),
    ((exec (.bwPut n value) s = .next t ∨ exec .bwFlush s = .next t ∨ exec (.faBhdr rand origPtr) s = .next t) →
      t = { s with
            acc := t.acc, nacc := t.nacc, phase := t.phase, err := t.err
            sinkOut := t.sinkOut, sinkAnswers := t.sinkAnswers, sinkCalls := t.sinkCalls }) ∧
    (exec (.faShdr level leaveOpen) s = .next t →
      t = { s with
            acc := t.acc, nacc := t.nacc, phase := t.phase, err := t.err
            c := t.c, level := t.level, leaveOpen := t.leaveOpen
            sinkOut := t.sinkOut, sinkAnswers := t.sinkAnswers, sinkCalls := t.sinkCalls }) ∧
    (exec .faStrl s = .next t →
      t = { s with
            acc := t.acc, nacc := t.nacc, phase := t.phase, err := t.err
            sinkClosed := t.sinkClosed, sinkCloses := t.sinkCloses
            sinkOut := t.sinkOut, sinkAnswers := t.sinkAnswers, sinkCalls := t.sinkCalls })

/-- R160, R221: the stream layout law, for every order in which R221 lets the host issue the commands (`StreamIssued`: runs
of one byte by `CRC.UPD` or `CRC.UPDN`, a block's `CRC.FOLD` before its header, after it or among its payload, the next
block's CRC commands among the payload), and for any number of blocks, empty ones among them; whatever meets
`IsHostSequence`, all of R221, meets these premises. From IDLE, with the sink taking every byte (and the close, unless
LEAVE_OPEN is set), the commands leave in the sink the stream header, for each non-empty block its header, with the CRC of
its original bytes, and its payload, then the trailer with the combined CRC, and zero bits to the next byte boundary; the
stream is closed, with no error. The orders go by the model's choice (log entry 16) where R221 is silent: "the next block"
across an empty one, reads of the CRC, runs of no bytes. -/
def Obligations.StreamLayout : Prop :=
  ∀ (level : Word) (leaveOpen : Bool) (blocks : List StreamBlock) (commands : List Instr) (s : State),
    s.phase = .idle → s.Inv → 1 ≤ level.toNat → level.toNat ≤ 9 → (∀ b ∈ blocks, b.legal) →
    StreamIssued level leaveOpen blocks commands →
    answersOk s (((layoutBits level blocks).length + 7) / 8 + (if leaveOpen then 0 else 1)) →
    let t := runCommands commands s
    bytesBits t.sinkOut =
        bytesBits s.sinkOut ++ layoutBits level blocks ++ padBits (layoutBits level blocks).length ∧
      t.phase = .closed ∧ t.err = none ∧ t.nacc = 0 ∧ t.sinkClosed = !leaveOpen

/-- R221, R156, R212: the host sequence (`IsHostSequence`, with all that R221 requires: at least one block, the last one
empty only when the whole input is) of an input whose last block is empty writes exactly the header and the trailer with a
combined CRC of 0; and of any other input its last block has a header in the sequence. The orders go by the model's choice
(log entry 16) where R221 is silent. -/
def Obligations.HostSequenceOfInput : Prop :=
  ∀ (level : Word) (leaveOpen : Bool) (blocks : List StreamBlock) (commands : List Instr) (last : StreamBlock),
    IsHostSequence level leaveOpen blocks commands → blocks.getLast? = some last →
    (last.bytes ≠ [] → last.header ∈ commands) ∧
    (last.bytes = [] → ∀ s : State, s.phase = .idle → s.Inv → answersOk s (14 + (if leaveOpen then 0 else 1)) →
      let t := runCommands commands s
      t.sinkOut =
          s.sinkOut ++
            [0x42, 0x5A, 0x68, 0x30 + level.setWidth 8, 0x17, 0x72, 0x45, 0x38, 0x50, 0x90, 0x00, 0x00, 0x00, 0x00] ∧
        t.phase = .closed ∧ t.err = none ∧ t.c = 0 ∧ t.sinkClosed = !leaveOpen)

/-! ### Errors (60_exceptions.md) -/

/-- R183: InvalidStateError of a command outside its phase, before any state is written, whatever its operands; CRC
commands never raise it. -/
def Obligations.InvalidStateErrors : Prop :=
  ∀ s : State,
    (∀ (n value origPtr : Word) (rand : Bool), s.phase = .idle ∨ s.phase = .closed →
      exec (.bwPut n value) s = .next (failedWith .invalidState s) ∧
      exec .bwFlush s = .next (failedWith .invalidState s) ∧
      exec (.faBhdr rand origPtr) s = .next (failedWith .invalidState s) ∧
      exec .faStrl s = .next (failedWith .invalidState s)) ∧
    (∀ (level : Word) (leaveOpen : Bool), s.phase = .opened ∨ s.phase = .closed →
      exec (.faShdr level leaveOpen) s = .next (failedWith .invalidState s)) ∧
    (∀ (i : Instr) (t : State), isCrcCommand i = true → exec i s = .next t → t.phase = s.phase ∧ t.err = s.err)

/-- R182: ConfigurationError of `FA.SHDR` with a level outside 1..9, its phase check passed, before any state is written. -/
def Obligations.ConfigurationError : Prop :=
  ∀ (level : Word) (leaveOpen : Bool) (s : State),
    s.phase = .idle → level.toNat < 1 ∨ 9 < level.toNat →
    exec (.faShdr level leaveOpen) s = .next (failedWith .configuration s)

/-- R188: FieldRange of `BW.PUT` with `n > 24` and of `FA.BHDR` with `origPtr ≥ 2^24`, before any byte is drained. -/
def Obligations.FieldRangeErrors : Prop :=
  ∀ (n value origPtr : Word) (rand : Bool) (s : State), s.phase = .opened →
    (24 < n.toNat → exec (.bwPut n value) s = .next (failedWith .fieldRange s)) ∧
    (2 ^ 24 ≤ origPtr.toNat → exec (.faBhdr rand origPtr) s = .next (failedWith .fieldRange s))

/-- R187: in FAILED every word, legal or not, is accepted and ignored, and no step but the reset input's leaves FAILED. -/
def Obligations.FailedIgnoresEveryWord : Prop :=
  ∀ s : State, s.phase = .failed →
    (∀ i : Instr, exec i s = .next s) ∧
    (∀ w : CmdWord, nextEvent s = some (.command w) → step s = .next { s with pos := s.pos + 1 }) ∧
    (∀ t : State, step s = .next t → nextEvent s ≠ some .reset →
      t.phase = .failed ∧ t.err = s.err ∧ resultPort t = resultPort s ∧ statusWord t = statusWord s)

/-- R191: exactly one error, the first in the order: ignored in FAILED, IllegalCommand, InvalidStateError,
ConfigurationError or FieldRange, UnderlyingIOError. -/
def Obligations.ErrorPriority : Prop :=
  ∀ (s : State) (w : CmdWord), nextEvent s = some (.command w) →
    ∃ t : State, step s = .next t ∧
      let s' := { s with pos := s.pos + 1 }
      if s.phase = .failed then t = s'
      else
        match decode w with
        | .illegal _ => t = failedWith .illegalCommand s'
        | .command i =>
          if phaseLegal i s.phase = false then t = failedWith .invalidState s'
          else
            match operandErrorOf i with
            | some e => t = failedWith e s'
            | none =>
              (t.phase ≠ .failed ∧ t.err = s.err) ∨
                (t.phase = .failed ∧ (t.err = if s.err = none then some .underlyingIO else s.err) ∧
                  ∃ k, answersOk s k ∧ answerAt s k = .fail ∧ t.sinkCalls = s.sinkCalls + k + 1)

/-- R28, R186: `ERR` keeps the first error: it is written only by an error entry, only while it is NONE, and only the
reset input clears it. -/
def Obligations.FirstErrorIsKept : Prop :=
  ∀ s t : State, step s = .next t → nextEvent s ≠ some .reset →
    (s.err ≠ none → t.err = s.err) ∧ (t.err ≠ s.err → t.phase = .failed)

/-! ### The whole machine (10_state.md) -/

/-- R22, R23, R26, R29, R30, R31: which commands write `R`, `C`, `RES`, `LEVEL`, `LEAVE_OPEN` and `SINK_CLOSED`: no other
command changes them. -/
def Obligations.RegisterWriters : Prop :=
  ∀ (i : Instr) (s t : State), exec i s = .next t →
    (t.r ≠ s.r → (match i with | .crcReset | .crcUpd _ | .crcUpdn _ _ | .crcComb _ _ => True | _ => False)) ∧
    (t.c ≠ s.c → (match i with | .crcFold | .faShdr _ _ => True | _ => False)) ∧
    (t.res ≠ s.res → (match i with | .crcRes | .crcRdc => True | _ => False)) ∧
    (t.level ≠ s.level ∨ t.leaveOpen ≠ s.leaveOpen → (match i with | .faShdr _ _ => True | _ => False)) ∧
    (t.sinkClosed ≠ s.sinkClosed ∨ t.sinkCloses ≠ s.sinkCloses → i = .faStrl ∧ s.leaveOpen = false) ∧
    (t.sinkOut ≠ s.sinkOut →
      (match i with | .bwPut _ _ | .bwFlush | .faShdr _ _ | .faBhdr _ _ | .faStrl => True | _ => False)) ∧
    t.program = s.program ∧ t.pos = s.pos

/-- R32: the layout of `STATUS`, field by field, with the codes of the phases (R27) and of the errors (R181) written out;
its reserved bits read 0; after reset it is 0; and the error output equals `STATUS[22]` (R33). -/
def Obligations.StatusLayout : Prop :=
  ∀ s : State,
    (statusWord s).extractLsb' 0 2 =
      (match s.phase with
        | .idle => 0
        | .opened => 1
        | .closed => 2
        | .failed => 3) ∧
    (statusWord s).extractLsb' 2 2 = 0 ∧
    (statusWord s).extractLsb' 4 4 =
      (match s.err with
        | none => 0
        | some .configuration => 1
        | some .invalidState => 2
        | some .underlyingIO => 3
        | some .formatOverflow => 4
        | some .illegalCommand => 5
        | some .fieldRange => 6) ∧
    (statusWord s).extractLsb' 8 5 = s.nacc ∧
    (statusWord s).extractLsb' 13 3 = 0 ∧
    (statusWord s).extractLsb' 16 4 = s.level ∧
    (statusWord s).getLsbD 20 = s.leaveOpen ∧
    (statusWord s).getLsbD 21 = s.sinkClosed ∧
    ((statusWord s).getLsbD 22 = true ↔ s.phase = .failed) ∧
    (statusWord s).extractLsb' 23 9 = 0 ∧
    errorOutput s = (statusWord s).getLsbD 22 ∧
    statusWord State.reset = 0x00000000

/-- The invariant of the registers is kept by every step: command, rejected word, reset input, wait. -/
def Obligations.EveryStepKeepsInvariant : Prop :=
  ∀ s t : State, s.Inv → step s = .next t → t.Inv

/-- The invariant of the registers holds after reset. -/
def Obligations.ResetMeetsInvariant : Prop :=
  State.reset.Inv

/-- R110, R132, R133, R151: what `BW.PUT`, `BW.FLUSH` and `FA.SHDR` do does not depend on the CRC registers `R`,
`C` and `RES`: two states that differ only there go on differing only there, and `FA.SHDR`, when its checks pass, clears
`C` in both (R151). -/
def Obligations.BitWriterIgnoresCrcRegisters : Prop :=
  ∀ (s t : State) (n value level : Word) (leaveOpen : Bool) (r c res : Word),
    (exec (.bwPut n value) s = .next t →
      exec (.bwPut n value) { s with r := r, c := c, res := res } = .next { t with r := r, c := c, res := res }) ∧
    (exec .bwFlush s = .next t →
      exec .bwFlush { s with r := r, c := c, res := res } = .next { t with r := r, c := c, res := res }) ∧
    (exec (.faShdr level leaveOpen) s = .next t →
      exec (.faShdr level leaveOpen) { s with r := r, res := res } = .next { t with r := r, res := res } ∧
      exec (.faShdr level leaveOpen) { s with r := r, c := c, res := res } =
        .next
          { t with
            r := r, res := res
            c := if s.phase = .idle ∧ 1 ≤ level.toNat ∧ level.toNat ≤ 9 then 0 else c })
end

