-- ==== Sys2Proof/Laws/State.lean ====
section
/-! SUPPORT. One lemma for each field and each named update of the state, so that no later proof unfolds an update. -/

namespace Sys2Proof.Machine

section
variable (s : State) (v : Word)

@[simp] theorem State.setR_r : (s.setR v).r = v := rfl
@[simp] theorem State.setR_c : (s.setR v).c = s.c := rfl
@[simp] theorem State.setR_acc : (s.setR v).acc = s.acc := rfl
@[simp] theorem State.setR_nacc : (s.setR v).nacc = s.nacc := rfl
@[simp] theorem State.setR_res : (s.setR v).res = s.res := rfl
@[simp] theorem State.setR_phase : (s.setR v).phase = s.phase := rfl
@[simp] theorem State.setR_err : (s.setR v).err = s.err := rfl
@[simp] theorem State.setR_level : (s.setR v).level = s.level := rfl
@[simp] theorem State.setR_leaveOpen : (s.setR v).leaveOpen = s.leaveOpen := rfl
@[simp] theorem State.setR_sinkClosed : (s.setR v).sinkClosed = s.sinkClosed := rfl
@[simp] theorem State.setR_sinkOut : (s.setR v).sinkOut = s.sinkOut := rfl
@[simp] theorem State.setR_sinkCloses : (s.setR v).sinkCloses = s.sinkCloses := rfl
@[simp] theorem State.setR_sinkAnswers : (s.setR v).sinkAnswers = s.sinkAnswers := rfl
@[simp] theorem State.setR_sinkCalls : (s.setR v).sinkCalls = s.sinkCalls := rfl
@[simp] theorem State.setR_program : (s.setR v).program = s.program := rfl
@[simp] theorem State.setR_pos : (s.setR v).pos = s.pos := rfl

end

section
variable (s : State) (v : Word)

@[simp] theorem State.setC_r : (s.setC v).r = s.r := rfl
@[simp] theorem State.setC_c : (s.setC v).c = v := rfl
@[simp] theorem State.setC_acc : (s.setC v).acc = s.acc := rfl
@[simp] theorem State.setC_nacc : (s.setC v).nacc = s.nacc := rfl
@[simp] theorem State.setC_res : (s.setC v).res = s.res := rfl
@[simp] theorem State.setC_phase : (s.setC v).phase = s.phase := rfl
@[simp] theorem State.setC_err : (s.setC v).err = s.err := rfl
@[simp] theorem State.setC_level : (s.setC v).level = s.level := rfl
@[simp] theorem State.setC_leaveOpen : (s.setC v).leaveOpen = s.leaveOpen := rfl
@[simp] theorem State.setC_sinkClosed : (s.setC v).sinkClosed = s.sinkClosed := rfl
@[simp] theorem State.setC_sinkOut : (s.setC v).sinkOut = s.sinkOut := rfl
@[simp] theorem State.setC_sinkCloses : (s.setC v).sinkCloses = s.sinkCloses := rfl
@[simp] theorem State.setC_sinkAnswers : (s.setC v).sinkAnswers = s.sinkAnswers := rfl
@[simp] theorem State.setC_sinkCalls : (s.setC v).sinkCalls = s.sinkCalls := rfl
@[simp] theorem State.setC_program : (s.setC v).program = s.program := rfl
@[simp] theorem State.setC_pos : (s.setC v).pos = s.pos := rfl

end

section
variable (s : State) (v : Word)

@[simp] theorem State.setRes_r : (s.setRes v).r = s.r := rfl
@[simp] theorem State.setRes_c : (s.setRes v).c = s.c := rfl
@[simp] theorem State.setRes_acc : (s.setRes v).acc = s.acc := rfl
@[simp] theorem State.setRes_nacc : (s.setRes v).nacc = s.nacc := rfl
@[simp] theorem State.setRes_res : (s.setRes v).res = v := rfl
@[simp] theorem State.setRes_phase : (s.setRes v).phase = s.phase := rfl
@[simp] theorem State.setRes_err : (s.setRes v).err = s.err := rfl
@[simp] theorem State.setRes_level : (s.setRes v).level = s.level := rfl
@[simp] theorem State.setRes_leaveOpen : (s.setRes v).leaveOpen = s.leaveOpen := rfl
@[simp] theorem State.setRes_sinkClosed : (s.setRes v).sinkClosed = s.sinkClosed := rfl
@[simp] theorem State.setRes_sinkOut : (s.setRes v).sinkOut = s.sinkOut := rfl
@[simp] theorem State.setRes_sinkCloses : (s.setRes v).sinkCloses = s.sinkCloses := rfl
@[simp] theorem State.setRes_sinkAnswers : (s.setRes v).sinkAnswers = s.sinkAnswers := rfl
@[simp] theorem State.setRes_sinkCalls : (s.setRes v).sinkCalls = s.sinkCalls := rfl
@[simp] theorem State.setRes_program : (s.setRes v).program = s.program := rfl
@[simp] theorem State.setRes_pos : (s.setRes v).pos = s.pos := rfl

end

section
variable (s : State) (acc : Word) (nacc : BitVec 5)

@[simp] theorem State.setPending_r : (s.setPending acc nacc).r = s.r := rfl
@[simp] theorem State.setPending_c : (s.setPending acc nacc).c = s.c := rfl
@[simp] theorem State.setPending_acc : (s.setPending acc nacc).acc = acc := rfl
@[simp] theorem State.setPending_nacc : (s.setPending acc nacc).nacc = nacc := rfl
@[simp] theorem State.setPending_res : (s.setPending acc nacc).res = s.res := rfl
@[simp] theorem State.setPending_phase : (s.setPending acc nacc).phase = s.phase := rfl
@[simp] theorem State.setPending_err : (s.setPending acc nacc).err = s.err := rfl
@[simp] theorem State.setPending_level : (s.setPending acc nacc).level = s.level := rfl
@[simp] theorem State.setPending_leaveOpen : (s.setPending acc nacc).leaveOpen = s.leaveOpen := rfl
@[simp] theorem State.setPending_sinkClosed : (s.setPending acc nacc).sinkClosed = s.sinkClosed := rfl
@[simp] theorem State.setPending_sinkOut : (s.setPending acc nacc).sinkOut = s.sinkOut := rfl
@[simp] theorem State.setPending_sinkCloses : (s.setPending acc nacc).sinkCloses = s.sinkCloses := rfl
@[simp] theorem State.setPending_sinkAnswers : (s.setPending acc nacc).sinkAnswers = s.sinkAnswers := rfl
@[simp] theorem State.setPending_sinkCalls : (s.setPending acc nacc).sinkCalls = s.sinkCalls := rfl
@[simp] theorem State.setPending_program : (s.setPending acc nacc).program = s.program := rfl
@[simp] theorem State.setPending_pos : (s.setPending acc nacc).pos = s.pos := rfl

end

section
variable (s : State) (p : Phase)

@[simp] theorem State.setPhase_r : (s.setPhase p).r = s.r := rfl
@[simp] theorem State.setPhase_c : (s.setPhase p).c = s.c := rfl
@[simp] theorem State.setPhase_acc : (s.setPhase p).acc = s.acc := rfl
@[simp] theorem State.setPhase_nacc : (s.setPhase p).nacc = s.nacc := rfl
@[simp] theorem State.setPhase_res : (s.setPhase p).res = s.res := rfl
@[simp] theorem State.setPhase_phase : (s.setPhase p).phase = p := rfl
@[simp] theorem State.setPhase_err : (s.setPhase p).err = s.err := rfl
@[simp] theorem State.setPhase_level : (s.setPhase p).level = s.level := rfl
@[simp] theorem State.setPhase_leaveOpen : (s.setPhase p).leaveOpen = s.leaveOpen := rfl
@[simp] theorem State.setPhase_sinkClosed : (s.setPhase p).sinkClosed = s.sinkClosed := rfl
@[simp] theorem State.setPhase_sinkOut : (s.setPhase p).sinkOut = s.sinkOut := rfl
@[simp] theorem State.setPhase_sinkCloses : (s.setPhase p).sinkCloses = s.sinkCloses := rfl
@[simp] theorem State.setPhase_sinkAnswers : (s.setPhase p).sinkAnswers = s.sinkAnswers := rfl
@[simp] theorem State.setPhase_sinkCalls : (s.setPhase p).sinkCalls = s.sinkCalls := rfl
@[simp] theorem State.setPhase_program : (s.setPhase p).program = s.program := rfl
@[simp] theorem State.setPhase_pos : (s.setPhase p).pos = s.pos := rfl

end

section
variable (s : State) (e : Option ErrorKind)

@[simp] theorem State.setError_r : (s.setError e).r = s.r := rfl
@[simp] theorem State.setError_c : (s.setError e).c = s.c := rfl
@[simp] theorem State.setError_acc : (s.setError e).acc = s.acc := rfl
@[simp] theorem State.setError_nacc : (s.setError e).nacc = s.nacc := rfl
@[simp] theorem State.setError_res : (s.setError e).res = s.res := rfl
@[simp] theorem State.setError_phase : (s.setError e).phase = s.phase := rfl
@[simp] theorem State.setError_err : (s.setError e).err = e := rfl
@[simp] theorem State.setError_level : (s.setError e).level = s.level := rfl
@[simp] theorem State.setError_leaveOpen : (s.setError e).leaveOpen = s.leaveOpen := rfl
@[simp] theorem State.setError_sinkClosed : (s.setError e).sinkClosed = s.sinkClosed := rfl
@[simp] theorem State.setError_sinkOut : (s.setError e).sinkOut = s.sinkOut := rfl
@[simp] theorem State.setError_sinkCloses : (s.setError e).sinkCloses = s.sinkCloses := rfl
@[simp] theorem State.setError_sinkAnswers : (s.setError e).sinkAnswers = s.sinkAnswers := rfl
@[simp] theorem State.setError_sinkCalls : (s.setError e).sinkCalls = s.sinkCalls := rfl
@[simp] theorem State.setError_program : (s.setError e).program = s.program := rfl
@[simp] theorem State.setError_pos : (s.setError e).pos = s.pos := rfl

end

section
variable (s : State) (level : BitVec 4) (leaveOpen : Bool)

@[simp] theorem State.setStream_r : (s.setStream level leaveOpen).r = s.r := rfl
@[simp] theorem State.setStream_c : (s.setStream level leaveOpen).c = s.c := rfl
@[simp] theorem State.setStream_acc : (s.setStream level leaveOpen).acc = s.acc := rfl
@[simp] theorem State.setStream_nacc : (s.setStream level leaveOpen).nacc = s.nacc := rfl
@[simp] theorem State.setStream_res : (s.setStream level leaveOpen).res = s.res := rfl
@[simp] theorem State.setStream_phase : (s.setStream level leaveOpen).phase = s.phase := rfl
@[simp] theorem State.setStream_err : (s.setStream level leaveOpen).err = s.err := rfl
@[simp] theorem State.setStream_level : (s.setStream level leaveOpen).level = level := rfl
@[simp] theorem State.setStream_leaveOpen : (s.setStream level leaveOpen).leaveOpen = leaveOpen := rfl
@[simp] theorem State.setStream_sinkClosed : (s.setStream level leaveOpen).sinkClosed = s.sinkClosed := rfl
@[simp] theorem State.setStream_sinkOut : (s.setStream level leaveOpen).sinkOut = s.sinkOut := rfl
@[simp] theorem State.setStream_sinkCloses : (s.setStream level leaveOpen).sinkCloses = s.sinkCloses := rfl
@[simp] theorem State.setStream_sinkAnswers : (s.setStream level leaveOpen).sinkAnswers = s.sinkAnswers := rfl
@[simp] theorem State.setStream_sinkCalls : (s.setStream level leaveOpen).sinkCalls = s.sinkCalls := rfl
@[simp] theorem State.setStream_program : (s.setStream level leaveOpen).program = s.program := rfl
@[simp] theorem State.setStream_pos : (s.setStream level leaveOpen).pos = s.pos := rfl

end

section
variable (s : State)

@[simp] theorem State.setSinkClosed_r : (s.setSinkClosed).r = s.r := rfl
@[simp] theorem State.setSinkClosed_c : (s.setSinkClosed).c = s.c := rfl
@[simp] theorem State.setSinkClosed_acc : (s.setSinkClosed).acc = s.acc := rfl
@[simp] theorem State.setSinkClosed_nacc : (s.setSinkClosed).nacc = s.nacc := rfl
@[simp] theorem State.setSinkClosed_res : (s.setSinkClosed).res = s.res := rfl
@[simp] theorem State.setSinkClosed_phase : (s.setSinkClosed).phase = s.phase := rfl
@[simp] theorem State.setSinkClosed_err : (s.setSinkClosed).err = s.err := rfl
@[simp] theorem State.setSinkClosed_level : (s.setSinkClosed).level = s.level := rfl
@[simp] theorem State.setSinkClosed_leaveOpen : (s.setSinkClosed).leaveOpen = s.leaveOpen := rfl
@[simp] theorem State.setSinkClosed_sinkClosed : (s.setSinkClosed).sinkClosed = true := rfl
@[simp] theorem State.setSinkClosed_sinkOut : (s.setSinkClosed).sinkOut = s.sinkOut := rfl
@[simp] theorem State.setSinkClosed_sinkCloses : (s.setSinkClosed).sinkCloses = s.sinkCloses := rfl
@[simp] theorem State.setSinkClosed_sinkAnswers : (s.setSinkClosed).sinkAnswers = s.sinkAnswers := rfl
@[simp] theorem State.setSinkClosed_sinkCalls : (s.setSinkClosed).sinkCalls = s.sinkCalls := rfl
@[simp] theorem State.setSinkClosed_program : (s.setSinkClosed).program = s.program := rfl
@[simp] theorem State.setSinkClosed_pos : (s.setSinkClosed).pos = s.pos := rfl

end

section
variable (s : State) (b : Byte)

@[simp] theorem State.appendOut_r : (s.appendOut b).r = s.r := rfl
@[simp] theorem State.appendOut_c : (s.appendOut b).c = s.c := rfl
@[simp] theorem State.appendOut_acc : (s.appendOut b).acc = s.acc := rfl
@[simp] theorem State.appendOut_nacc : (s.appendOut b).nacc = s.nacc := rfl
@[simp] theorem State.appendOut_res : (s.appendOut b).res = s.res := rfl
@[simp] theorem State.appendOut_phase : (s.appendOut b).phase = s.phase := rfl
@[simp] theorem State.appendOut_err : (s.appendOut b).err = s.err := rfl
@[simp] theorem State.appendOut_level : (s.appendOut b).level = s.level := rfl
@[simp] theorem State.appendOut_leaveOpen : (s.appendOut b).leaveOpen = s.leaveOpen := rfl
@[simp] theorem State.appendOut_sinkClosed : (s.appendOut b).sinkClosed = s.sinkClosed := rfl
@[simp] theorem State.appendOut_sinkOut : (s.appendOut b).sinkOut = s.sinkOut ++ [b] := rfl
@[simp] theorem State.appendOut_sinkCloses : (s.appendOut b).sinkCloses = s.sinkCloses := rfl
@[simp] theorem State.appendOut_sinkAnswers : (s.appendOut b).sinkAnswers = s.sinkAnswers := rfl
@[simp] theorem State.appendOut_sinkCalls : (s.appendOut b).sinkCalls = s.sinkCalls := rfl
@[simp] theorem State.appendOut_program : (s.appendOut b).program = s.program := rfl
@[simp] theorem State.appendOut_pos : (s.appendOut b).pos = s.pos := rfl

end

section
variable (s : State) (a : SinkAnswer)

@[simp] theorem State.appendClose_r : (s.appendClose a).r = s.r := rfl
@[simp] theorem State.appendClose_c : (s.appendClose a).c = s.c := rfl
@[simp] theorem State.appendClose_acc : (s.appendClose a).acc = s.acc := rfl
@[simp] theorem State.appendClose_nacc : (s.appendClose a).nacc = s.nacc := rfl
@[simp] theorem State.appendClose_res : (s.appendClose a).res = s.res := rfl
@[simp] theorem State.appendClose_phase : (s.appendClose a).phase = s.phase := rfl
@[simp] theorem State.appendClose_err : (s.appendClose a).err = s.err := rfl
@[simp] theorem State.appendClose_level : (s.appendClose a).level = s.level := rfl
@[simp] theorem State.appendClose_leaveOpen : (s.appendClose a).leaveOpen = s.leaveOpen := rfl
@[simp] theorem State.appendClose_sinkClosed : (s.appendClose a).sinkClosed = s.sinkClosed := rfl
@[simp] theorem State.appendClose_sinkOut : (s.appendClose a).sinkOut = s.sinkOut := rfl
@[simp] theorem State.appendClose_sinkCloses : (s.appendClose a).sinkCloses = s.sinkCloses ++ [a] := rfl
@[simp] theorem State.appendClose_sinkAnswers : (s.appendClose a).sinkAnswers = s.sinkAnswers := rfl
@[simp] theorem State.appendClose_sinkCalls : (s.appendClose a).sinkCalls = s.sinkCalls := rfl
@[simp] theorem State.appendClose_program : (s.appendClose a).program = s.program := rfl
@[simp] theorem State.appendClose_pos : (s.appendClose a).pos = s.pos := rfl

end

section
variable (s : State)

@[simp] theorem State.tickAnswer_r : (s.tickAnswer).r = s.r := rfl
@[simp] theorem State.tickAnswer_c : (s.tickAnswer).c = s.c := rfl
@[simp] theorem State.tickAnswer_acc : (s.tickAnswer).acc = s.acc := rfl
@[simp] theorem State.tickAnswer_nacc : (s.tickAnswer).nacc = s.nacc := rfl
@[simp] theorem State.tickAnswer_res : (s.tickAnswer).res = s.res := rfl
@[simp] theorem State.tickAnswer_phase : (s.tickAnswer).phase = s.phase := rfl
@[simp] theorem State.tickAnswer_err : (s.tickAnswer).err = s.err := rfl
@[simp] theorem State.tickAnswer_level : (s.tickAnswer).level = s.level := rfl
@[simp] theorem State.tickAnswer_leaveOpen : (s.tickAnswer).leaveOpen = s.leaveOpen := rfl
@[simp] theorem State.tickAnswer_sinkClosed : (s.tickAnswer).sinkClosed = s.sinkClosed := rfl
@[simp] theorem State.tickAnswer_sinkOut : (s.tickAnswer).sinkOut = s.sinkOut := rfl
@[simp] theorem State.tickAnswer_sinkCloses : (s.tickAnswer).sinkCloses = s.sinkCloses := rfl
@[simp] theorem State.tickAnswer_sinkAnswers : (s.tickAnswer).sinkAnswers = s.sinkAnswers.tail := rfl
@[simp] theorem State.tickAnswer_sinkCalls : (s.tickAnswer).sinkCalls = s.sinkCalls + 1 := rfl
@[simp] theorem State.tickAnswer_program : (s.tickAnswer).program = s.program := rfl
@[simp] theorem State.tickAnswer_pos : (s.tickAnswer).pos = s.pos := rfl

end

section
variable (s : State) (n : Nat)

@[simp] theorem State.setPos_r : (s.setPos n).r = s.r := rfl
@[simp] theorem State.setPos_c : (s.setPos n).c = s.c := rfl
@[simp] theorem State.setPos_acc : (s.setPos n).acc = s.acc := rfl
@[simp] theorem State.setPos_nacc : (s.setPos n).nacc = s.nacc := rfl
@[simp] theorem State.setPos_res : (s.setPos n).res = s.res := rfl
@[simp] theorem State.setPos_phase : (s.setPos n).phase = s.phase := rfl
@[simp] theorem State.setPos_err : (s.setPos n).err = s.err := rfl
@[simp] theorem State.setPos_level : (s.setPos n).level = s.level := rfl
@[simp] theorem State.setPos_leaveOpen : (s.setPos n).leaveOpen = s.leaveOpen := rfl
@[simp] theorem State.setPos_sinkClosed : (s.setPos n).sinkClosed = s.sinkClosed := rfl
@[simp] theorem State.setPos_sinkOut : (s.setPos n).sinkOut = s.sinkOut := rfl
@[simp] theorem State.setPos_sinkCloses : (s.setPos n).sinkCloses = s.sinkCloses := rfl
@[simp] theorem State.setPos_sinkAnswers : (s.setPos n).sinkAnswers = s.sinkAnswers := rfl
@[simp] theorem State.setPos_sinkCalls : (s.setPos n).sinkCalls = s.sinkCalls := rfl
@[simp] theorem State.setPos_program : (s.setPos n).program = s.program := rfl
@[simp] theorem State.setPos_pos : (s.setPos n).pos = n := rfl

end

/-- Two states with the same fields are the same state. -/
theorem State.eq_of_fields {s t : State}
    (hr : s.r = t.r)
    (hc : s.c = t.c)
    (hacc : s.acc = t.acc)
    (hnacc : s.nacc = t.nacc)
    (hres : s.res = t.res)
    (hphase : s.phase = t.phase)
    (herr : s.err = t.err)
    (hlevel : s.level = t.level)
    (hleaveOpen : s.leaveOpen = t.leaveOpen)
    (hsinkClosed : s.sinkClosed = t.sinkClosed)
    (hsinkOut : s.sinkOut = t.sinkOut)
    (hsinkCloses : s.sinkCloses = t.sinkCloses)
    (hsinkAnswers : s.sinkAnswers = t.sinkAnswers)
    (hsinkCalls : s.sinkCalls = t.sinkCalls)
    (hprogram : s.program = t.program)
    (hpos : s.pos = t.pos) :
    s = t := by
  cases s; cases t; simp_all

end Sys2Proof.Machine
end

