-- ==== Sys2Proof/Laws/Sink.lean ====
section
/-! SUPPORT. What the sink calls and `Drain()` do (20_memory.md R51, R53; 41_bitwriter.md R131; 60_exceptions.md R184):
one lemma for each outcome, which later proofs cite instead of unfolding the loop. -/

namespace Sys2Proof.Machine

/-! ### The answers laid down -/

theorem nextAnswer_eq (s : State) : nextAnswer s = answerAt s 0 := by
  cases h : s.sinkAnswers <;> simp [nextAnswer, answerAt, h]

theorem consumeAnswers_zero (s : State) : consumeAnswers 0 s = s := rfl

theorem tickAnswer_eq (s : State) : s.tickAnswer = consumeAnswers 1 s := by
  simp [State.tickAnswer, consumeAnswers]

theorem consumeAnswers_add (j k : Nat) (s : State) :
    consumeAnswers k (consumeAnswers j s) = consumeAnswers (j + k) s := by
  simp [consumeAnswers, Nat.add_assoc]

theorem answerAt_consume (j k : Nat) (s : State) : answerAt (consumeAnswers k s) j = answerAt s (k + j) := by
  simp [answerAt, consumeAnswers, List.getD_eq_getElem?_getD, Nat.add_assoc]

/-- Two states with the same coming answers answer alike. -/
theorem answerAt_congr {s t : State} (ha : t.sinkAnswers = s.sinkAnswers) (hc : t.sinkCalls = s.sinkCalls) (j : Nat) :
    answerAt t j = answerAt s j := by
  simp [answerAt, ha, hc]

theorem answersOk_mono {s : State} {j k : Nat} (hjk : j ≤ k) (h : answersOk s k) : answersOk s j :=
  fun i hi => h i (by omega)

/-- Of the next `k` answers either all are `ok`, or there is a first `fail`. -/
theorem answersOk_or_fail (s : State) (k : Nat) :
    answersOk s k ∨ ∃ j, j < k ∧ answersOk s j ∧ answerAt s j = .fail := by
  induction k with
  | zero => exact .inl fun j hj => absurd hj (by omega)
  | succ k ih =>
    rcases ih with h | ⟨j, hj, h⟩
    · cases ha : answerAt s k with
      | ok =>
        refine .inl fun j hj => ?_
        rcases Nat.lt_succ_iff_lt_or_eq.mp hj with hj | rfl
        · exact h j hj
        · exact ha
      | fail => exact .inr ⟨k, by omega, h, ha⟩
    · exact .inr ⟨j, by omega, h⟩

/-! ### One write -/

theorem sinkWrite_ok {s : State} (b : Byte) (h : answerAt s 0 = .ok) :
    sinkWrite b s = .going ((consumeAnswers 1 s).appendOut b) := by
  simp [sinkWrite, nextAnswer_eq, h, tickAnswer_eq]

theorem sinkWrite_fail {s : State} (b : Byte) (h : answerAt s 0 = .fail) :
    sinkWrite b s = .ended (raiseError .underlyingIO (consumeAnswers 1 s)) := by
  simp [sinkWrite, nextAnswer_eq, h, tickAnswer_eq]

/-! ### The bytes written by a drain -/

theorem firstBytes_zero (acc : Word) : firstBytes 0 acc = [] := rfl

theorem length_firstBytes (k : Nat) (acc : Word) : (firstBytes k acc).length = k := by simp [firstBytes]

theorem firstBytes_succ (k : Nat) (acc : Word) (hk : k ≤ 3) :
    firstBytes (k + 1) acc = acc.extractLsb' 24 8 :: firstBytes k (acc <<< 8) := by
  simp only [firstBytes, List.range_succ_eq_map, List.map_cons, List.map_map, Nat.mul_zero, Nat.sub_zero,
    List.cons.injEq, true_and]
  refine List.map_congr_left fun j hj => ?_
  have hj : j < k := List.mem_range.mp hj
  refine BitVec.eq_of_getLsbD_eq fun i hi => ?_
  have h1 : 24 - 8 * (j + 1) + i = 24 - 8 * j + i - 8 := by omega
  have h2 : ¬ 24 - 8 * j + i < 8 := by omega
  have h3 : 24 - 8 * j + i < 32 := by omega
  simp only [Function.comp, BitVec.getLsbD_extractLsb', BitVec.getLsbD_shiftLeft, hi, h1, h2, h3, decide_true,
    decide_false, Bool.not_false, Bool.true_and]

theorem toNat_sub_bytes (n : BitVec 5) (k : Nat) (h : 8 * k ≤ n.toNat) :
    (n - BitVec.ofNat 5 (8 * k)).toNat = n.toNat - 8 * k := by
  have := n.isLt
  rw [BitVec.toNat_sub, BitVec.toNat_ofNat]
  omega

theorem written_zero (s : State) : written 0 s = s := by
  simp [written, consumeAnswers, firstBytes]

theorem written_nacc (k : Nat) (s : State) (h : 8 * k ≤ s.nacc.toNat) :
    (written k s).nacc.toNat = s.nacc.toNat - 8 * k := toNat_sub_bytes _ _ h

/-- Writing `k + 1` bytes is writing one, then `k`. -/
theorem written_succ (k : Nat) (s : State) (h : 8 * (k + 1) ≤ s.nacc.toNat) :
    written (k + 1) s = written k (written 1 s) := by
  have hn := s.nacc.isLt
  have hk : k ≤ 3 := by omega
  refine State.eq_of_fields rfl rfl ?_ ?_ rfl rfl rfl rfl rfl rfl ?_ rfl ?_ ?_ rfl rfl
  · simp [written, consumeAnswers, ← BitVec.shiftLeft_add, Nat.mul_add, Nat.add_comm]
  · apply BitVec.eq_of_toNat_eq
    have h1 : 8 * k ≤ (written 1 s).nacc.toNat := by rw [written_nacc 1 s (by omega)]; omega
    rw [written_nacc _ _ h, written_nacc k _ h1, written_nacc 1 s (by omega)]
    omega
  · simp [written, consumeAnswers, firstBytes_succ k _ hk, firstBytes_succ 0 s.acc (by omega), firstBytes_zero]
  · simp [written, consumeAnswers, Nat.add_comm]
  · simp [written, consumeAnswers]
    omega

/-! ### The drain -/

theorem drainLoop_ok (k : Nat) (s : State) (hk : s.nacc.toNat / 8 ≤ k) (h : answersOk s (s.nacc.toNat / 8)) :
    drainLoop k s = .going (written (s.nacc.toNat / 8) s) := by
  induction k generalizing s with
  | zero => rw [Nat.le_zero.mp hk, written_zero]; rfl
  | succ k ih =>
    unfold drainLoop
    split
    · rename_i h8
      obtain ⟨m, hm⟩ : ∃ m, s.nacc.toNat / 8 = m + 1 := ⟨s.nacc.toNat / 8 - 1, by omega⟩
      have hw := written_nacc 1 s (by omega)
      have hm' : (written 1 s).nacc.toNat / 8 = m := by omega
      have := ih (written 1 s) (by omega) (fun j hj => by
        have := h (1 + j) (by omega)
        rwa [← answerAt_consume] at this)
      rw [sinkWrite_ok _ (h 0 (by omega))]
      rw [hm, written_succ m s (by omega), ← hm', ← this]
      rfl
    · rw [show s.nacc.toNat / 8 = 0 by omega, written_zero]

theorem drainLoop_fail (k : Nat) (s : State) (j : Nat) (hk : s.nacc.toNat / 8 ≤ k) (hj : j < s.nacc.toNat / 8)
    (h : answersOk s j) (hf : answerAt s j = .fail) :
    drainLoop k s = .ended (raiseError .underlyingIO (consumeAnswers 1 (written j s))) := by
  induction k generalizing s j with
  | zero => omega
  | succ k ih =>
    unfold drainLoop
    rw [if_pos (by omega)]
    cases j with
    | zero => rw [sinkWrite_fail _ hf, written_zero]; rfl
    | succ j =>
      have hw := written_nacc 1 s (by omega)
      have := ih (written 1 s) j (by omega) (by omega)
        (fun i hi => by
          have := h (1 + i) (by omega)
          rwa [← answerAt_consume] at this)
        (by
          have := hf
          rwa [Nat.add_comm, ← answerAt_consume] at this)
      rw [sinkWrite_ok _ (h 0 (by omega)), written_succ j s (by omega), ← this]
      rfl

theorem drain_ok {s : State} (h : answersOk s (s.nacc.toNat / 8)) :
    drain s = .going (written (s.nacc.toNat / 8) s) :=
  drainLoop_ok 3 s (by have := s.nacc.isLt; omega) h

theorem drain_fail {s : State} {j : Nat} (hj : j < s.nacc.toNat / 8) (h : answersOk s j)
    (hf : answerAt s j = .fail) :
    drain s = .ended (raiseError .underlyingIO (consumeAnswers 1 (written j s))) :=
  drainLoop_fail 3 s j (by have := s.nacc.isLt; omega) hj h hf

/-- Everything a drain can do: all complete bytes written, or the first refused byte ends the command. -/
theorem drain_cases (s : State) :
    (answersOk s (s.nacc.toNat / 8) ∧ drain s = .going (written (s.nacc.toNat / 8) s)) ∨
      ∃ j, j < s.nacc.toNat / 8 ∧ answersOk s j ∧ answerAt s j = .fail ∧
        drain s = .ended (raiseError .underlyingIO (consumeAnswers 1 (written j s))) := by
  rcases answersOk_or_fail s (s.nacc.toNat / 8) with h | ⟨j, hj, h, hf⟩
  · exact .inl ⟨h, drain_ok h⟩
  · exact .inr ⟨j, hj, h, hf, drain_fail hj h hf⟩

end Sys2Proof.Machine
end

