-- ==== Sys2Proof/Laws/Bits.lean ====
section
/-! SUPPORT. The output as a sequence of bits (20_memory.md R54, R55; 41_bitwriter.md R134, R135): a drain moves bits from
the accumulator to the sink and changes none, an append adds the bits of the field and nothing else. -/

namespace Sys2Proof.Machine

/-- `ACC` is clean when every bit below the pending ones is zero (R25). -/
theorem accClean_iff (s : State) :
    AccClean s ↔ ∀ i, i < 32 - s.nacc.toNat → s.acc.getLsbD i = false := by
  have hn := s.nacc.isLt
  constructor
  · intro h i hi
    have := congrArg (fun v => v.getLsbD (i + s.nacc.toNat)) h
    simp only [BitVec.getLsbD_shiftLeft, BitVec.ofNat_eq_ofNat, BitVec.getLsbD_zero] at this
    simpa [show i + s.nacc.toNat < 32 by omega] using this
  · intro h
    refine BitVec.eq_of_getLsbD_eq fun i hi => ?_
    simp only [BitVec.getLsbD_shiftLeft, BitVec.ofNat_eq_ofNat, BitVec.getLsbD_zero]
    by_cases hi' : i < s.nacc.toNat
    · simp [hi']
    · rw [h (i - s.nacc.toNat) (by omega)]
      simp

theorem acc_zero_of_clean {s : State} (h : AccClean s) (hn : s.nacc = 0) : s.acc = 0 := by
  simpa [AccClean, hn] using h

/-! ### Lists of bits -/

theorem length_bitsOf {w : Nat} (n : Nat) (v : BitVec w) : (bitsOf n v).length = n := by simp [bitsOf]

theorem length_pendingBits (s : State) : (pendingBits s).length = s.nacc.toNat := by simp [pendingBits]

theorem bytesBits_append (a b : List Byte) : bytesBits (a ++ b) = bytesBits a ++ bytesBits b := by
  simp [bytesBits]

theorem length_bytesBits (bs : List Byte) : (bytesBits bs).length = 8 * bs.length := by
  induction bs with
  | nil => rfl
  | cons b bs ih =>
    have : bytesBits (b :: bs) = bitsOf 8 b ++ bytesBits bs := rfl
    simp [this, length_bitsOf, ih]
    omega

theorem length_streamBits (s : State) : (streamBits s).length = 8 * s.sinkOut.length + s.nacc.toNat := by
  simp [streamBits, length_bytesBits, length_pendingBits]

/-- The bits of a field are those of its top part, then those of the rest. -/
theorem bitsOf_add {w : Nat} (m n : Nat) (v : BitVec w) : bitsOf (m + n) v = bitsOf m (v >>> n) ++ bitsOf n v := by
  simp only [bitsOf, List.range_add, List.map_append, List.map_map, BitVec.getLsbD_ushiftRight]
  congr 1
  · refine List.map_congr_left fun i hi => ?_
    have := List.mem_range.mp hi
    rw [show m + n - 1 - i = n + (m - 1 - i) by omega]
  · refine List.map_congr_left fun i hi => ?_
    have := List.mem_range.mp hi
    simp only [Function.comp]
    rw [show m + n - 1 - (m + i) = n - 1 - i by omega]

/-- The bits of a field depend on its low bits only. -/
theorem bitsOf_congr {w w' : Nat} {n : Nat} {v : BitVec w} {v' : BitVec w'}
    (h : ∀ i, i < n → v.getLsbD i = v'.getLsbD i) : bitsOf n v = bitsOf n v' := by
  refine List.map_congr_left fun i hi => ?_
  have := List.mem_range.mp hi
  exact h _ (by omega)

/-! ### A drain changes no bit -/

theorem bytesBits_firstBytes (k : Nat) (acc : Word) (hk : k ≤ 4) :
    bytesBits (firstBytes k acc) = (List.range (8 * k)).map fun i => acc.getLsbD (31 - i) := by
  induction k with
  | zero => rfl
  | succ k ih =>
    have hf : firstBytes (k + 1) acc = firstBytes k acc ++ [acc.extractLsb' (24 - 8 * k) 8] := by
      simp [firstBytes, List.range_succ]
    rw [hf, bytesBits_append, ih (by omega), Nat.mul_succ, List.range_add, List.map_append, List.map_map]
    congr 1
    have : bytesBits [acc.extractLsb' (24 - 8 * k) 8] = bitsOf 8 (acc.extractLsb' (24 - 8 * k) 8) := by
      simp [bytesBits]
    rw [this, bitsOf]
    refine List.map_congr_left fun i hi => ?_
    have hi := List.mem_range.mp hi
    simp only [Function.comp, BitVec.getLsbD_extractLsb']
    rw [show 24 - 8 * k + (8 - 1 - i) = 31 - (8 * k + i) by omega]
    simp [show 8 - 1 - i < 8 by omega]

theorem pendingBits_written (k : Nat) (s : State) (hk : 8 * k ≤ s.nacc.toNat) :
    bytesBits (firstBytes k s.acc) ++ pendingBits (written k s) = pendingBits s := by
  have hn := s.nacc.isLt
  rw [bytesBits_firstBytes k s.acc (by omega)]
  have h : pendingBits s = (List.range (8 * k + (s.nacc.toNat - 8 * k))).map fun i => s.acc.getLsbD (31 - i) := by
    rw [pendingBits]; congr 2; omega
  rw [h, List.range_add, List.map_append, List.map_map, pendingBits, written_nacc k s hk]
  congr 1
  refine List.map_congr_left fun i hi => ?_
  have hi := List.mem_range.mp hi
  have h1 : (written k s).acc = s.acc <<< (8 * k) := rfl
  simp only [Function.comp, h1, BitVec.getLsbD_shiftLeft]
  rw [show 31 - i - 8 * k = 31 - (8 * k + i) by omega]
  simp [show 31 - i < 32 by omega, show ¬ 31 - i < 8 * k by omega]

theorem streamBits_written (k : Nat) (s : State) (hk : 8 * k ≤ s.nacc.toNat) :
    streamBits (written k s) = streamBits s := by
  have h : (written k s).sinkOut = s.sinkOut ++ firstBytes k s.acc := rfl
  rw [streamBits, h, bytesBits_append, List.append_assoc, pendingBits_written k s hk, streamBits]

theorem accClean_written {k : Nat} {s : State} (hk : 8 * k ≤ s.nacc.toNat) (h : AccClean s) :
    AccClean (written k s) := by
  rw [accClean_iff] at h ⊢
  intro i hi
  rw [written_nacc k s hk] at hi
  have h1 : (written k s).acc = s.acc <<< (8 * k) := rfl
  rw [h1, BitVec.getLsbD_shiftLeft]
  by_cases hi' : i < 8 * k
  · simp [hi']
  · rw [h (i - 8 * k) (by omega)]
    simp

/-! ### An append adds the field's bits -/

/-- The state after the append of `Put(n, v)` to drained bits (R132). -/
def appended (n : Nat) (v : Word) (s : State) : State :=
  s.setPending (s.acc ||| (lowBits n v <<< (32 - s.nacc.toNat - n))) (s.nacc + BitVec.ofNat 5 n)

theorem getLsbD_lowBits (n : Nat) (v : Word) (i : Nat) :
    (lowBits n v).getLsbD i = (decide (i < n) && v.getLsbD i) := by
  simp only [lowBits, BitVec.getLsbD_setWidth]
  by_cases h : i < 32
  · simp [h]
  · simp [BitVec.getLsbD_of_ge v i (by omega)]

theorem appended_nacc {n : Nat} {v : Word} {s : State} (hs : s.nacc.toNat ≤ 7) (hn : n ≤ 24) :
    (appended n v s).nacc.toNat = s.nacc.toNat + n := by
  simp only [appended, State.setPending_nacc, BitVec.toNat_add, BitVec.toNat_ofNat]
  omega

theorem pendingBits_appended {n : Nat} {v : Word} {s : State} (hs : s.nacc.toNat ≤ 7) (hn : n ≤ 24)
    (h : AccClean s) : pendingBits (appended n v s) = pendingBits s ++ bitsOf n v := by
  rw [accClean_iff] at h
  rw [pendingBits, appended_nacc hs hn, List.range_add, List.map_append, List.map_map, pendingBits, bitsOf]
  congr 1
  · refine List.map_congr_left fun i hi => ?_
    have hi := List.mem_range.mp hi
    simp only [appended, State.setPending_acc, BitVec.getLsbD_or, BitVec.getLsbD_shiftLeft, getLsbD_lowBits]
    simp [show ¬ 31 - i - (32 - s.nacc.toNat - n) < n by omega]
  · refine List.map_congr_left fun i hi => ?_
    have hi := List.mem_range.mp hi
    simp only [Function.comp, appended, State.setPending_acc, BitVec.getLsbD_or, BitVec.getLsbD_shiftLeft,
      getLsbD_lowBits]
    rw [h (31 - (s.nacc.toNat + i)) (by omega)]
    rw [show 31 - (s.nacc.toNat + i) - (32 - s.nacc.toNat - n) = n - 1 - i by omega]
    simp [show 31 - (s.nacc.toNat + i) < 32 by omega,
      show ¬ 31 - (s.nacc.toNat + i) < 32 - s.nacc.toNat - n by omega, show n - 1 - i < n by omega]

theorem streamBits_appended {n : Nat} {v : Word} {s : State} (hs : s.nacc.toNat ≤ 7) (hn : n ≤ 24)
    (h : AccClean s) : streamBits (appended n v s) = streamBits s ++ bitsOf n v := by
  rw [streamBits, pendingBits_appended hs hn h, streamBits, List.append_assoc]
  rfl

theorem accClean_appended {n : Nat} {v : Word} {s : State} (hs : s.nacc.toNat ≤ 7) (hn : n ≤ 24)
    (h : AccClean s) : AccClean (appended n v s) := by
  rw [accClean_iff] at h ⊢
  intro i hi
  rw [appended_nacc hs hn] at hi
  simp only [appended, State.setPending_acc, BitVec.getLsbD_or, BitVec.getLsbD_shiftLeft, h i (by omega)]
  simp [show i < 32 - s.nacc.toNat - n by omega]

/-- An append of no bits changes nothing. -/
theorem appended_zero (v : Word) (s : State) : appended 0 v s = s := by
  refine State.eq_of_fields rfl rfl ?_ ?_ rfl rfl rfl rfl rfl rfl rfl rfl rfl rfl rfl rfl
  · simp only [appended, State.setPending_acc]
    have : lowBits 0 v = 0 := BitVec.eq_of_getLsbD_eq fun i _ => by simp [getLsbD_lowBits]
    simp [this]
  · simp [appended]

end Sys2Proof.Machine
end

