-- ==== Sys2Proof/Laws/Stream.lean ====
section
/-! SUPPORT. Everything the procedures `Put`, `Flush` and the framing bodies can do, said once (41_bitwriter.md R131 to
R135; 42_field_assembler.md R151, R154, R157; 60_exceptions.md R184): `Appends s bits m p` says of the progress `p` made
from `s` that it appends `bits`, or that the first `fail` of the sink ends it. -/

namespace Sys2Proof.Machine

/-- `t` is `s` after `k` answered sink calls that took the bytes `bs`, its accumulator apart. -/
def Wrote (s : State) (k : Nat) (bs : List Byte) (t : State) : Prop :=
  t = { consumeAnswers k s with acc := t.acc, nacc := t.nacc, sinkOut := s.sinkOut ++ bs }

/-- What a body of `Put` calls does from `s`: either it goes on, having appended `bits`, every call answered `ok` and one
byte taken for each; or the call after `k` good ones failed and the error was entered, a part `pre` of `bits` having been
appended. At a failure at most `m` of the bits had been appended before the drain: `8 (k + 1) ≤ NACC + m`. -/
def Appends (s : State) (bits : List Bool) (m : Nat) : Progress → Prop
  | .going t =>
    AccClean t ∧ streamBits t = streamBits s ++ bits ∧ ∃ k bs, bs.length = k ∧ answersOk s k ∧ Wrote s k bs t
  | .ended t =>
    ∃ k bs u pre, t = raiseError .underlyingIO u ∧ AccClean u ∧ pre <+: bits ∧ streamBits u = streamBits s ++ pre ∧
      bs.length = k ∧ answersOk s k ∧ answerAt s k = .fail ∧ Wrote s (k + 1) bs u ∧ 8 * (k + 1) ≤ s.nacc.toNat + m

theorem Wrote.answerAt {s t : State} {k : Nat} {bs : List Byte} (h : Wrote s k bs t) (j : Nat) :
    answerAt t j = answerAt s (k + j) := by
  rw [h]
  exact answerAt_consume j k s

theorem Wrote.sinkOut {s t : State} {k : Nat} {bs : List Byte} (h : Wrote s k bs t) :
    t.sinkOut = s.sinkOut ++ bs := by rw [h]

theorem Wrote.sinkAnswers {s t : State} {k : Nat} {bs : List Byte} (h : Wrote s k bs t) :
    t.sinkAnswers = s.sinkAnswers.drop k := by rw [h]; rfl

theorem Wrote.sinkCalls {s t : State} {k : Nat} {bs : List Byte} (h : Wrote s k bs t) :
    t.sinkCalls = s.sinkCalls + k := by rw [h]; rfl

theorem Wrote.trans {s t u : State} {j k : Nat} {as bs : List Byte} (h : Wrote s j as t) (h' : Wrote t k bs u) :
    Wrote s (j + k) (as ++ bs) u := by
  have ho := h.sinkOut
  unfold Wrote at h'
  rw [ho] at h'
  rw [h] at h'
  rw [Wrote, h']
  simp [consumeAnswers, Nat.add_assoc]

theorem answersOk_add {s t : State} {j k : Nat} {bs : List Byte} (hw : Wrote s j bs t) (h : answersOk s j)
    (h' : answersOk t k) : answersOk s (j + k) := fun i hi => by
  by_cases hij : i < j
  · exact h i hij
  · have := h' (i - j) (by omega)
    rwa [hw.answerAt, show j + (i - j) = i by omega] at this

/-- The count of bytes taken follows from the counts of bits. -/
theorem Wrote.count {s t : State} {k : Nat} {bs : List Byte} {bits : List Bool} (h : Wrote s k bs t)
    (hs : streamBits t = streamBits s ++ bits) : 8 * bs.length + t.nacc.toNat = s.nacc.toNat + bits.length := by
  have := congrArg List.length hs
  rw [List.length_append, length_streamBits, length_streamBits, h.sinkOut, List.length_append] at this
  omega

theorem Appends.mono {s : State} {bits : List Bool} {m m' : Nat} {p : Progress} (hm : m ≤ m')
    (h : Appends s bits m p) : Appends s bits m' p := by
  cases p with
  | going t => exact h
  | ended t =>
    obtain ⟨k, bs, u, pre, ht, hc, hp, hs, hb, ho, hf, hw, h8⟩ := h
    exact ⟨k, bs, u, pre, ht, hc, hp, hs, hb, ho, hf, hw, by omega⟩

/-- Two bodies in a row. -/
theorem Appends.andThen {s : State} {b1 b2 : List Bool} {m1 m2 : Nat} {p : Progress} {f : State → Progress}
    (h : Appends s b1 m1 p) (hf : ∀ t, p = .going t → AccClean t → Appends t b2 m2 (f t)) :
    Appends s (b1 ++ b2) (max m1 (b1.length + m2)) (p.andThen f) := by
  cases p with
  | ended t =>
    obtain ⟨k, bs, u, pre, ht, hc, hp, hs, hb, ho, hfail, hw, h8⟩ := h
    exact ⟨k, bs, u, pre, ht, hc, hp.trans (List.prefix_append _ _), hs, hb, ho, hfail, hw, by omega⟩
  | going t =>
    obtain ⟨hc, hs, k, bs, hb, ho, hw⟩ := h
    have h2 := hf t rfl hc
    have hcount := hw.count hs
    simp only [Progress.andThen]
    cases hp : f t with
    | going u =>
      rw [hp] at h2
      obtain ⟨hc', hs', k', bs', hb', ho', hw'⟩ := h2
      exact ⟨hc', by rw [hs', hs, List.append_assoc], k + k', bs ++ bs', by simp [hb, hb'],
        answersOk_add hw ho ho', hw.trans hw'⟩
    | ended u =>
      rw [hp] at h2
      obtain ⟨k', bs', v, pre, hu, hc', hp', hs', hb', ho', hfail, hw', h8⟩ := h2
      refine ⟨k + k', bs ++ bs', v, b1 ++ pre, hu, hc', (List.prefix_append_right_inj b1).mpr hp',
        by rw [hs', hs, List.append_assoc], by simp [hb, hb'], answersOk_add hw ho ho', ?_, ?_, by omega⟩
      · rw [← hw.answerAt]; exact hfail
      · have := hw.trans hw'
        rwa [← Nat.add_assoc] at this

/-- A body that appends nothing and makes no call. -/
theorem appends_nil {s : State} (h : AccClean s) (m : Nat) : Appends s [] m (.going s) :=
  ⟨h, by simp, 0, [], rfl, fun j hj => absurd hj (by omega), by simp [Wrote, consumeAnswers]⟩

theorem wrote_written (k : Nat) (s : State) : Wrote s k (firstBytes k s.acc) (written k s) := rfl

/-! ### `Put` -/

theorem drain_appends {s : State} (h : AccClean s) : Appends s [] 0 (drain s) := by
  rcases drain_cases s with ⟨ho, hd⟩ | ⟨j, hj, ho, hf, hd⟩
  · rw [hd]
    exact ⟨accClean_written (by omega) h, by simp [streamBits_written _ s (by omega : 8 * (s.nacc.toNat / 8) ≤ _)],
      _, _, length_firstBytes _ _, ho, wrote_written _ _⟩
  · rw [hd]
    refine ⟨j, firstBytes j s.acc, _, [], rfl, ?_, List.nil_prefix, ?_, length_firstBytes _ _, ho, hf, ?_, by omega⟩
    · exact accClean_written (by omega) h
    · rw [List.append_nil]
      exact streamBits_written j s (by omega)
    · simp [Wrote, consumeAnswers, written, Nat.add_assoc]

theorem drain_going_nacc {s t : State} (h : drain s = .going t) : t.nacc.toNat = s.nacc.toNat % 8 := by
  rcases drain_cases s with ⟨-, hd⟩ | ⟨j, -, -, -, hd⟩
  · rw [hd] at h
    injection h with h
    rw [← h, written_nacc _ _ (by omega)]
    omega
  · rw [hd] at h
    cases h

/-- `Put` without its case distinction: an append of no bits is none (R132). -/
theorem put_eq (n : Nat) (v : Word) (s : State) : put n v s = (drain s).andThen fun t => .going (appended n v t) := by
  have : (fun t : State => if 0 < n then Progress.going (appended n v t) else .going t) =
      fun t => .going (appended n v t) := by
    funext t
    split
    · rfl
    · rw [show n = 0 by omega, appended_zero]
  rw [← this]
  rfl

theorem put_ok {n : Nat} {v : Word} {s : State} (h : answersOk s (s.nacc.toNat / 8)) :
    put n v s = .going (appended n v (written (s.nacc.toNat / 8) s)) := by
  rw [put_eq, drain_ok h]
  rfl

theorem put_appends {n : Nat} {v : Word} {s : State} (hn : n ≤ 24) (h : AccClean s) :
    Appends s (bitsOf n v) 0 (put n v s) := by
  have := (drain_appends h).andThen (b2 := bitsOf n v) (m2 := 0) (f := fun t => .going (appended n v t))
    fun t ht hc => by
      have h7 : t.nacc.toNat ≤ 7 := by have := drain_going_nacc ht; omega
      exact ⟨accClean_appended h7 hn hc, streamBits_appended h7 hn hc, 0, [], rfl,
        fun j hj => absurd hj (by omega), by simp [Wrote, consumeAnswers, appended, State.setPending]⟩
  rw [put_eq]
  exact this

theorem put_going_nacc {n : Nat} {v : Word} {s t : State} (hn : n ≤ 24) (h : put n v s = .going t) :
    t.nacc.toNat = s.nacc.toNat % 8 + n := by
  rw [put_eq] at h
  cases hd : drain s with
  | ended u => rw [hd] at h; cases h
  | going u =>
    rw [hd] at h
    injection h with h
    have := drain_going_nacc hd
    rw [← h, appended_nacc (by omega) hn, this]

/-- `Put(8, b)` for a list of bytes. -/
theorem putBytes_appends (bs : List Byte) {s : State} (h : AccClean s) :
    Appends s (bytesBits bs) (8 * (bs.length - 1)) (putBytes bs s) := by
  induction bs generalizing s with
  | nil => exact appends_nil h _
  | cons b bs ih =>
    have hb : bitsOf 8 (b.setWidth 32) = bitsOf 8 b := bitsOf_congr fun i hi => by
      simp only [BitVec.getLsbD_setWidth]
      simp [show i < 32 by omega]
    have h1 := put_appends (n := 8) (v := b.setWidth 32) (by omega) h
    rw [hb] at h1
    have hbits : bytesBits (b :: bs) = bitsOf 8 b ++ bytesBits bs := rfl
    rw [hbits]
    cases bs with
    | nil =>
      have := h1.andThen (f := putBytes []) (m2 := 0) fun t _ hc => appends_nil hc 0
      simp only [bytesBits, List.flatMap_nil, putBytes] at this ⊢
      cases hp : put 8 (b.setWidth 32) s with
      | going t => rw [hp] at this; exact this
      | ended t => rw [hp] at h1; simpa [Progress.andThen] using h1
    | cons c cs =>
      have := h1.andThen (f := putBytes (c :: cs)) fun t _ hc => ih hc
      refine Appends.mono ?_ this
      simp [length_bitsOf]
      omega

/-- After at least one `Put(8, ·)` between 8 and 15 bits are pending. -/
theorem putBytes_going_nacc {bs : List Byte} {s t : State} (hbs : bs ≠ []) (h : putBytes bs s = .going t) :
    8 ≤ t.nacc.toNat ∧ t.nacc.toNat ≤ 15 := by
  induction bs generalizing s with
  | nil => exact absurd rfl hbs
  | cons b bs ih =>
    rw [putBytes] at h
    cases hp : put 8 (b.setWidth 32) s with
    | ended u => rw [hp] at h; cases h
    | going u =>
      rw [hp] at h
      cases bs with
      | nil =>
        injection h with h
        have := put_going_nacc (by omega) hp
        rw [← h]
        omega
      | cons c cs => exact ih (by simp) h

/-! ### `Flush` -/

theorem topByte_written (k : Nat) (s : State) (hk : k ≤ 3) :
    topByte (written k s) = s.acc.extractLsb' (24 - 8 * k) 8 := by
  have h1 : (written k s).acc = s.acc <<< (8 * k) := rfl
  refine BitVec.eq_of_getLsbD_eq fun i hi => ?_
  simp only [topByte, h1, BitVec.getLsbD_extractLsb', BitVec.getLsbD_shiftLeft]
  rw [show 24 + i - 8 * k = 24 - 8 * k + i by omega]
  simp [show 24 + i < 32 by omega, show ¬ 24 + i < 8 * k by omega]

/-- The partial byte holds the pending bits and zeros (R133). -/
theorem bitsOf_topByte {s : State} (h7 : s.nacc.toNat ≤ 7) (h : AccClean s) :
    bitsOf 8 (topByte s) = pendingBits s ++ List.replicate (8 - s.nacc.toNat) false := by
  rw [accClean_iff] at h
  have h8 : bitsOf 8 (topByte s) =
      (List.range (s.nacc.toNat + (8 - s.nacc.toNat))).map fun i => (topByte s).getLsbD (8 - 1 - i) := by
    rw [bitsOf]; congr 2; omega
  rw [h8, List.range_add, List.map_append, List.map_map, pendingBits]
  congr 1
  · refine List.map_congr_left fun i hi => ?_
    have hi := List.mem_range.mp hi
    simp only [topByte, BitVec.getLsbD_extractLsb']
    rw [show 24 + (8 - 1 - i) = 31 - i by omega]
    simp [show 8 - 1 - i < 8 by omega]
  · refine List.eq_replicate_iff.mpr ⟨by simp, fun b hb => ?_⟩
    obtain ⟨i, hi, rfl⟩ := List.mem_map.mp hb
    have hi := List.mem_range.mp hi
    simp only [Function.comp, topByte, BitVec.getLsbD_extractLsb']
    rw [h _ (by omega)]
    simp

/-- The end of a flush, from drained bits. -/
def flushRest (s : State) : Progress :=
  if 0 < s.nacc.toNat then (sinkWrite (topByte s) s).andThen fun t => .going (t.setPending 0 0) else .going s

theorem flush_eq (s : State) : flush s = (drain s).andThen flushRest := rfl

theorem flushRest_appends {s : State} (h7 : s.nacc.toNat ≤ 7) (h : AccClean s) :
    Appends s (padBits s.nacc.toNat) 7 (flushRest s) := by
  unfold flushRest
  split
  · rename_i h0
    cases ha : answerAt s 0 with
    | ok =>
      rw [sinkWrite_ok _ ha]
      refine ⟨by simp [AccClean], ?_, 1, [topByte s], rfl, ?_, ?_⟩
      · have hp : padBits s.nacc.toNat = List.replicate (8 - s.nacc.toNat) false := by
          rw [padBits]; congr 1; omega
        have hb : bytesBits [topByte s] = bitsOf 8 (topByte s) := by simp [bytesBits]
        have he : pendingBits (((consumeAnswers 1 s).appendOut (topByte s)).setPending 0 0) = [] := rfl
        rw [hp, streamBits, he, streamBits, List.append_assoc, ← bitsOf_topByte h7 h, ← hb, List.append_nil]
        exact bytesBits_append _ _
      · intro j hj
        rw [show j = 0 by omega, ha]
      · rfl
    | fail =>
      rw [sinkWrite_fail _ ha]
      exact ⟨0, [], _, [], rfl, h, List.nil_prefix, by rw [List.append_nil]; rfl, rfl,
        fun j hj => absurd hj (by omega), ha, by simp [Wrote, consumeAnswers], by omega⟩
  · have h0 : s.nacc.toNat = 0 := by omega
    rw [h0]
    exact appends_nil h 7

theorem flush_appends {s : State} (h : AccClean s) : Appends s (padBits s.nacc.toNat) 7 (flush s) := by
  have := (drain_appends h).andThen (b2 := padBits s.nacc.toNat) (m2 := 7) (f := flushRest) fun t ht hc => by
    have hn := drain_going_nacc ht
    have := flushRest_appends (s := t) (by omega) hc
    rwa [hn, padBits, Nat.mod_mod] at this
  exact this

theorem flush_going_nacc {s t : State} (h : AccClean s) (hg : flush s = .going t) : t.nacc = 0 ∧ t.acc = 0 := by
  rw [flush_eq] at hg
  have hd := drain_appends h
  cases hp : drain s with
  | ended u => rw [hp] at hg; cases hg
  | going u =>
    rw [hp] at hg hd
    obtain ⟨hc, -⟩ := hd
    simp only [Progress.andThen, flushRest] at hg
    split at hg
    · cases hw : sinkWrite (topByte u) u with
      | ended v => rw [hw] at hg; cases hg
      | going v =>
        rw [hw] at hg
        injection hg with hg
        rw [← hg]
        exact ⟨rfl, rfl⟩
    · injection hg with hg
      have hn : u.nacc = 0 := BitVec.eq_of_toNat_eq (by simp; omega)
      rw [← hg]
      exact ⟨hn, acc_zero_of_clean hc hn⟩

end Sys2Proof.Machine
end

