-- ==== Sys2Proof/Laws/Commands.lean ====
section
/-! SUPPORT. Everything a command can do, said once: the order of its checks (60_exceptions.md R191), the error entry
(R186), and the framing bodies (42_field_assembler.md R151, R154, R157, R158). -/

namespace Sys2Proof.Machine

/-! ### The error entry -/

theorem raiseError_eq (e : ErrorKind) (s : State) : raiseError e s = failedWith e s := rfl

theorem raiseError_phase (e : ErrorKind) (s : State) : (raiseError e s).phase = .failed := rfl

theorem raiseError_err (e : ErrorKind) (s : State) :
    (raiseError e s).err = if s.err = none then some e else s.err := rfl

/-! ### The checks of a command -/

theorem commandResult_failed {legal : Phase → Bool} {oe : Option ErrorKind} {body : State → Progress} {s : State}
    (h : s.phase = .failed) : commandResult legal oe body s = s := by simp [commandResult, h]

theorem commandResult_illegal {legal : Phase → Bool} {oe : Option ErrorKind} {body : State → Progress} {s : State}
    (h : s.phase ≠ .failed) (hl : legal s.phase = false) :
    commandResult legal oe body s = raiseError .invalidState s := by simp [commandResult, h, hl]

theorem commandResult_operand {legal : Phase → Bool} {e : ErrorKind} {body : State → Progress} {s : State}
    (h : s.phase ≠ .failed) (hl : legal s.phase = true) :
    commandResult legal (some e) body s = raiseError e s := by simp [commandResult, h, hl]

theorem commandResult_body {legal : Phase → Bool} {body : State → Progress} {s : State}
    (h : s.phase ≠ .failed) (hl : legal s.phase = true) :
    commandResult legal none body s = (body s).state := by simp [commandResult, h, hl]

/-- Everything a command can do: it is ignored, an error is entered before any other effect, or its body runs. -/
theorem commandResult_cases (legal : Phase → Bool) (oe : Option ErrorKind) (body : State → Progress) (s : State) :
    (s.phase = .failed ∧ commandResult legal oe body s = s) ∨
      (s.phase ≠ .failed ∧ legal s.phase = false ∧ commandResult legal oe body s = raiseError .invalidState s) ∨
      (∃ e, s.phase ≠ .failed ∧ legal s.phase = true ∧ oe = some e ∧ commandResult legal oe body s = raiseError e s) ∨
      (s.phase ≠ .failed ∧ legal s.phase = true ∧ oe = none ∧
        commandResult legal oe body s = (body s).state) := by
  by_cases hf : s.phase = .failed
  · exact .inl ⟨hf, commandResult_failed hf⟩
  · cases hl : legal s.phase with
    | false => exact .inr (.inl ⟨hf, rfl, commandResult_illegal hf hl⟩)
    | true =>
      cases oe with
      | some e => exact .inr (.inr (.inl ⟨e, hf, rfl, rfl, commandResult_operand hf hl⟩))
      | none => exact .inr (.inr (.inr ⟨hf, rfl, rfl, commandResult_body hf hl⟩))

/-! ### The framing bodies -/

theorem bitsOf_flagValue (f : Bool) : bitsOf 1 (flagValue f) = [f] := by cases f <;> rfl

theorem bytesBits_wordBytes (k : Word) : bytesBits (wordBytes k) = bitsOf 32 k := by
  have h := bytesBits_firstBytes 4 k (by omega)
  have hf : firstBytes 4 k = wordBytes k := rfl
  rw [hf] at h
  rw [h, bitsOf]

theorem bytesBits_headerMark : bytesBits headerMark = bitsOf 24 0x425A68#24 := by decide

theorem bytesBits_blockMagic : bytesBits blockMagic = bitsOf 48 0x314159265359#48 := by decide

theorem bytesBits_trailerMagic : bytesBits trailerMagic = bitsOf 48 0x177245385090#48 := by decide

/-- A body that goes on has written `C`, `R` and the other registers as they were. -/
theorem Wrote.frame {s t : State} {k : Nat} {bs : List Byte} (h : Wrote s k bs t) :
    t.r = s.r ∧ t.c = s.c ∧ t.res = s.res ∧ t.phase = s.phase ∧ t.err = s.err ∧ t.level = s.level ∧
      t.leaveOpen = s.leaveOpen ∧ t.sinkClosed = s.sinkClosed ∧ t.sinkCloses = s.sinkCloses ∧
      t.program = s.program ∧ t.pos = s.pos := by
  rw [h]
  simp [consumeAnswers]

theorem Appends.wrote {s t : State} {bits : List Bool} {m : Nat} {p : Progress} (h : Appends s bits m p)
    (hp : p = .going t) : ∃ k bs, Wrote s k bs t := by
  subst hp
  obtain ⟨-, -, k, bs, -, -, hw⟩ := h
  exact ⟨k, bs, hw⟩

/-- The block header (R154, R155). -/
theorem putBlockHeader_appends {rand : Bool} {origPtr : Word} {s : State} (h : AccClean s) :
    Appends s (blockHeaderBits s.r rand origPtr) 81 (putBlockHeader rand origPtr s) := by
  have h1 := (putBytes_appends blockMagic h).andThen (b2 := bitsOf 32 (~~~ s.r) ++ ([rand] ++ bitsOf 24 origPtr))
    (m2 := 33)
    (f := fun s => (putBytes (wordBytes (~~~ s.r)) s).andThen fun s =>
      (put 1 (flagValue rand) s).andThen (put 24 origPtr)) fun t ht hc => by
        obtain ⟨k, bs, hw⟩ := (putBytes_appends blockMagic h).wrote ht
        rw [← hw.frame.1]
        have h2 := (putBytes_appends (wordBytes (~~~ t.r)) hc).andThen (b2 := [rand] ++ bitsOf 24 origPtr) (m2 := 1)
          (f := fun s => (put 1 (flagValue rand) s).andThen (put 24 origPtr)) fun u _ hu => by
            have h3 := (put_appends (n := 1) (v := flagValue rand) (by omega) hu).andThen (b2 := bitsOf 24 origPtr)
              (m2 := 0) (f := put 24 origPtr) fun v _ hv => put_appends (by omega) hv
            rw [bitsOf_flagValue] at h3
            exact h3.mono (by simp)
        rw [bytesBits_wordBytes] at h2
        exact h2.mono (by simp [length_bitsOf, wordBytes])
  rw [bytesBits_blockMagic] at h1
  rw [blockHeaderBits, List.append_assoc, List.append_assoc]
  exact h1.mono (by simp [length_bitsOf, blockMagic])

/-- The trailer up to the end of its flush (R157, R159). -/
def putTrailerFields (s : State) : Progress :=
  (putBytes trailerMagic s).andThen fun s => (putBytes (wordBytes s.c) s).andThen flush

theorem putTrailer_eq (s : State) :
    putTrailer s = (putTrailerFields s).andThen fun s => closeSink (s.setPhase .closed) := by
  unfold putTrailer putTrailerFields
  cases putBytes trailerMagic s with
  | ended t => rfl
  | going t =>
    simp only [Progress.andThen]
    cases putBytes (wordBytes t.c) t <;> rfl

theorem putTrailerFields_appends {s : State} (h : AccClean s) :
    Appends s (trailerBits s.c ++ padBits (s.nacc.toNat + 80)) 87 (putTrailerFields s) := by
  have h1 := (putBytes_appends trailerMagic h).andThen (b2 := bitsOf 32 s.c ++ padBits (s.nacc.toNat + 80)) (m2 := 39)
    (f := fun s => (putBytes (wordBytes s.c) s).andThen flush) fun t ht hc => by
      have hm := putBytes_appends trailerMagic h
      rw [ht] at hm
      obtain ⟨-, hs, k, bs, -, -, hw⟩ := hm
      have hcount := hw.count hs
      rw [← hw.frame.2.1]
      have h2 := (putBytes_appends (wordBytes t.c) hc).andThen (b2 := padBits (s.nacc.toNat + 80)) (m2 := 7)
        (f := flush) fun u hu hcu => by
          have hm := putBytes_appends (wordBytes t.c) hc
          rw [hu] at hm
          obtain ⟨-, hs', k', bs', -, -, hw'⟩ := hm
          have hcount' := hw'.count hs'
          have := flush_appends hcu
          have hmod : u.nacc.toNat % 8 = (s.nacc.toNat + 80) % 8 := by
            rw [length_bytesBits] at hcount hcount'
            simp [trailerMagic, wordBytes] at hcount hcount'
            omega
          rwa [padBits, hmod, ← padBits] at this
      rw [bytesBits_wordBytes] at h2
      exact h2.mono (by simp [length_bitsOf, wordBytes])
  rw [bytesBits_trailerMagic] at h1
  rw [trailerBits, List.append_assoc]
  exact h1.mono (by simp [length_bitsOf, trailerMagic])

/-- Everything the close can do (R158). -/
theorem closeSink_cases (s : State) :
    (s.leaveOpen = true ∧ closeSink s = .going s) ∨
      (s.leaveOpen = false ∧ answerAt s 0 = .ok ∧
        closeSink s = .going ((consumeAnswers 1 s.setSinkClosed).appendClose .ok)) ∨
      (s.leaveOpen = false ∧ answerAt s 0 = .fail ∧
        closeSink s = .ended (raiseError .underlyingIO ((consumeAnswers 1 s.setSinkClosed).appendClose .fail))) := by
  cases hl : s.leaveOpen with
  | true => exact .inl ⟨rfl, by simp [closeSink, hl]⟩
  | false =>
    cases ha : answerAt s 0 with
    | ok => exact .inr (.inl ⟨rfl, rfl, by simp [closeSink, hl, nextAnswer_eq, ha, tickAnswer_eq]⟩)
    | fail => exact .inr (.inr ⟨rfl, rfl, by simp [closeSink, hl, nextAnswer_eq, ha, tickAnswer_eq]⟩)

end Sys2Proof.Machine
end

