-- ==== Sys2Proof/Laws/Exec.lean ====
section
/-! SUPPORT. Every command in one shape: a phase check, an operand check and a body (60_exceptions.md R191). A proof about
all commands starts from `after_eq` and `commandResult_cases` instead of unfolding twelve meanings. -/

namespace Sys2Proof.Machine

/-- The phase check that the meaning of a command makes. -/
def legalOf : Instr → Phase → Bool
  | .bwPut _ _ | .bwFlush | .faBhdr _ _ | .faStrl => openOnly
  | .faShdr _ _ => idleOnly
  | .crcReset | .crcUpd _ | .crcUpdn _ _ | .crcRes | .crcComb _ _ | .crcFold | .crcRdc => anyPhase

/-- The body of a command, run when its checks pass. -/
def bodyOf : Instr → State → Progress
  | .crcReset => fun s => .going (s.setR allOnes)
  | .crcUpd byte => fun s => .going (s.setR (byteStep s.r byte))
  | .crcUpdn byte count => fun s => .going (s.setR (byteStepN count.toNat byte s.r))
  | .crcRes => fun s => .going (s.setRes (~~~ s.r))
  | .crcComb crc len => fun s => .going (s.setR (combine s.r crc len))
  | .crcFold => fun s => .going (s.setC (foldBlock s.c s.r))
  | .crcRdc => fun s => .going (s.setRes s.c)
  | .bwPut n value => put n.toNat value
  | .bwFlush => flush
  | .faShdr level leaveOpen =>
    fun s => putBytes (headerMark ++ [levelDigit level]) (openStream level leaveOpen s)
  | .faBhdr rand origPtr => putBlockHeader rand origPtr
  | .faStrl => putTrailer

theorem exec_eq_after (i : Instr) (s : State) : exec i s = .next (after i s) := by
  cases i <;> rfl

theorem exec_next_iff {i : Instr} {s t : State} : exec i s = .next t ↔ t = after i s := by
  rw [exec_eq_after]
  exact ⟨fun h => by injection h with h; exact h.symm, fun h => by rw [h]⟩

theorem after_eq (i : Instr) (s : State) :
    after i s = commandResult (legalOf i) (operandErrorOf i) (bodyOf i) s := by
  cases i <;> rfl

/-- Outside FAILED the meanings' phase checks are the table of the rules (R110, R130, R150). -/
theorem legalOf_eq (i : Instr) {p : Phase} (h : p ≠ .failed) : legalOf i p = phaseLegal i p := by
  cases i <;> cases p <;> first | rfl | exact absurd rfl h

theorem phaseLegal_failed (i : Instr) : phaseLegal i .failed = false := by cases i <;> rfl

theorem after_failed (i : Instr) {s : State} (h : s.phase = .failed) : after i s = s := by
  rw [after_eq, commandResult_failed h]

theorem after_invalid {i : Instr} {s : State} (h : s.phase ≠ .failed) (hl : phaseLegal i s.phase = false) :
    after i s = failedWith .invalidState s := by
  rw [after_eq, commandResult_illegal h ((legalOf_eq i h).trans hl)]
  rfl

theorem after_operand {i : Instr} {s : State} {e : ErrorKind} (hl : phaseLegal i s.phase = true)
    (he : operandErrorOf i = some e) : after i s = failedWith e s := by
  have h : s.phase ≠ .failed := fun h => by rw [h, phaseLegal_failed] at hl; cases hl
  rw [after_eq, he, commandResult_operand h ((legalOf_eq i h).trans hl)]
  rfl

theorem after_body {i : Instr} {s : State} (hl : phaseLegal i s.phase = true) (he : operandErrorOf i = none) :
    after i s = (bodyOf i s).state := by
  have h : s.phase ≠ .failed := fun h => by rw [h, phaseLegal_failed] at hl; cases hl
  rw [after_eq, he, commandResult_body h ((legalOf_eq i h).trans hl)]

/-- Everything a command can do, in the terms of the rules. -/
theorem after_cases (i : Instr) (s : State) :
    (s.phase = .failed ∧ after i s = s) ∨
      (s.phase ≠ .failed ∧ phaseLegal i s.phase = false ∧ after i s = failedWith .invalidState s) ∨
      (∃ e, phaseLegal i s.phase = true ∧ operandErrorOf i = some e ∧ after i s = failedWith e s) ∨
      (phaseLegal i s.phase = true ∧ operandErrorOf i = none ∧ after i s = (bodyOf i s).state) := by
  by_cases h : s.phase = .failed
  · exact .inl ⟨h, after_failed i h⟩
  · cases hl : phaseLegal i s.phase with
    | false => exact .inr (.inl ⟨h, rfl, after_invalid h hl⟩)
    | true =>
      cases he : operandErrorOf i with
      | some e => exact .inr (.inr (.inl ⟨e, rfl, rfl, after_operand hl he⟩))
      | none => exact .inr (.inr (.inr ⟨rfl, rfl, after_body hl he⟩))

end Sys2Proof.Machine
end

