-- ==== Sys2Proof/Laws/Calls.lean ====
section
/-! SUPPORT. What every body does in every state, its accumulator clean or not (20_memory.md R51, R53, R58;
60_exceptions.md R184): the sink calls are answered in order, the first `fail` ends the command, and nothing but the
accumulator and the sink changes. The frames of the stream commands follow from it. -/

namespace Sys2Proof.Machine

/-- The progress `p` made from `s` is a row of sink writes: all answered `ok`, a byte taken by each, or ended by the first
`fail`, whose byte is not taken. -/
def Calls (s : State) : Progress → Prop
  | .going t => ∃ k bs, bs.length = k ∧ answersOk s k ∧ Wrote s k bs t
  | .ended t =>
    ∃ k bs u, t = raiseError .underlyingIO u ∧ bs.length = k ∧ answersOk s k ∧ answerAt s k = .fail ∧
      Wrote s (k + 1) bs u

/-- A step that touches the accumulator only. -/
theorem calls_going {s t : State} (h : Wrote s 0 [] t) : Calls s (.going t) :=
  ⟨0, [], rfl, fun j hj => absurd hj (by omega), h⟩

theorem Calls.andThen {s : State} {p : Progress} {f : State → Progress} (h : Calls s p)
    (hf : ∀ t, Calls t (f t)) : Calls s (p.andThen f) := by
  cases p with
  | ended t => exact h
  | going t =>
    obtain ⟨k, bs, hb, ho, hw⟩ := h
    have h2 := hf t
    simp only [Progress.andThen]
    cases hp : f t with
    | going u =>
      rw [hp] at h2
      obtain ⟨k', bs', hb', ho', hw'⟩ := h2
      exact ⟨k + k', bs ++ bs', by simp [hb, hb'], answersOk_add hw ho ho', hw.trans hw'⟩
    | ended u =>
      rw [hp] at h2
      obtain ⟨k', bs', v, hu, hb', ho', hfail, hw'⟩ := h2
      exact ⟨k + k', bs ++ bs', v, hu, by simp [hb, hb'], answersOk_add hw ho ho', by rw [← hw.answerAt]; exact hfail, by
        have := hw.trans hw'
        rwa [← Nat.add_assoc] at this⟩

theorem drain_calls (s : State) : Calls s (drain s) := by
  rcases drain_cases s with ⟨ho, hd⟩ | ⟨j, -, ho, hf, hd⟩
  · rw [hd]
    exact ⟨_, _, length_firstBytes _ _, ho, wrote_written _ _⟩
  · rw [hd]
    exact ⟨j, firstBytes j s.acc, _, rfl, length_firstBytes _ _, ho, hf, by simp [Wrote, consumeAnswers, written, Nat.add_assoc]⟩

theorem put_calls (n : Nat) (v : Word) (s : State) : Calls s (put n v s) := by
  rw [put_eq]
  exact (drain_calls s).andThen fun t => calls_going (by simp [Wrote, consumeAnswers, appended, State.setPending])

theorem putBytes_calls (bs : List Byte) (s : State) : Calls s (putBytes bs s) := by
  induction bs generalizing s with
  | nil => exact calls_going (by simp [Wrote, consumeAnswers])
  | cons b bs ih => exact (put_calls 8 _ s).andThen ih

theorem flush_calls (s : State) : Calls s (flush s) := by
  rw [flush_eq]
  refine (drain_calls s).andThen fun t => ?_
  unfold flushRest
  split
  · cases ha : answerAt t 0 with
    | ok =>
      rw [sinkWrite_ok _ ha]
      exact ⟨1, [topByte t], rfl, fun j hj => by rw [show j = 0 by omega, ha], rfl⟩
    | fail =>
      rw [sinkWrite_fail _ ha]
      exact ⟨0, [], _, rfl, rfl, fun j hj => absurd hj (by omega), ha, by simp [Wrote, consumeAnswers]⟩
  · exact calls_going (by simp [Wrote, consumeAnswers])

theorem putBlockHeader_calls (rand : Bool) (origPtr : Word) (s : State) :
    Calls s (putBlockHeader rand origPtr s) :=
  (putBytes_calls _ s).andThen fun t => (putBytes_calls _ t).andThen fun u =>
    (put_calls _ _ u).andThen fun v => put_calls _ _ v

theorem putTrailerFields_calls (s : State) : Calls s (putTrailerFields s) :=
  (putBytes_calls _ s).andThen fun t => (putBytes_calls _ t).andThen fun u => flush_calls u

/-- The frame of a row of sink calls: the accumulator, the sink and, at a failure, `PHASE` and `ERR` apart, the state is
as it was. -/
theorem Calls.frame {s : State} {p : Progress} (h : Calls s p) :
    p.state = { s with
                acc := p.state.acc, nacc := p.state.nacc, phase := p.state.phase, err := p.state.err
                sinkOut := p.state.sinkOut, sinkAnswers := p.state.sinkAnswers, sinkCalls := p.state.sinkCalls } := by
  cases p with
  | going t =>
    obtain ⟨k, bs, -, -, hw⟩ := h
    simp only [Progress.state]
    rw [hw]
    rfl
  | ended t =>
    obtain ⟨k, bs, u, rfl, -, -, -, hw⟩ := h
    simp only [Progress.state]
    rw [hw]
    rfl

end Sys2Proof.Machine
end

