-- ==== Sys2Proof/Laws/Encode.lean ====
section
/-! SUPPORT. The fields of a packed word, and a word packed from its fields: what proofs about `decode` and `encode`
cite instead of counting bits. -/

namespace Sys2Proof

theorem getLsbD_packWord (op : Byte) (a b : Word) (i : Nat) :
    (packWord op a b).getLsbD i =
      if i < 32 then b.getLsbD i else if i < 64 then a.getLsbD (i - 32) else op.getLsbD (i - 64) := by
  simp only [packWord, BitVec.getLsbD_or, BitVec.getLsbD_shiftLeft, BitVec.getLsbD_setWidth]
  split
  · have : ¬ 64 ≤ i := by omega
    have : i < 72 := by omega
    simp [*]
  · split
    · have : i < 72 := by omega
      have h1 : b.getLsbD i = false := BitVec.getLsbD_of_ge _ _ (by omega)
      simp [*]; intros; omega
    · have h1 : b.getLsbD i = false := BitVec.getLsbD_of_ge _ _ (by omega)
      have h2 : a.getLsbD (i-32) = false := BitVec.getLsbD_of_ge _ _ (by omega)
      by_cases h : i < 72
      · simp [*]; intro _;  omega
      · have h3 : op.getLsbD (i-64) = false := BitVec.getLsbD_of_ge _ _ (by omega)
        simp [*]

theorem packWord_and (op op' : Byte) (a a' b b' : Word) :
    packWord op a b &&& packWord op' a' b' = packWord (op &&& op') (a &&& a') (b &&& b') := by
  refine BitVec.eq_of_getLsbD_eq fun i _ => ?_
  simp only [BitVec.getLsbD_and, getLsbD_packWord]
  split
  · rfl
  · split <;> rfl

theorem opField_packWord (op : Byte) (a b : Word) : opField (packWord op a b) = op := by
  apply BitVec.eq_of_getLsbD_eq
  intro i hi
  have h : ¬ 64 + i < 32 := by omega
  simp [opField, getLsbD_packWord, hi, h]

theorem aField_packWord (op : Byte) (a b : Word) : aField (packWord op a b) = a := by
  apply BitVec.eq_of_getLsbD_eq
  intro i hi
  have h : 32 + i < 64 := by omega
  simp [aField, getLsbD_packWord, hi, h]

theorem bField_packWord (op : Byte) (a b : Word) : bField (packWord op a b) = b := by
  apply BitVec.eq_of_getLsbD_eq
  intro i hi
  simp [bField, getLsbD_packWord, hi]

theorem packWord_fields (w : CmdWord) : packWord (opField w) (aField w) (bField w) = w := by
  apply BitVec.eq_of_getLsbD_eq
  intro i hi
  simp only [getLsbD_packWord, opField, aField, bField, BitVec.getLsbD_extractLsb']
  split
  · simp [*]
  · split
    · rw [show 32 + (i - 32) = i by omega]; simp; omega
    · rw [show 64 + (i - 64) = i by omega]; simp; omega

theorem byteOperand_setWidth (b : Byte) : byteOperand (b.setWidth 32) = b := by
  apply BitVec.eq_of_getLsbD_eq
  intro i hi
  simp [byteOperand, hi]
  omega

theorem flagOperand_flagField (f : Bool) : flagOperand (flagField f) = f := by
  cases f <;> rfl

theorem flagField_flagOperand (a : Word) (h : a.extractLsb' 1 31 = 0) : flagField (flagOperand a) = a := by
  apply BitVec.eq_of_getLsbD_eq
  intro i hi
  rcases i with _ | i
  · simp [flagField, flagOperand]
  · have := congrArg (fun v => v.getLsbD i) h
    simp only [BitVec.getLsbD_extractLsb', BitVec.ofNat_eq_ofNat, BitVec.getLsbD_zero, Bool.and_eq_false_imp, decide_eq_true_eq] at this
    have := this (by omega)
    rw [Nat.add_comm] at this
    simp [flagField, this]

theorem byteOperand_pad (b : Word) (h : b.extractLsb' 8 24 = 0) : (byteOperand b).setWidth 32 = b := by
  apply BitVec.eq_of_getLsbD_eq
  intro i hi
  by_cases h8 : i < 8
  · simp [byteOperand, h8, hi]
  · have := congrArg (fun v => v.getLsbD (i-8)) h
    simp only [BitVec.getLsbD_extractLsb', BitVec.ofNat_eq_ofNat, BitVec.getLsbD_zero, Bool.and_eq_false_imp, decide_eq_true_eq] at this
    have := this (by omega)
    rw [show 8 + (i-8) = i by omega] at this
    simp [byteOperand, this, h8]

theorem extract_setWidth_byte (b : Byte) : (b.setWidth 32 : Word).extractLsb' 8 24 = 0 := by
  apply BitVec.eq_of_getLsbD_eq
  intro i hi
  simp

theorem extract_flagField (b : Bool) : (flagField b).extractLsb' 1 31 = 0 := by cases b <;> rfl

theorem setWidth_byte_and (b : Byte) : (b.setWidth 32 &&& 0xFFFFFF00 : Word) = 0 := by
  revert b
  decide

theorem flagField_and (f : Bool) : flagField f &&& 0xFFFFFFFE = 0 := by cases f <;> rfl

end Sys2Proof
end

