-- ==== Sys2Proof/Laws/Failure.lean ====
section
/-! SUPPORT. Where a refused sink call leaves the accumulator (60_exceptions.md R184): how many bits have been appended when
the call after `k` others fails, said for each procedure by the counts alone. With `Appends` (which bits they are a prefix
of) this fixes `ACC` and `NACC` at the failing call. -/

namespace Sys2Proof.Machine

/-- Progress ended with the failing call after `k` others, `added` bits appended before it, every byte before it taken. -/
def EndedAt (s t : State) (k added : Nat) : Prop :=
  t.sinkCalls = s.sinkCalls + k + 1 ∧ t.nacc.toNat + 8 * k = s.nacc.toNat + added

/-- Progress went on after `k` calls, each taking a byte, `added` bits appended. -/
def WentOn (s t : State) (k added : Nat) : Prop :=
  t.sinkCalls = s.sinkCalls + k ∧ t.nacc.toNat + 8 * k = s.nacc.toNat + added

theorem WentOn.ended {s t u : State} {j k a b : Nat} (h : WentOn s t j a) (h' : EndedAt t u k b) :
    EndedAt s u (j + k) (a + b) := by
  obtain ⟨h1, h2⟩ := h
  obtain ⟨h3, h4⟩ := h'
  exact ⟨by omega, by omega⟩

theorem WentOn.trans {s t u : State} {j k a b : Nat} (h : WentOn s t j a) (h' : WentOn t u k b) :
    WentOn s u (j + k) (a + b) := by
  obtain ⟨h1, h2⟩ := h
  obtain ⟨h3, h4⟩ := h'
  exact ⟨by omega, by omega⟩

theorem drain_wentOn {s t : State} (h : drain s = .going t) : WentOn s t (s.nacc.toNat / 8) 0 := by
  have hn := drain_going_nacc h
  rcases drain_cases s with ⟨-, hd⟩ | ⟨j, -, -, -, hd⟩
  · rw [hd] at h
    injection h with h
    exact ⟨by rw [← h]; rfl, by omega⟩
  · rw [hd] at h
    cases h

theorem drain_ended {s t : State} (h : drain s = .ended t) : ∃ k, k < s.nacc.toNat / 8 ∧ EndedAt s t k 0 := by
  rcases drain_cases s with ⟨-, hd⟩ | ⟨j, hj, -, -, hd⟩
  · rw [hd] at h
    cases h
  · rw [hd] at h
    injection h with h
    refine ⟨j, hj, by rw [← h]; rfl, ?_⟩
    have : t.nacc.toNat = (written j s).nacc.toNat := by rw [← h]; rfl
    rw [this, written_nacc _ _ (by omega)]
    omega

theorem put_wentOn {n : Nat} {v : Word} {s t : State} (hn : n ≤ 24) (h : put n v s = .going t) :
    WentOn s t (s.nacc.toNat / 8) n := by
  have hg := put_going_nacc hn h
  rw [put_eq] at h
  cases hd : drain s with
  | ended u => rw [hd] at h; cases h
  | going u =>
    rw [hd] at h
    injection h with h
    exact ⟨by rw [← h]; exact (drain_wentOn hd).1, by omega⟩

/-- A `Put` that fails fails in its drain, before it appends. -/
theorem put_ended {n : Nat} {v : Word} {s t : State} (h : put n v s = .ended t) :
    ∃ k, k < s.nacc.toNat / 8 ∧ EndedAt s t k 0 := by
  rw [put_eq] at h
  cases hd : drain s with
  | going u => rw [hd] at h; cases h
  | ended u =>
    rw [hd] at h
    injection h with h
    rw [← h]
    exact drain_ended hd

/-- `Put(8, b)` for at least one byte: each after the first finds one complete byte to drain. -/
theorem putBytes_wentOn {bs : List Byte} {s t : State} (hbs : bs ≠ []) (h : putBytes bs s = .going t) :
    WentOn s t (s.nacc.toNat / 8 + (bs.length - 1)) (8 * bs.length) := by
  induction bs generalizing s with
  | nil => exact absurd rfl hbs
  | cons b bs ih =>
    rw [putBytes] at h
    cases hp : put 8 (b.setWidth 32) s with
    | ended u => rw [hp] at h; cases h
    | going u =>
      rw [hp] at h
      have h1 := put_wentOn (by omega) hp
      cases bs with
      | nil =>
        injection h with h
        rw [← h]
        exact h1
      | cons c cs =>
        have h2 := ih (by simp) h
        have hn := put_going_nacc (by omega) hp
        have := h1.trans h2
        simp only [List.length_cons] at this ⊢
        convert this using 1 <;> omega

/-- A row of `Put(8, b)` that fails at the call after `k` others has appended the fields that complete its byte. -/
theorem putBytes_ended {bs : List Byte} {s t : State} (h : putBytes bs s = .ended t) :
    ∃ k, k + 1 < s.nacc.toNat / 8 + bs.length ∧ EndedAt s t k (8 * (k + 1 - s.nacc.toNat / 8)) := by
  induction bs generalizing s with
  | nil => cases h
  | cons b bs ih =>
    rw [putBytes] at h
    cases hp : put 8 (b.setWidth 32) s with
    | ended u =>
      rw [hp] at h
      injection h with h
      obtain ⟨k, hk, he⟩ := put_ended hp
      rw [h] at he
      exact ⟨k, by simp only [List.length_cons]; omega, by rwa [show k + 1 - s.nacc.toNat / 8 = 0 by omega]⟩
    | going u =>
      rw [hp] at h
      have hn := put_going_nacc (by omega) hp
      obtain ⟨k, hk, he⟩ := ih h
      refine ⟨s.nacc.toNat / 8 + k, by simp only [List.length_cons]; omega, ?_⟩
      convert (put_wentOn (by omega) hp).ended he using 1
      omega

/-- A flush that fails, at a complete byte or at the padded one, has appended nothing. -/
theorem flush_ended {s t : State} (h : flush s = .ended t) :
    ∃ k, 8 * k < s.nacc.toNat ∧ EndedAt s t k 0 := by
  rw [flush_eq] at h
  cases hd : drain s with
  | ended u =>
    rw [hd] at h
    injection h with h
    obtain ⟨k, hk, he⟩ := drain_ended hd
    rw [h] at he
    exact ⟨k, by omega, he⟩
  | going u =>
    rw [hd] at h
    have h1 := drain_wentOn hd
    have hn := drain_going_nacc hd
    simp only [Progress.andThen, flushRest] at h
    split at h
    · cases hw : answerAt u 0 with
      | ok => rw [sinkWrite_ok _ hw] at h; cases h
      | fail =>
        rw [sinkWrite_fail _ hw] at h
        injection h with h
        have he : EndedAt u t 0 0 := by rw [← h]; exact ⟨rfl, rfl⟩
        exact ⟨_, by omega, h1.ended he⟩
    · cases h

theorem Progress.andThen_ended {p : Progress} {f : State → Progress} {t : State} (h : p.andThen f = .ended t) :
    p = .ended t ∨ ∃ u, p = .going u ∧ f u = .ended t := by
  cases p with
  | going u => exact .inr ⟨u, rfl, h⟩
  | ended u => exact .inl h

/-- The block header fails at one of its byte fields, or at the byte completed by the flag. -/
theorem putBlockHeader_ended {rand : Bool} {origPtr : Word} {s t : State} (h : putBlockHeader rand origPtr s = .ended t) :
    ∃ k, EndedAt s t k (min (8 * (k + 1 - s.nacc.toNat / 8)) 81) := by
  rcases Progress.andThen_ended h with h | ⟨u, hu, h⟩
  · obtain ⟨k, hk, he⟩ := putBytes_ended h
    have : blockMagic.length = 6 := rfl
    exact ⟨k, by rwa [min_eq_left (by omega)]⟩
  have h1 := putBytes_wentOn (by simp [blockMagic]) hu
  have n1 := h1.2
  have g1 := putBytes_going_nacc (by simp [blockMagic]) hu
  simp only [blockMagic, List.length_cons, List.length_nil] at h1 n1
  rcases Progress.andThen_ended h with h | ⟨v, hv, h⟩
  · obtain ⟨k, hk, he⟩ := putBytes_ended h
    have : (wordBytes (~~~ u.r)).length = 4 := rfl
    refine ⟨_, by convert h1.ended he using 1; omega⟩
  have h2 := h1.trans (putBytes_wentOn (by simp [wordBytes]) hv)
  have n2 := h2.2
  have g2 := putBytes_going_nacc (by simp [wordBytes]) hv
  simp only [wordBytes, List.length_cons, List.length_nil] at h2 n2
  rcases Progress.andThen_ended h with h | ⟨w, hw, h⟩
  · obtain ⟨k, hk, he⟩ := put_ended h
    refine ⟨_, by convert h2.ended he using 1; omega⟩
  have g3 := put_going_nacc (by omega) hw
  have h3 := h2.trans (put_wentOn (by omega) hw)
  obtain ⟨k, hk, he⟩ := put_ended h
  refine ⟨_, by convert h3.ended he using 1; omega⟩

/-- The trailer up to the end of its flush fails at a byte field, at the last one's byte, or at the padded byte. -/
theorem putTrailerFields_ended {s t : State} (h : putTrailerFields s = .ended t) :
    ∃ k, 8 * k < s.nacc.toNat + 80 ∧ EndedAt s t k (min (8 * (k + 1 - s.nacc.toNat / 8)) 80) := by
  rcases Progress.andThen_ended h with h | ⟨u, hu, h⟩
  · obtain ⟨k, hk, he⟩ := putBytes_ended h
    have : trailerMagic.length = 6 := rfl
    exact ⟨k, by omega, by rwa [min_eq_left (by omega)]⟩
  have h1 := putBytes_wentOn (by simp [trailerMagic]) hu
  have n1 := h1.2
  have g1 := putBytes_going_nacc (by simp [trailerMagic]) hu
  simp only [trailerMagic, List.length_cons, List.length_nil] at h1 n1
  rcases Progress.andThen_ended h with h | ⟨v, hv, h⟩
  · obtain ⟨k, hk, he⟩ := putBytes_ended h
    have : (wordBytes u.c).length = 4 := rfl
    refine ⟨_, ?_, by convert h1.ended he using 1; omega⟩
    omega
  have h2 := h1.trans (putBytes_wentOn (by simp [wordBytes]) hv)
  have n2 := h2.2
  have g2 := putBytes_going_nacc (by simp [wordBytes]) hv
  simp only [wordBytes, List.length_cons, List.length_nil] at h2 n2
  obtain ⟨k, hk, he⟩ := flush_ended h
  refine ⟨_, ?_, by convert h2.ended he using 1; omega⟩
  omega

end Sys2Proof.Machine
end

