-- ==== Sys2Proof/Laws/HostSequence.lean ====
section
/-! SUPPORT. The orders in which the host may issue a stream (70_reset_and_hazards.md R221): the laws of `Merged`, and that
R221's own listing is one of those orders. -/

namespace Sys2Proof.Machine

theorem merged_left (xs : List Instr) : Merged xs [] xs := by
  induction xs with
  | nil => exact .nil
  | cons x xs ih => exact .left x ih

theorem merged_right (ys : List Instr) : Merged [] ys ys := by
  induction ys with
  | nil => exact .nil
  | cons y ys ih => exact .right y ih

theorem merged_append (xs ys : List Instr) : Merged xs ys (xs ++ ys) := by
  induction xs with
  | nil => exact merged_right ys
  | cons x xs ih => exact .left x ih

theorem Merged.mem_iff {xs ys zs : List Instr} (h : Merged xs ys zs) (i : Instr) : i ∈ zs ↔ i ∈ xs ∨ i ∈ ys := by
  induction h with
  | nil => simp
  | left x _ ih => simp [ih, or_assoc]
  | right y _ ih => simp [ih, or_left_comm]

theorem blocksIssued_listed (blocks : List StreamBlock) (puts owed : List Instr) :
    BlocksIssued puts owed blocks (puts ++ owed ++ blocks.flatMap StreamBlock.commands) := by
  induction blocks generalizing puts owed with
  | nil => simpa [BlocksIssued] using merged_append puts owed
  | cons b bs ih =>
    unfold BlocksIssued
    split
    · next hb => simpa [StreamBlock.commands, hb] using ih puts (owed ++ b.crcBefore ++ b.crcAfter)
    · next hb =>
      exact ⟨puts ++ (owed ++ b.crcBefore), b.puts ++ b.crcAfter ++ bs.flatMap StreamBlock.commands,
        by simp [StreamBlock.commands, hb], merged_append _ _, ih b.puts b.crcAfter⟩

/-- R221's own listing, nothing interleaved, is one of the orders. -/
theorem hostSequence_issued (level : Word) (leaveOpen : Bool) (blocks : List StreamBlock) :
    StreamIssued level leaveOpen blocks (hostSequence level leaveOpen blocks) :=
  ⟨blocks.flatMap StreamBlock.commands, [], by simpa using blocksIssued_listed blocks [] [], by simp, merged_left _⟩

/-- What `StreamLayout` asks of the commands, of the operands and of the level, R221 gives. -/
theorem IsHostSequence.issued {level : Word} {leaveOpen : Bool} {blocks : List StreamBlock} {commands : List Instr}
    (h : IsHostSequence level leaveOpen blocks commands) :
    (1 ≤ level.toNat ∧ level.toNat ≤ 9) ∧ (∀ b ∈ blocks, b.legal) ∧ StreamIssued level leaveOpen blocks commands :=
  ⟨⟨h.1, h.2.1⟩, h.2.2.2⟩

end Sys2Proof.Machine
end

