-- ==== Sys2Proof/Laws/PerInstr.lean ====
section
/-! SUPPORT. The family `TableRow`: the word of each command has the fixed bits of the command's own row of the opcode
table (30_encoding.md R72, R74). One lemma for each constructor. -/

namespace Sys2Proof.Laws.TableRow

/-- The encoded command fits its row, the reserved-zero bits among the fixed ones. -/
def Statement (i : Instr) : Prop := i.row.accepts (encode i) = true

/-- A packed word fits a row when each of its three fields has the row's fixed bits. -/
theorem accepts_packWord (row : TableRow) (op op' : Byte) (a a' a'' b b' b'' : Word)
    (hmask : row.mask = packWord 0xFF a' b') (hbits : row.bits = packWord op' a'' b'') (hop : op = op')
    (ha : a &&& a' = a'') (hb : b &&& b' = b'') : row.accepts (packWord op a b) = true := by
  have h : ∀ x : Byte, x &&& 0xFF = x := by decide
  simp only [TableRow.accepts, beq_iff_eq, hmask, hbits, packWord_and, ha, hb, h, hop]

theorem crcReset : Statement .crcReset := by unfold Statement; decide

theorem crcUpd (byte : Byte) : Statement (.crcUpd byte) :=
  accepts_packWord _ _ 0x11 _ 0xFFFFFFFF 0 _ 0xFFFFFF00 0 rfl rfl rfl rfl (setWidth_byte_and byte)

theorem crcUpdn (byte : Byte) (count : Word) : Statement (.crcUpdn byte count) :=
  accepts_packWord _ _ 0x12 _ 0 0 _ 0xFFFFFF00 0 rfl rfl rfl BitVec.and_zero (setWidth_byte_and byte)

theorem crcRes : Statement .crcRes := by unfold Statement; decide

theorem crcComb (crc len : Word) : Statement (.crcComb crc len) :=
  accepts_packWord _ _ 0x14 _ 0 0 _ 0 0 rfl rfl rfl BitVec.and_zero BitVec.and_zero

theorem crcFold : Statement .crcFold := by unfold Statement; decide

theorem crcRdc : Statement .crcRdc := by unfold Statement; decide

theorem bwPut (n value : Word) : Statement (.bwPut n value) :=
  accepts_packWord _ _ 0x20 _ 0 0 _ 0 0 rfl rfl rfl BitVec.and_zero BitVec.and_zero

theorem bwFlush : Statement .bwFlush := by unfold Statement; decide

theorem faShdr (level : Word) (leaveOpen : Bool) : Statement (.faShdr level leaveOpen) :=
  accepts_packWord _ _ 0x30 _ 0xFFFFFFFE 0 _ 0 0 rfl rfl rfl (flagField_and leaveOpen) BitVec.and_zero

theorem faBhdr (rand : Bool) (origPtr : Word) : Statement (.faBhdr rand origPtr) :=
  accepts_packWord _ _ 0x31 _ 0xFFFFFFFE 0 _ 0 0 rfl rfl rfl (flagField_and rand) BitVec.and_zero

theorem faStrl : Statement .faStrl := by unfold Statement; decide

end Sys2Proof.Laws.TableRow
end

