-- ==== Sys2Proof/Laws/Step.lean ====
section
/-! SUPPORT. Everything a step can do, said once (10_state.md R21, R33; 70_reset_and_hazards.md R210, R213), and which
words a step rejects. Proofs of invariants start from `step_cases`. -/

namespace Sys2Proof.Machine

/-- A step waits, resets, runs a command or rejects a word. -/
theorem step_cases {s t : State} (h : step s = .next t) :
    (nextEvent s = none ∧ t = s) ∨
      (nextEvent s = some .reset ∧ t = resetInput (advance s)) ∨
      (∃ w i, nextEvent s = some (.command w) ∧ decode w = .command i ∧ t = after i (advance s)) ∨
      (∃ w why, nextEvent s = some (.command w) ∧ decode w = .illegal why ∧ t = rejectWord (advance s)) := by
  unfold step at h
  split at h
  · injection h with h
    exact .inl ⟨by assumption, h.symm⟩
  · injection h with h
    exact .inr (.inl ⟨by assumption, h.symm⟩)
  · split at h
    · rw [exec_next_iff] at h
      exact .inr (.inr (.inl ⟨_, _, by assumption, by assumption, h⟩))
    · injection h with h
      exact .inr (.inr (.inr ⟨_, _, by assumption, by assumption, h.symm⟩))

theorem advance_eq (s : State) : advance s = { s with pos := s.pos + 1 } := rfl

/-- Everything the reset input does (R210, R211). -/
theorem resetInput_eq (s : State) :
    resetInput s =
      { s with
        r := 0xFFFFFFFF, c := 0, acc := 0, nacc := 0, res := 0, phase := .idle, err := none, level := 0,
        leaveOpen := false, sinkClosed := false } := rfl

theorem rejectWord_failed {s : State} (h : s.phase = .failed) : rejectWord s = s := by simp [rejectWord, h]

theorem rejectWord_eq {s : State} (h : s.phase ≠ .failed) : rejectWord s = failedWith .illegalCommand s := by
  simp [rejectWord, h]
  rfl

/-- The word placed by the host's interface is the one the next step runs. -/
theorem nextEvent_placeNext (w : CmdWord) (s : State) : nextEvent (placeNext w s) = some (.command w) := by
  simp [nextEvent, placeNext]

end Sys2Proof.Machine
end

