-- ==== Sys2Proof/Tests/Slice0.lean ====
section
/-! SUPPORT. Tests. The expected values are those of spec/95_test_vectors.md, or words and values written out by hand from
the rules each test names. Each test is one step, one command or one word; the last part gives, for every statement that
has hypotheses, a state and operands that meet them. -/

namespace Sys2Proof.Tests

open Sys2Proof Sys2Proof.Machine

/-! ### Small states -/

/-- After reset, with the answers of the sink laid down. -/
def fresh (answers : List SinkAnswer) : State := { State.reset with sinkAnswers := answers }

/-- Eighteen `ok`. -/
def oks : List SinkAnswer := List.replicate 18 .ok

/-- In OPEN at level 9, with given pending bits, as after `fa.shdr 9` and some fields. -/
def openAt (acc : Word) (nacc : BitVec 5) (answers : List SinkAnswer) : State :=
  { State.reset with phase := .opened, level := 9, acc := acc, nacc := nacc, sinkAnswers := answers }

/-- After `fa.shdr 9` (95_test_vectors.md section 4.1), the sink's earlier bytes left out. -/
def opened : State := openAt 0x39000000 8 oks

/-- In CLOSED, the sink closed. -/
def closedState : State := { State.reset with phase := .closed, level := 9, sinkClosed := true }

/-- In FAILED after an InvalidStateError in IDLE (program P5). -/
def failedState : State := { State.reset with phase := .failed, err := some .invalidState, r := 0x7E4FD274 }

/-- With a running register. -/
def withR (r : Word) : State := { State.reset with r := r }

/-- With the host about to do one thing. -/
def offered (e : HostEvent) (s : State) : State := { s with program := [e], pos := 0 }

/-- What a step shows: the state's registers that a vector gives. -/
def outAccNacc (s : State) : List Byte × Word × BitVec 5 := (s.sinkOut, s.acc, s.nacc)

/-- The outcome is the next state `t`. -/
def reaches (o : Host.Outcome State Fault Refusal) (t : State) : Bool :=
  match o with
  | .next s => s == t
  | .fault _ => false
  | .refused _ => false

/-- The state a step leaves. -/
def stepped (s : State) : State :=
  match step s with
  | .next t => t
  | .fault _ => s
  | .refused _ => s

/-! ### The ROM (95_test_vectors.md section 2.1) -/

/-- The table of section 2.1, copied from the spec. -/
def specTable : List Word :=
  [0x00000000, 0x04C11DB7, 0x09823B6E, 0x0D4326D9, 0x130476DC, 0x17C56B6B, 0x1A864DB2, 0x1E475005,
    0x2608EDB8, 0x22C9F00F, 0x2F8AD6D6, 0x2B4BCB61, 0x350C9B64, 0x31CD86D3, 0x3C8EA00A, 0x384FBDBD,
    0x4C11DB70, 0x48D0C6C7, 0x4593E01E, 0x4152FDA9, 0x5F15ADAC, 0x5BD4B01B, 0x569796C2, 0x52568B75,
    0x6A1936C8, 0x6ED82B7F, 0x639B0DA6, 0x675A1011, 0x791D4014, 0x7DDC5DA3, 0x709F7B7A, 0x745E66CD,
    0x9823B6E0, 0x9CE2AB57, 0x91A18D8E, 0x95609039, 0x8B27C03C, 0x8FE6DD8B, 0x82A5FB52, 0x8664E6E5,
    0xBE2B5B58, 0xBAEA46EF, 0xB7A96036, 0xB3687D81, 0xAD2F2D84, 0xA9EE3033, 0xA4AD16EA, 0xA06C0B5D,
    0xD4326D90, 0xD0F37027, 0xDDB056FE, 0xD9714B49, 0xC7361B4C, 0xC3F706FB, 0xCEB42022, 0xCA753D95,
    0xF23A8028, 0xF6FB9D9F, 0xFBB8BB46, 0xFF79A6F1, 0xE13EF6F4, 0xE5FFEB43, 0xE8BCCD9A, 0xEC7DD02D] ++
  [0x34867077, 0x30476DC0, 0x3D044B19, 0x39C556AE, 0x278206AB, 0x23431B1C, 0x2E003DC5, 0x2AC12072,
    0x128E9DCF, 0x164F8078, 0x1B0CA6A1, 0x1FCDBB16, 0x018AEB13, 0x054BF6A4, 0x0808D07D, 0x0CC9CDCA,
    0x7897AB07, 0x7C56B6B0, 0x71159069, 0x75D48DDE, 0x6B93DDDB, 0x6F52C06C, 0x6211E6B5, 0x66D0FB02,
    0x5E9F46BF, 0x5A5E5B08, 0x571D7DD1, 0x53DC6066, 0x4D9B3063, 0x495A2DD4, 0x44190B0D, 0x40D816BA,
    0xACA5C697, 0xA864DB20, 0xA527FDF9, 0xA1E6E04E, 0xBFA1B04B, 0xBB60ADFC, 0xB6238B25, 0xB2E29692,
    0x8AAD2B2F, 0x8E6C3698, 0x832F1041, 0x87EE0DF6, 0x99A95DF3, 0x9D684044, 0x902B669D, 0x94EA7B2A,
    0xE0B41DE7, 0xE4750050, 0xE9362689, 0xEDF73B3E, 0xF3B06B3B, 0xF771768C, 0xFA325055, 0xFEF34DE2,
    0xC6BCF05F, 0xC27DEDE8, 0xCF3ECB31, 0xCBFFD686, 0xD5B88683, 0xD1799B34, 0xDC3ABDED, 0xD8FBA05A] ++
  [0x690CE0EE, 0x6DCDFD59, 0x608EDB80, 0x644FC637, 0x7A089632, 0x7EC98B85, 0x738AAD5C, 0x774BB0EB,
    0x4F040D56, 0x4BC510E1, 0x46863638, 0x42472B8F, 0x5C007B8A, 0x58C1663D, 0x558240E4, 0x51435D53,
    0x251D3B9E, 0x21DC2629, 0x2C9F00F0, 0x285E1D47, 0x36194D42, 0x32D850F5, 0x3F9B762C, 0x3B5A6B9B,
    0x0315D626, 0x07D4CB91, 0x0A97ED48, 0x0E56F0FF, 0x1011A0FA, 0x14D0BD4D, 0x19939B94, 0x1D528623,
    0xF12F560E, 0xF5EE4BB9, 0xF8AD6D60, 0xFC6C70D7, 0xE22B20D2, 0xE6EA3D65, 0xEBA91BBC, 0xEF68060B,
    0xD727BBB6, 0xD3E6A601, 0xDEA580D8, 0xDA649D6F, 0xC423CD6A, 0xC0E2D0DD, 0xCDA1F604, 0xC960EBB3,
    0xBD3E8D7E, 0xB9FF90C9, 0xB4BCB610, 0xB07DABA7, 0xAE3AFBA2, 0xAAFBE615, 0xA7B8C0CC, 0xA379DD7B,
    0x9B3660C6, 0x9FF77D71, 0x92B45BA8, 0x9675461F, 0x8832161A, 0x8CF30BAD, 0x81B02D74, 0x857130C3] ++
  [0x5D8A9099, 0x594B8D2E, 0x5408ABF7, 0x50C9B640, 0x4E8EE645, 0x4A4FFBF2, 0x470CDD2B, 0x43CDC09C,
    0x7B827D21, 0x7F436096, 0x7200464F, 0x76C15BF8, 0x68860BFD, 0x6C47164A, 0x61043093, 0x65C52D24,
    0x119B4BE9, 0x155A565E, 0x18197087, 0x1CD86D30, 0x029F3D35, 0x065E2082, 0x0B1D065B, 0x0FDC1BEC,
    0x3793A651, 0x3352BBE6, 0x3E119D3F, 0x3AD08088, 0x2497D08D, 0x2056CD3A, 0x2D15EBE3, 0x29D4F654,
    0xC5A92679, 0xC1683BCE, 0xCC2B1D17, 0xC8EA00A0, 0xD6AD50A5, 0xD26C4D12, 0xDF2F6BCB, 0xDBEE767C,
    0xE3A1CBC1, 0xE760D676, 0xEA23F0AF, 0xEEE2ED18, 0xF0A5BD1D, 0xF464A0AA, 0xF9278673, 0xFDE69BC4,
    0x89B8FD09, 0x8D79E0BE, 0x803AC667, 0x84FBDBD0, 0x9ABC8BD5, 0x9E7D9662, 0x933EB0BB, 0x97FFAD0C,
    0xAFB010B1, 0xAB710D06, 0xA6322BDF, 0xA2F33668, 0xBCB4666D, 0xB8757BDA, 0xB5365D03, 0xB1F740B4]

/-- R100: all 256 entries. -/
theorem test_table : (List.range 256).map (fun i => tableEntry (BitVec.ofNat 8 i)) = specTable := by decide +kernel

/-- R100: both constructions, on the entries of one row. -/
theorem test_table_reversed :
    rev32 (reflectedEntry 0x80) = 0x04C11DB7 ∧ rev32 (reflectedEntry 0x01) = 0x690CE0EE := by decide +kernel

/-- R102: the check string (section 2.2). -/
theorem test_crc_check :
    crcOf [0x31, 0x32, 0x33, 0x34, 0x35, 0x36, 0x37, 0x38, 0x39] = 0xFC891918 ∧ crcOf [] = 0 := by decide +kernel

/-- R111: `Z_n` (section 2.4). -/
theorem test_zero_extension :
    zeroExt 1 0x00000001 = 0x00000100 ∧ zeroExt 1 0xFFFFFFFF = 0x4E08BFB4 ∧ zeroExt 4 0x426548B8 = 0x76B558EF := by
  decide +kernel

/-! ### Encoding: one word for each command, written out bit by bit from R72 and R74 -/

theorem test_decode_crcReset :
    decode 0b000100000000000000000000000000000000000000000000000000000000000000000000 = .command .crcReset := by decide

theorem test_decode_crcUpd :
    decode 0b000100010000000000000000000000000000000000000000000000000000000010000001 = .command (.crcUpd 0x81) := by
  decide

theorem test_decode_crcUpdn :
    decode 0b000100101000000000000000000000000000000100000000000000000000000001000001 =
      .command (.crcUpdn 0x41 0x80000001) := by decide

theorem test_decode_crcRes :
    decode 0b000100110000000000000000000000000000000000000000000000000000000000000000 = .command .crcRes := by decide

theorem test_decode_crcComb :
    decode 0b000101000000000000000000000000000000010010001010001111000100000111110111 =
      .command (.crcComb 0x8A3C41F7 4) := by decide

theorem test_decode_crcFold :
    decode 0b000101010000000000000000000000000000000000000000000000000000000000000000 = .command .crcFold := by decide

theorem test_decode_crcRdc :
    decode 0b000101100000000000000000000000000000000000000000000000000000000000000000 = .command .crcRdc := by decide

theorem test_decode_bwPut :
    decode 0b001000000000000000000000000000000001100000000000101010111100110111101111 =
      .command (.bwPut 24 0x00ABCDEF) := by decide

theorem test_decode_bwFlush :
    decode 0b001000010000000000000000000000000000000000000000000000000000000000000000 = .command .bwFlush := by decide

theorem test_decode_faShdr :
    decode 0b001100000000000000000000000000000000000100000000000000000000000000001001 = .command (.faShdr 9 true) := by
  decide

theorem test_decode_faBhdr :
    decode 0b001100010000000000000000000000000000000100000000111111111111111111111111 =
      .command (.faBhdr true 0x00FFFFFF) := by decide

theorem test_decode_faStrl :
    decode 0b001100100000000000000000000000000000000000000000000000000000000000000000 = .command .faStrl := by decide

/-- The encoder writes the words of the spec's programs (95_test_vectors.md section 6). -/
theorem test_encode :
    encode (.crcUpdn 0x41 900000) = 0x12_000DBBA0_00000041 ∧ encode (.crcComb 0x01E8D060 1000) = 0x14_000003E8_01E8D060 ∧
      encode (.bwPut 25 0) = 0x20_00000019_00000000 ∧ encode (.faShdr 1 true) = 0x30_00000001_00000001 ∧
      encode (.faBhdr false 0x1000000) = 0x31_00000000_01000000 := by decide

/-- R76, R77: the ill-formed words, one for each check: a reserved opcode, and a reserved bit of each format that has
some (section 5.1 and section 4.1). -/
theorem test_illegal_words :
    decode 0x00_00000000_00000000 = .illegal .reservedOpcode ∧ decode 0xFF_00000000_00000000 = .illegal .reservedOpcode ∧
      decode 0x10_00000001_00000000 = .illegal .reservedBits ∧ decode 0x32_00000000_00000001 = .illegal .reservedBits ∧
      decode 0x11_00000001_00000041 = .illegal .reservedBits ∧ decode 0x11_00000000_00000141 = .illegal .reservedBits ∧
      decode 0x12_00000005_00000141 = .illegal .reservedBits ∧ decode 0x30_00000002_00000009 = .illegal .reservedBits ∧
      decode 0x31_80000000_00000000 = .illegal .reservedBits := by decide

/-- The check of WellFormed.lean refuses the same words, one for each of the twelve rows' fixed bits or the opcode. -/
theorem test_wellFormed_refuses :
    CmdWord.wellFormed 0x17_00000000_00000000 = false ∧ CmdWord.wellFormed 0x10_00000000_00000001 = false ∧
      CmdWord.wellFormed 0x11_00000001_00000041 = false ∧ CmdWord.wellFormed 0x12_00000005_00000141 = false ∧
      CmdWord.wellFormed 0x13_80000000_00000000 = false ∧ CmdWord.wellFormed 0x15_00000001_00000000 = false ∧
      CmdWord.wellFormed 0x16_00000000_80000000 = false ∧ CmdWord.wellFormed 0x21_00000000_00000100 = false ∧
      CmdWord.wellFormed 0x30_00000002_00000009 = false ∧ CmdWord.wellFormed 0x31_80000000_00000000 = false ∧
      CmdWord.wellFormed 0x32_00000001_00000000 = false := by decide

/-- The formats without reserved bits admit every operand (R72, format AB). -/
theorem test_wellFormed_accepts :
    CmdWord.wellFormed 0x14_FFFFFFFF_FFFFFFFF = true ∧ CmdWord.wellFormed 0x20_FFFFFFFF_FFFFFFFF = true ∧
      CmdWord.wellFormed 0x12_FFFFFFFF_000000FF = true ∧ CmdWord.wellFormed 0x30_00000001_FFFFFFFF = true := by decide

/-- The host's entries: the word of a table row, decoded, and run as the first command after reset. -/
theorem test_decodeTableWord :
    decodeTableWord 72 0x110000000000000041 = some (.crcUpd 0x41) ∧ decodeTableWord 72 0x170000000000000000 = none := by
  decide

theorem test_withFetchWord :
    reaches (step (State.reset.withFetchWord 72 0x110000000000000041))
      { State.reset with r := 0x7E4FD274, program := [.command 0x11_00000000_00000041], pos := 1 } = true := by
  decide +kernel

/-! ### The assembler (R84, R85) -/

theorem test_assemble_line :
    assembleText "  BW.Put 24, 0xabcdef ; a comment".toList = some [0x20_00000018_00ABCDEF] ∧
      assembleText "fa.shdr 9".toList = some [0x30_00000000_00000009] ∧ assembleText "crc.upd 256".toList = none := by
  decide +kernel

theorem test_assemble_pseudo :
    assembleText "crc.str \"12\"\nfa.empty 9".toList =
      some [0x11_00000000_00000031, 0x11_00000000_00000032, 0x30_00000000_00000009, 0x10_00000000_00000000,
        0x15_00000000_00000000, 0x32_00000000_00000000] := by decide +kernel

/-! ### The CRC family (95_test_vectors.md sections 2.2 to 2.6) -/

theorem test_crcReset : reaches (exec .crcReset (withR 0x7E4FD274)) (withR 0xFFFFFFFF) = true := by decide +kernel

theorem test_crcUpd :
    reaches (exec (.crcUpd 0x41) (withR 0xFFFFFFFF)) (withR 0x7E4FD274) = true ∧
      reaches (exec (.crcUpd 0x33) (withR 0x3FEC5E6A)) (withR 0xD952F164) = true := by decide +kernel

/-- A zero byte changes `R`; the byte `0xFF` meets table index 0 (R104). -/
theorem test_crcUpd_corners :
    reaches (exec (.crcUpd 0x00) (withR 0xFFFFFFFF)) (withR 0x4E08BFB4) = true ∧
      reaches (exec (.crcUpd 0xFF) (withR 0xFFFFFFFF)) (withR 0xFFFFFF00) = true := by decide +kernel

theorem test_crcUpdn :
    reaches (exec (.crcUpdn 0x41 5) (withR 0xFFFFFFFF)) (withR 0xD14298BA) = true := by
  decide +kernel

theorem test_crcUpdn_zero :
    reaches (exec (.crcUpdn 0x41 0) (withR 0xD14298BA)) (withR 0xD14298BA) = true := by
  decide +kernel

theorem test_crcRes : reaches (exec .crcRes (withR 0x75C3BE08)) { withR 0x75C3BE08 with res := 0x8A3C41F7 } = true := by
  decide +kernel

/-- "12345" and "6789" joined: the length is that of the second segment. -/
theorem test_crcComb :
    reaches (exec (.crcComb 0x8A3C41F7 4) (withR 0xBD9AB747)) (withR 0x0376E6E7) = true := by
  decide +kernel

/-- A length of 0 leaves `R` whatever `crc` is; an inconsistent pair is accepted. -/
theorem test_crcComb_corners :
    reaches (exec (.crcComb 0x12345678 0) (withR 0x7E4FD274)) (withR 0x7E4FD274) = true ∧
      reaches (exec (.crcComb 0x00000000 4) (withR 0x7E4FD274)) (withR 0x302CFDCB) = true := by decide +kernel

theorem test_crcFold :
    reaches (exec .crcFold { withR 0x7E4FD274 with c := 0x81B02D8B })
      { withR 0x7E4FD274 with c := 0x82D0769C } = true := by
  decide +kernel

/-- Bit 31 moves to bit 0, for an empty block too. -/
theorem test_crcFold_rotates :
    reaches (exec .crcFold { withR 0xFFFFFFFF with c := 0x80000000 })
      { withR 0xFFFFFFFF with c := 0x00000001 } = true := by
  decide +kernel

theorem test_crcRdc :
    reaches (exec .crcRdc { State.reset with c := 0x73C7A9CF })
      { State.reset with c := 0x73C7A9CF, res := 0x73C7A9CF } = true := by
  decide +kernel

/-! ### The bit writer (section 3, program P6) -/

/-- `bw.put 24` with 7 bits pending: the largest `NACC`. -/
theorem test_bwPut_largest :
    outAccNacc (after (.bwPut 24 0xABCDEF) (openAt 0xFE000000 7 oks)) = ([], 0xFF579BDE, 31) := by decide +kernel

/-- `bw.put 0` only drains; the bits above bit `n − 1` are ignored. -/
theorem test_bwPut_drains :
    outAccNacc (after (.bwPut 0 0) (openAt 0xFF579BDE 31 oks)) = ([0xFF, 0x57, 0x9B], 0xDE000000, 7) ∧
      outAccNacc (after (.bwPut 4 0xFFFFFFF5) opened) = ([0x39], 0x50000000, 4) := by decide +kernel

theorem test_bwFlush :
    outAccNacc (after .bwFlush (openAt 0xDE000000 7 oks)) = ([0xDE], 0, 0) ∧
      outAccNacc (after .bwFlush (openAt 0xA3000000 8 oks)) = ([0xA3], 0, 0) := by decide +kernel

/-- Aligned: nothing is written, no sink call is made. -/
theorem test_bwFlush_aligned :
    reaches (exec .bwFlush (openAt 0 0 [.fail])) (openAt 0 0 [.fail]) = true := by
  decide +kernel

/-! ### The field assembler (section 4, programs P1, P3 and P4) -/

theorem test_faShdr :
    (let t := after (.faShdr 9 false) (fresh oks);
      outAccNacc t = ([0x42, 0x5A, 0x68], 0x39000000, 8) ∧ statusWord t = 0x00090801) ∧
    statusWord (after (.faShdr 1 true) (fresh oks)) = 0x00110801 := by decide +kernel

/-- After `fa.shdr 9` and block "A"; and with an empty register, the flag set and the largest `origPtr`. -/
theorem test_faBhdr :
    outAccNacc (after (.faBhdr false 0) { opened with r := 0x7E4FD274 }) =
        ([0x39, 0x31, 0x41, 0x59, 0x26, 0x53, 0x59, 0x81, 0xB0, 0x2D, 0x8B], 0x00000000, 25) ∧
      outAccNacc (after (.faBhdr true 0xFFFFFF) opened) =
        ([0x39, 0x31, 0x41, 0x59, 0x26, 0x53, 0x59, 0x00, 0x00, 0x00, 0x00], 0xFFFFFF80, 25) := by decide +kernel

/-- Program P4, row 12: the header starts three bits into a byte. -/
theorem test_faBhdr_unaligned :
    outAccNacc (after (.faBhdr false 0) { openAt 0x80000000 3 oks with r := 0x7E4FD274 }) =
      ([0x86, 0x28, 0x2B, 0x24, 0xCA, 0x6B, 0x30, 0x36, 0x05, 0xB1], 0x60000000, 28) := by decide +kernel

/-- Program P3, row 10: the trailer with five pad bits, the sink closed. -/
theorem test_faStrl :
    (let t := after .faStrl { openAt 0x80000000 3 oks with c := 0x81B02D8B };
      outAccNacc t = ([0x82, 0xEE, 0x48, 0xA7, 0x0A, 0x12, 0x10, 0x36, 0x05, 0xB1, 0x60], 0, 0) ∧
        statusWord t = 0x00290002 ∧ t.sinkCloses = [.ok]) := by decide +kernel

/-- Leave-open: the sink is not closed (section 4.3, row 2). -/
theorem test_faStrl_leave_open :
    (let t := after .faStrl { opened with leaveOpen := true };
      t.sinkOut = [0x39, 0x17, 0x72, 0x45, 0x38, 0x50, 0x90, 0x00, 0x00, 0x00, 0x00] ∧ statusWord t = 0x00190002 ∧
        t.sinkCloses = []) := by decide +kernel

/-! ### Errors (section 5) -/

/-- The status word after one word on the command port in the reset state. -/
def statusAfter (w : CmdWord) : Word := statusWord (stepped (offered (.command w) State.reset))

/-- Section 5.1: IllegalCommand. -/
theorem test_status_illegal :
    statusAfter 0x00_00000000_00000000 = 0x00400053 ∧ statusAfter 0x12_00000005_00000141 = 0x00400053 := by decide +kernel

/-- Section 5.1: InvalidStateError, before FieldRange (section 5.3). -/
theorem test_status_invalidState :
    statusAfter 0x21_00000000_00000000 = 0x00400023 ∧ statusAfter 0x20_00000019_00000000 = 0x00400023 := by decide +kernel

/-- Section 4.1: ConfigurationError, after IllegalCommand (section 5.3). -/
theorem test_status_configuration :
    statusAfter 0x30_00000000_0000000A = 0x00400013 ∧ statusAfter 0x30_00000002_0000000A = 0x00400053 := by decide +kernel

/-- FieldRange in OPEN: nothing is drained (section 3, section 4.2). -/
theorem test_fieldRange :
    statusWord (after (.bwPut 25 0) opened) = 0x00490863 ∧ (after (.bwPut 25 0) opened).sinkOut = [] ∧
      statusWord (after (.faBhdr false 0x1000000) opened) = 0x00490863 := by decide +kernel

/-- Section 5.2: the sink refuses call 0, then call 2, of `fa.shdr 9`. -/
theorem test_sink_failure :
    (let t := after (.faShdr 9 false) (fresh [.fail]);
      outAccNacc t = ([], 0x42000000, 8) ∧ statusWord t = 0x00490833) ∧
    (let t := after (.faShdr 9 false) (fresh [.ok, .ok, .fail]);
      outAccNacc t = ([0x42, 0x5A], 0x68000000, 8) ∧ statusWord t = 0x00490833) := by decide +kernel

/-- Section 5.2: program P1, the write of `45` inside `fa.strl` refused (call 6 of the program, call 3 of the command). -/
theorem test_trailer_failure :
    (let t := after .faStrl (openAt 0x39000000 8 [.ok, .ok, .ok, .fail]);
      outAccNacc t = ([0x39, 0x17, 0x72], 0x45000000, 8) ∧ statusWord t = 0x00490833) := by decide +kernel

/-- Section 5.2: program P1 with the close refused. -/
theorem test_close_failure :
    (let t := after .faStrl (openAt 0x39000000 8 (List.replicate 11 .ok ++ [.fail]));
      statusWord t = 0x00690033 ∧ t.sinkOut.length = 11 ∧ t.sinkCloses = [.fail]) := by decide +kernel

/-- Program P5, row 4: in FAILED a command is ignored. -/
theorem test_failed_ignores : reaches (exec .crcReset failedState) failedState = true := by decide +kernel

/-- The reset input in FAILED: every register at its reset value, the sink's bytes kept. -/
theorem test_reset_input :
    reaches (step (offered .reset { failedState with sinkOut := [0x42], acc := 0x5A000000, nacc := 8 }))
      { State.reset with sinkOut := [0x42], program := [.reset], pos := 1 } = true := by
  decide +kernel

/-! ### Every hypothesis of every statement is met by some state, word or operand, at the boundaries of its clauses -/

theorem test_witness_EncodeOfDecode : decode 0x20_FFFFFFFF_FFFFFFFF = .command (.bwPut 0xFFFFFFFF 0xFFFFFFFF) := by decide

/-- The reserved opcodes at the ends of their four ranges, offered in OPEN and in CLOSED. -/
theorem test_witness_ReservedOpcodeIsIllegal :
    (∀ op ∈ [0x00, 0x0F, 0x17, 0x1F, 0x22, 0x2F, 0x33, 0xFF],
      op ≤ 0x0F ∨ (0x17 ≤ op ∧ op ≤ 0x1F) ∨ (0x22 ≤ op ∧ op ≤ 0x2F) ∨ 0x33 ≤ op) ∧
    (CmdWord.wellFormed 0x0F_00000000_00000000 = false ∧
      ((0x0F_00000000_00000000 : CmdWord).extractLsb' 64 8).toNat = 0x0F) ∧
    nextEvent (offered (.command 0x0F_00000000_00000000) opened) = some (.command 0x0F_00000000_00000000) ∧
    (offered (.command 0x0F_00000000_00000000) opened).phase ≠ .failed ∧
    (offered (.command 0x33_00000000_00000000) closedState).phase ≠ .failed := by decide

/-- The lowest and the highest reserved bit of each format. -/
theorem test_witness_ReservedBitIsIllegal :
    (0x10_00000000_00000001 : CmdWord).extractLsb' 0 64 ≠ 0 ∧ (0x32_80000000_00000000 : CmdWord).extractLsb' 0 64 ≠ 0 ∧
      (0x11_00000000_00000100 : CmdWord).extractLsb' 8 56 ≠ 0 ∧ (0x11_80000000_00000000 : CmdWord).extractLsb' 8 56 ≠ 0 ∧
      (0x12_00000000_00000100 : CmdWord).extractLsb' 8 24 ≠ 0 ∧ (0x12_00000000_80000000 : CmdWord).extractLsb' 8 24 ≠ 0 ∧
      (0x30_00000002_00000000 : CmdWord).extractLsb' 33 31 ≠ 0 ∧ (0x31_80000000_00000000 : CmdWord).extractLsb' 33 31 ≠ 0 ∧
      nextEvent (offered (.command 0x10_00000000_00000001) opened) = some (.command 0x10_00000000_00000001) ∧
      (offered (.command 0x10_00000000_00000001) opened).phase ≠ .failed := by decide

/-- The largest operands that fit. -/
theorem test_witness_AssemblerWords :
    (255 : Nat) < 2 ^ 8 ∧ (4294967295 : Nat) < 2 ^ 32 ∧ (1 : Nat) < 2 ∧
      (AsmLine.crcUpdn 255 4294967295).words = some [0x12_FFFFFFFF_000000FF] ∧
      (AsmLine.faShdr 4294967295 1).words = some [0x30_00000001_FFFFFFFF] := by decide

/-- The first operands that do not fit. -/
theorem test_witness_AssemblerRefusals :
    (AsmLine.crcUpd 256).words = none ∧ (AsmLine.crcUpd 255).words = some [0x11_00000000_000000FF] ∧
      (AsmLine.bwPut 4294967296 0).words = none ∧ (AsmLine.faBhdr 2 0).words = none ∧
      (AsmLine.bwPut 25 0).words = some [0x20_00000019_00000000] := by decide

theorem test_witness_StepRunsDecodedCommand :
    (offered (.command 0x10_00000000_00000000) opened).program[(offered (.command 0x10_00000000_00000000) opened).pos]? =
        some (.command 0x10_00000000_00000000) ∧ decode 0x10_00000000_00000000 = .command .crcReset := by decide

theorem test_witness_StepWaitsWithoutEvent : State.reset.program.length ≤ State.reset.pos := by decide

/-- The reset input in every phase. -/
theorem test_witness_ResetValues :
    (offered .reset State.reset).program[0]? = some .reset ∧
      ∀ s ∈ [State.reset, opened, closedState, failedState],
        (offered .reset s).program[(offered .reset s).pos]? = some .reset := by decide

/-- Both rows that a failing sink turns to FAILED: the header refused at its first byte, the trailer at its close. -/
theorem test_witness_PhaseTransitions_failed :
    (let s := offered (.command 0x30_00000000_00000009) (fresh [.fail]);
      s.phase = .idle ∧ answersOk s 0 ∧ answerAt s 0 = .fail ∧ (stepped s).phase = .failed) ∧
    (let s := offered (.command 0x32_00000000_00000000) (openAt 0x39000000 8 (List.replicate 11 .ok ++ [.fail]));
      s.phase = .opened ∧ answersOk s 11 ∧ answerAt s 11 = .fail ∧ (stepped s).phase = .failed) := by decide +kernel

/-- Each row of the table of R152: no change, reset, IDLE to OPEN at levels 1 and 9, OPEN to CLOSED, any to FAILED. -/
theorem test_witness_PhaseTransitions :
    (stepped (offered (.command 0x10_00000000_00000000) opened)).phase = .opened ∧
      (stepped (offered .reset failedState)).phase = .idle ∧
      (stepped (offered (.command 0x30_00000000_00000001) (fresh oks))).phase = .opened ∧
      (stepped (offered (.command 0x30_00000000_00000009) (fresh oks))).phase = .opened ∧
      (stepped (offered (.command 0x32_00000000_00000000) opened)).phase = .closed ∧
      (stepped (offered (.command 0x32_00000000_00000000) closedState)).phase = .failed := by decide +kernel

/-- Every step gives a next state, so the hypothesis `step s = next t` of the statements about steps is met. -/
theorem test_witness_step : step State.reset = .next State.reset := rfl

/-- The three phases in which the commands of the CRC family do what their rules say. -/
theorem test_witness_CrcResults :
    (fresh []).phase ≠ .failed ∧ opened.phase ≠ .failed ∧ closedState.phase ≠ .failed := by decide

/-- Both clauses of `CRC.COMB`: lengths 0, 1 and the largest. -/
theorem test_witness_CrcCombResult :
    (0 : Word) = 0 ∧ (1 : Word) ≠ 0 ∧ (0xFFFFFFFF : Word) ≠ 0 ∧ closedState.phase ≠ .failed := by decide

theorem test_witness_CombineLaw : State.reset.phase ≠ .failed ∧ ([0x36, 0x37] : List Byte).length < 2 ^ 32 := by decide

theorem test_witness_ZeroExtensionByDoubling : (0 : Nat) < 2 ^ 32 ∧ (4294967295 : Nat) < 2 ^ 32 := by decide

/-- No byte, and the largest count a `CRC.UPDN` can have. -/
theorem test_witness_RepeatedUpdateByDoubling :
    (0 : Word).toNat < 2 ^ 32 ∧ (0xFFFFFFFF : Word).toNat < 2 ^ 32 := by decide

theorem test_witness_CrcPhaseRule :
    isCrcCommand (.crcUpdn 0 1) = true ∧ isCrcCommand .crcRdc = true ∧ isCrcCommand .bwFlush = false ∧
      failedState.phase = .failed ∧ closedState.phase ≠ .failed ∧ closedState.r = (fresh []).r ∧
      (fresh []).phase ≠ .failed := by decide

/-- After `FA.SHDR`, as the statement on the result reads asks. -/
theorem test_witness_ResultReads :
    (fresh oks).phase = .idle ∧ (after (.faShdr 9 false) (fresh oks)).phase = .opened := by decide +kernel

/-- The frame of the CRC family, each command in a phase in which it runs. -/
theorem test_witness_CrcFamilyFrame :
    exec .crcReset opened = .next (after .crcReset opened) ∧ exec (.crcUpd 0) opened = .next (after (.crcUpd 0) opened) ∧
      exec (.crcUpdn 0 1) opened = .next (after (.crcUpdn 0 1) opened) ∧
      exec (.crcComb 0 1) opened = .next (after (.crcComb 0 1) opened) ∧
      exec .crcRes opened = .next (after .crcRes opened) ∧ exec .crcRdc opened = .next (after .crcRdc opened) ∧
      exec .crcFold opened = .next (after .crcFold opened) := ⟨rfl, rfl, rfl, rfl, rfl, rfl, rfl⟩

/-- Outside OPEN, and `n = 25`, the clauses of the errors. -/
theorem test_witness_bitWriter_errors :
    State.reset.phase = .idle ∧ closedState.phase = .closed ∧ AccClean State.reset ∧ AccClean closedState ∧
      24 < (25 : Word).toNat ∧ opened.phase = .opened := by decide

/-- `n = 0` and `n = 24`, with nothing pending and with 31 bits pending. -/
theorem test_witness_BwPutResult :
    ((openAt 0 0 []).phase = .opened ∧ (0 : Word).toNat ≤ 24 ∧ answersOk (openAt 0 0 []) ((openAt 0 0 []).nacc.toNat / 8)) ∧
      (openAt 0xFF579BDE 31 oks).phase = .opened ∧ (24 : Word).toNat ≤ 24 ∧
      answersOk (openAt 0xFF579BDE 31 oks) ((openAt 0xFF579BDE 31 oks).nacc.toNat / 8) := by decide

theorem test_witness_BwPutIgnoresHighBits :
    (∀ j, j < (4 : Word).toNat → (0xFFFFFFF5 : Word).getLsbD j = (0x00000005 : Word).getLsbD j) ∧
      (∀ j, j < (24 : Word).toNat → (0xFF000001 : Word).getLsbD j = (0x00000001 : Word).getLsbD j) := by decide

/-- Nothing pending, and 31 bits pending. -/
theorem test_witness_BwFlushResult :
    ((openAt 0 0 []).phase = .opened ∧ AccClean (openAt 0 0 []) ∧ answersOk (openAt 0 0 []) ((0 + 7) / 8) ∧
        (openAt 0 0 []).nacc = 0) ∧
      (openAt 0xFF579BDE 31 oks).phase = .opened ∧ AccClean (openAt 0xFF579BDE 31 oks) ∧
      answersOk (openAt 0xFF579BDE 31 oks) (((openAt 0xFF579BDE 31 oks).nacc.toNat + 7) / 8) := by decide

/-- The failing clauses: the sink refuses the first byte, the last complete byte, and the padded byte. -/
theorem test_witness_bitWriter_sink_failure :
    ((openAt 0xFF579BDE 31 [.fail]).phase = .opened ∧ answersOk (openAt 0xFF579BDE 31 [.fail]) 0 ∧
        answerAt (openAt 0xFF579BDE 31 [.fail]) 0 = .fail ∧ (24 : Word).toNat ≤ 24 ∧
        0 < (openAt 0xFF579BDE 31 [.fail]).nacc.toNat / 8) ∧
      (answersOk (openAt 0xFF579BDE 31 [.ok, .ok, .fail]) 2 ∧
        answerAt (openAt 0xFF579BDE 31 [.ok, .ok, .fail]) 2 = .fail ∧
        2 < (openAt 0xFF579BDE 31 [.ok, .ok, .fail]).nacc.toNat / 8) ∧
      answersOk (openAt 0xFF579BDE 31 [.ok, .ok, .ok, .fail]) 3 ∧
      answerAt (openAt 0xFF579BDE 31 [.ok, .ok, .ok, .fail]) 3 = .fail ∧
      3 < ((openAt 0xFF579BDE 31 [.ok, .ok, .ok, .fail]).nacc.toNat + 7) / 8 := by decide

/-- The narrowest and the widest field, with nothing and with 31 bits pending. -/
theorem test_witness_FieldSplit :
    ((openAt 0 0 oks).phase = .opened ∧ AccClean (openAt 0 0 oks) ∧ 0 < (1 : Word).toNat ∧ (1 : Word).toNat < (2 : Word).toNat ∧
        (2 : Word).toNat ≤ 24 ∧ answersOk (openAt 0 0 oks) ((0 + 2 + 7) / 8)) ∧
      (openAt 0xFF579BDE 31 oks).phase = .opened ∧ AccClean (openAt 0xFF579BDE 31 oks) ∧
      (23 : Word).toNat < (24 : Word).toNat ∧ (24 : Word).toNat ≤ 24 ∧
      answersOk (openAt 0xFF579BDE 31 oks) ((31 + 24 + 7) / 8) := by decide

/-- Commands between the parts and the flush, in a state whose sink takes the bytes. -/
theorem test_witness_FieldSplit_between :
    (runCommands (.bwPut 24 0xABCDEF :: [.bwPut 3 5, .crcFold] ++ [.bwFlush]) opened).phase ≠ .failed ∧
      (runCommands (.bwPut 7 0x55 :: .bwPut 17 0x1CDEF :: [.bwPut 3 5, .crcFold] ++ [.bwFlush]) opened).phase ≠ .failed := by
  decide +kernel

/-- Each of the three commands that end with a `Put`, not failing. -/
theorem test_witness_AccumulatorInvariant :
    (AccClean opened ∧ opened.phase = .opened ∧ (after (.bwPut 24 0) opened).phase = .opened) ∧
      (AccClean (fresh oks) ∧ (fresh oks).phase = .idle ∧ (after (.faShdr 9 false) (fresh oks)).phase = .opened) ∧
      (after (.faBhdr true 0xFFFFFF) opened).phase = .opened ∧ (after .bwFlush opened).nacc = 0 := by decide +kernel

theorem test_witness_CommandAppendsItsBits :
    AccClean opened ∧ opened.phase ≠ .failed ∧ exec (.faBhdr true 0xFFFFFF) opened = .next (after (.faBhdr true 0xFFFFFF) opened) ∧
      (after (.faBhdr true 0xFFFFFF) opened).phase ≠ .failed := by
  refine ⟨by decide, by decide, rfl, by decide +kernel⟩

theorem test_witness_SequenceAppendsItsBits :
    AccClean opened ∧ (runCommands [.bwPut 7 0x7F, .crcFold, .bwFlush] opened).phase ≠ .failed := by decide +kernel

/-- A command whose answers are all `ok`, and one that meets a `fail`. -/
theorem test_witness_SinkAnswersDecide :
    (phaseLegal .faStrl opened.phase = true ∧ operandErrorOf .faStrl = none ∧ answersOk opened 12 ∧
        (after .faStrl opened).phase = .closed) ∧
      phaseLegal .bwFlush (openAt 0x39000000 8 [.fail]).phase = true ∧ operandErrorOf .bwFlush = none ∧
      answerAt (openAt 0x39000000 8 [.fail]) 0 = .fail := by decide +kernel

/-- A refused byte inside each framing command: the third of the header, the one the flag completes, the padded one. -/
theorem test_witness_SinkAnswersDecide_failing :
    (let s := fresh [.ok, .ok, .fail];
      phaseLegal (.faShdr 9 false) s.phase = true ∧ answersOk s 2 ∧ answerAt s 2 = .fail ∧ AccClean s) ∧
    (let s := openAt 0xFE000000 7 (List.replicate 10 .ok ++ [.fail]);
      phaseLegal (.faBhdr true 0) s.phase = true ∧ answersOk s 10 ∧ answerAt s 10 = .fail ∧ AccClean s) ∧
    (let s := openAt 0x80000000 3 (List.replicate 10 .ok ++ [.fail]);
      phaseLegal .faStrl s.phase = true ∧ answersOk s 10 ∧ answerAt s 10 = .fail ∧ AccClean s) := by decide

/-- The lowest and the highest level. -/
theorem test_witness_FaShdrResult :
    (fresh oks).phase = .idle ∧ (fresh oks).Inv ∧ 1 ≤ (1 : Word).toNat ∧ (1 : Word).toNat ≤ 9 ∧ 1 ≤ (9 : Word).toNat ∧
      (9 : Word).toNat ≤ 9 ∧ answersOk (fresh oks) 3 := by decide

/-- The largest `origPtr`, with nothing and with 31 bits pending. -/
theorem test_witness_FaBhdrResult :
    ((openAt 0 0 oks).phase = .opened ∧ AccClean (openAt 0 0 oks) ∧ (0xFFFFFF : Word).toNat < 2 ^ 24 ∧
        answersOk (openAt 0 0 oks) ((0 + 81) / 8)) ∧
      (openAt 0xFF579BDE 31 oks).phase = .opened ∧ AccClean (openAt 0xFF579BDE 31 oks) ∧
      answersOk (openAt 0xFF579BDE 31 oks) (((openAt 0xFF579BDE 31 oks).nacc.toNat + 81) / 8) := by decide

/-- Both clauses, with nothing and with 31 bits pending. -/
theorem test_witness_FaStrlResult :
    ((openAt 0 0 oks).phase = .opened ∧ AccClean (openAt 0 0 oks) ∧ (openAt 0 0 oks).leaveOpen = false ∧
        answersOk (openAt 0 0 oks) ((0 + 87) / 8 + 1)) ∧
      (let s : State := { openAt 0xFF579BDE 31 oks with leaveOpen := true };
        s.phase = .opened ∧ AccClean s ∧ s.leaveOpen = true ∧ answersOk s ((s.nacc.toNat + 87) / 8)) := by decide

theorem test_witness_FaStrlCloseFailure :
    (let s := openAt 0x39000000 8 (List.replicate 11 .ok ++ [.fail]);
      s.phase = .opened ∧ AccClean s ∧ s.leaveOpen = false ∧ answersOk s ((s.nacc.toNat + 87) / 8) ∧
        answerAt s ((s.nacc.toNat + 87) / 8) = .fail) := by decide

/-- The five commands of the frame. -/
theorem test_witness_StreamFamilyFrame :
    exec (.bwPut 3 5) opened = .next (after (.bwPut 3 5) opened) ∧ exec .bwFlush opened = .next (after .bwFlush opened) ∧
      exec (.faBhdr true 5) opened = .next (after (.faBhdr true 5) opened) ∧
      exec (.faShdr 9 true) (fresh oks) = .next (after (.faShdr 9 true) (fresh oks)) ∧
      exec .faStrl opened = .next (after .faStrl opened) := ⟨rfl, rfl, rfl, rfl, rfl⟩

/-- A non-empty block and an empty one. -/
def twoBlocks : List StreamBlock :=
  [⟨[.one 0x41], false, 0xFFFFFF, [(24, 0x080040), (0, 0)], true⟩, ⟨[.many 0x41 0], true, 0, [], false⟩]

/-- Their stream: header, one block header, one payload field, trailer. -/
theorem test_layout_length : (layoutBits 9 twoBlocks).length = 32 + 105 + 24 + 80 := by
  simp [layoutBits, twoBlocks, headerBits, trailerBits, StreamBlock.bits, StreamBlock.bytes, ByteRun.bytes, bitsOf]

/-- The operands of both are in their ranges. -/
theorem test_twoBlocks_legal : ∀ b ∈ twoBlocks, b.legal := by
  intro b hb
  simp only [twoBlocks, List.mem_cons, List.not_mem_nil, or_false] at hb
  rcases hb with rfl | rfl
  · exact ⟨by decide, by simp⟩
  · exact ⟨by decide, by simp⟩

/-- R221's listing of them; thirty-one bytes and the close. -/
theorem test_witness_StreamLayout :
    (fresh (List.replicate 32 .ok)).phase = .idle ∧ (fresh (List.replicate 32 .ok)).Inv ∧ 1 ≤ (9 : Word).toNat ∧
      (9 : Word).toNat ≤ 9 ∧ (∀ b ∈ twoBlocks, b.legal) ∧
      StreamIssued 9 false twoBlocks (hostSequence 9 false twoBlocks) ∧
      answersOk (fresh (List.replicate 32 .ok))
        (((layoutBits 9 twoBlocks).length + 7) / 8 + (if false then 0 else 1)) := by
  rw [test_layout_length]
  exact ⟨by decide, by decide, by decide, by decide, test_twoBlocks_legal, hostSequence_issued _ _ _, by decide⟩

/-- Two blocks of one byte each, the first with a payload of two fields. -/
def wovenBlocks : List StreamBlock :=
  [⟨[.one 0x41], false, 3, [(24, 0x080040), (5, 0x1F)], false⟩, ⟨[.many 0x42 1], true, 4, [(1, 1)], true⟩]

/-- The first block's fold between its two fields, the second block's `crc.reset`, update and fold before the last of them,
and a read of the CRC. -/
def wovenCommands : List Instr :=
  [.faShdr 9 false, .crcReset, .crcUpd 0x41, .faBhdr false 3, .bwPut 24 0x080040, .crcFold, .crcRes, .crcReset,
    .crcUpdn 0x42 1, .crcFold, .bwPut 5 0x1F, .faBhdr true 4, .bwPut 1 1, .faStrl]

theorem test_woven_blocksIssued :
    BlocksIssued [] [] wovenBlocks
      [.crcReset, .crcUpd 0x41, .faBhdr false 3, .bwPut 24 0x080040, .crcFold, .crcReset, .crcUpdn 0x42 1, .crcFold,
        .bwPut 5 0x1F, .faBhdr true 4, .bwPut 1 1] := by
  simp only [BlocksIssued, wovenBlocks, StreamBlock.bytes, StreamBlock.crcBefore, StreamBlock.crcAfter, StreamBlock.header,
    StreamBlock.puts]
  exact ⟨[.crcReset, .crcUpd 0x41], _, rfl, merged_right _,
    [.bwPut 24 0x080040, .crcFold, .crcReset, .crcUpdn 0x42 1, .crcFold, .bwPut 5 0x1F], _, rfl,
    .left _ (.right _ (.right _ (.right _ (.right _ (merged_left _))))), merged_left _⟩

/-- R221 with commands interleaved: a block's fold amid its payload, and the next block's CRC commands there too. -/
theorem test_woven_isHostSequence : IsHostSequence 9 false wovenBlocks wovenCommands := by
  refine ⟨by decide, by decide, ⟨by decide, ?_⟩, ?_, _, [.crcRes], test_woven_blocksIssued, by simp, ?_⟩
  · simp [wovenBlocks, StreamBlock.bytes, ByteRun.bytes]
  · intro b hb
    simp only [wovenBlocks, List.mem_cons, List.not_mem_nil, or_false] at hb
    rcases hb with rfl | rfl <;> exact ⟨by decide, by simp [BitVec.toNat_ofNat]⟩
  · exact .left _ (.left _ (.left _ (.left _ (.left _ (.left _ (.right _ (merged_left _)))))))

/-- The block of an empty input. -/
def emptyBlock : StreamBlock := ⟨[], false, 0, [], false⟩

/-- Both clauses: an input whose last block is not empty, its commands interleaved; and the empty input, which takes
fourteen bytes and the close. -/
theorem test_witness_HostSequenceOfInput :
    (∃ last, IsHostSequence 9 false wovenBlocks wovenCommands ∧ wovenBlocks.getLast? = some last ∧ last.bytes ≠ []) ∧
      IsHostSequence 9 false [emptyBlock] (hostSequence 9 false [emptyBlock]) ∧
      [emptyBlock].getLast? = some emptyBlock ∧ emptyBlock.bytes = [] ∧ (fresh oks).phase = .idle ∧ (fresh oks).Inv ∧
      answersOk (fresh oks) (14 + (if false then 0 else 1)) := by
  refine ⟨⟨_, test_woven_isHostSequence, rfl, by decide⟩,
    ⟨by decide, by decide, ⟨by decide, by simp⟩, by simp [emptyBlock, StreamBlock.legal], hostSequence_issued _ _ _⟩,
    rfl, rfl, by decide, by decide, by decide⟩

/-- IDLE and CLOSED for four commands, OPEN and CLOSED for `FA.SHDR`. -/
theorem test_witness_InvalidStateErrors :
    State.reset.phase = .idle ∧ closedState.phase = .closed ∧ opened.phase = .opened := by decide

/-- The levels next to the range, and the largest. -/
theorem test_witness_ConfigurationError :
    State.reset.phase = .idle ∧ (0 : Word).toNat < 1 ∧ 9 < (10 : Word).toNat ∧ 9 < (0xFFFFFFFF : Word).toNat := by decide

/-- The first width and the first `origPtr` out of range, and the largest. -/
theorem test_witness_FieldRangeErrors :
    opened.phase = .opened ∧ 24 < (25 : Word).toNat ∧ 24 < (0xFFFFFFFF : Word).toNat ∧ 2 ^ 24 ≤ (0x1000000 : Word).toNat ∧
      2 ^ 24 ≤ (0xFFFFFFFF : Word).toNat := by decide

theorem test_witness_FailedIgnoresEveryWord :
    (offered (.command 0x00_00000000_00000000) failedState).phase = .failed ∧
      nextEvent (offered (.command 0x00_00000000_00000000) failedState) = some (.command 0x00_00000000_00000000) := by decide

/-- A word for each rank of R191. -/
theorem test_witness_ErrorPriority :
    nextEvent (offered (.command 0x30_00000002_0000000A) State.reset) = some (.command 0x30_00000002_0000000A) ∧
      decode 0x30_00000002_0000000A = .illegal .reservedBits ∧
      phaseLegal (.bwPut 25 0) State.reset.phase = false ∧ operandErrorOf (.faShdr 10 false) = some .configuration ∧
      operandErrorOf (.bwPut 25 0) = some .fieldRange ∧ operandErrorOf (.bwPut 24 0) = none := by decide

/-- A step that is no reset, with an error recorded before it, and one with none. -/
theorem test_witness_FirstErrorIsKept :
    step (offered (.command 0) failedState) = .next (stepped (offered (.command 0) failedState)) ∧
      nextEvent (offered (.command 0) failedState) ≠ some .reset ∧ failedState.err ≠ none ∧
      (stepped (offered (.command 0) opened)).err ≠ opened.err := by
  refine ⟨rfl, by decide, by decide, by decide⟩

/-- Each register is changed by a command that writes it. -/
theorem test_witness_RegisterWriters :
    (after (.crcUpd 0x41) opened).r ≠ opened.r ∧ (after .crcFold { opened with r := 0 }).c ≠ opened.c ∧
      (after .crcRes { opened with r := 0 }).res ≠ opened.res ∧
      (after (.faShdr 9 true) (fresh oks)).level ≠ (fresh oks).level ∧ (after .faStrl opened).sinkClosed ≠ opened.sinkClosed ∧
      (after .bwFlush opened).sinkOut ≠ opened.sinkOut := by decide +kernel

/-- The invariant holds in a state of each phase. -/
theorem test_witness_EveryStepKeepsInvariant :
    State.reset.Inv ∧ opened.Inv ∧ (openAt 0xFF579BDE 31 []).Inv ∧ closedState.Inv ∧ failedState.Inv :=
  ⟨by decide, by decide, by decide, by decide, by decide⟩

/-- The invariant is no tautology: a bit below the pending ones, a closed sink in IDLE, an error outside FAILED. -/
theorem test_invariant_excludes :
    ¬ (openAt 0x39000001 8 []).Inv ∧ ¬ ({ State.reset with sinkClosed := true } : State).Inv ∧
      ¬ ({ opened with err := some .fieldRange } : State).Inv :=
  ⟨by decide, by decide, by decide⟩

theorem test_witness_BitWriterIgnoresCrcRegisters :
    exec (.bwPut 3 5) opened = .next (after (.bwPut 3 5) opened) ∧ exec .bwFlush opened = .next (after .bwFlush opened) ∧
      exec (.faShdr 9 true) (fresh oks) = .next (after (.faShdr 9 true) (fresh oks)) := ⟨rfl, rfl, rfl⟩

end Sys2Proof.Tests
end

section
/-! The proofs of the statements of 10_state.md: one step, the invariant of the registers, their writers, the layout of
`STATUS`, and what the bit writer does not read. -/

namespace Sys2Proof.Machine

/-! ### One step (10_state.md R21, R33) -/

/-- Settles O11: the word found at the host's position is the step's event, and its decoding picks the arm. -/
theorem stepRunsDecodedCommand : Obligations.StepRunsDecodedCommand := by
  unfold Obligations.StepRunsDecodedCommand
  intro s w i hword hdecode
  have hevent : nextEvent s = some (.command w) := hword
  simp only [step, hevent, hdecode, advance_eq]

/-! ### The invariant of the registers (10_state.md R25, R28 to R31) -/

/-- In every phase the level is at most 9: 0 before a stream, 1..9 in one, and either after an error. -/
theorem State.Inv.level_le {s : State} (h : s.Inv) : s.level.toNat ≤ 9 := by
  obtain ⟨-, ⟨hidle, hopen, hclosed, hfailed⟩, -⟩ := h
  cases hp : s.phase with
  | idle => simp [(hidle hp).2.1]
  | opened => exact (hopen hp).2.1
  | closed =>
    obtain ⟨-, -, h9, -⟩ := hclosed hp
    exact h9
  | failed => exact hfailed hp

/-- Outside FAILED no error is recorded. -/
theorem State.Inv.err_eq_none {s : State} (h : s.Inv) (hp : s.phase ≠ .failed) : s.err = none := by
  obtain ⟨-, -, herr, -⟩ := h
  by_contra hne
  exact hp (herr.mpr hne)

/-- What the invariant says in OPEN (R29, R31). -/
theorem inv_iff_of_opened {s : State} (hp : s.phase = .opened) :
    s.Inv ↔ AccClean s ∧ (1 ≤ s.level.toNat ∧ s.level.toNat ≤ 9) ∧ s.sinkClosed = false ∧ s.err = none := by
  constructor
  · intro h
    have he := h.err_eq_none (by simp [hp])
    obtain ⟨hc, ⟨-, hr, -⟩, -⟩ := h
    obtain ⟨h1, h9, hk⟩ := hr hp
    exact ⟨hc, ⟨h1, h9⟩, hk, he⟩
  · rintro ⟨hc, ⟨h1, h9⟩, hk, he⟩
    exact ⟨hc, by simp [PhaseRegisters, hp, h1, h9, hk], by simp [ErrorPhase, hp, he]⟩

/-- What the invariant says in CLOSED: nothing pending, the sink closed unless LEAVE_OPEN (R157, R158). -/
theorem inv_of_closed {s : State} (hp : s.phase = .closed) (hc : AccClean s) (hn : s.nacc = 0)
    (hl : 1 ≤ s.level.toNat ∧ s.level.toNat ≤ 9) (hk : s.sinkClosed = !s.leaveOpen) (he : s.err = none) : s.Inv :=
  ⟨hc, by simp [PhaseRegisters, hp, hn, hl, hk], by simp [ErrorPhase, hp, he]⟩

/-- The error entry meets the invariant: in FAILED it asks only for a clean accumulator, a level of at most 9 and an error
that can be raised (R186, R189). -/
theorem inv_raiseError {e : ErrorKind} {s : State} (hc : AccClean s) (hl : s.level.toNat ≤ 9)
    (hs : s.err ≠ some .formatOverflow) (he : e ≠ .formatOverflow) : (raiseError e s).Inv := by
  refine ⟨hc, ?_, ?_⟩
  · simp only [PhaseRegisters, raiseError_phase]
    exact ⟨nofun, nofun, nofun, fun _ => hl⟩
  · simp only [ErrorPhase, raiseError_phase, raiseError_err]
    split <;> simp_all

/-- The error entry from a state with the invariant. -/
theorem State.Inv.raiseError {e : ErrorKind} {s : State} (h : s.Inv) (he : e ≠ .formatOverflow) :
    (Machine.raiseError e s).Inv := by
  have hl := h.level_le
  obtain ⟨hc, -, -, hs⟩ := h
  exact inv_raiseError hc hl hs he

/-- The invariant says nothing of `R`. -/
theorem inv_setR (s : State) (v : Word) : (s.setR v).Inv ↔ s.Inv := Iff.rfl

/-- The invariant says nothing of `C`. -/
theorem inv_setC (s : State) (v : Word) : (s.setC v).Inv ↔ s.Inv := Iff.rfl

/-- The invariant says nothing of `RES`. -/
theorem inv_setRes (s : State) (v : Word) : (s.setRes v).Inv ↔ s.Inv := Iff.rfl

/-- The invariant says nothing of the host's position. -/
theorem inv_advance (s : State) : (advance s).Inv ↔ s.Inv := Iff.rfl

/-- The reset values meet the invariant, whatever the sink and the host's list. -/
theorem inv_resetInput (s : State) : (resetInput s).Inv := by
  simp [resetInput_eq, State.Inv, AccClean, PhaseRegisters, ErrorPhase]

/-! ### The bodies of the commands keep the invariant -/

/-- A body of `Put` calls and flushes keeps the invariant in OPEN: it leaves the accumulator clean and, unless a refused
byte ends it in FAILED, the other registers as they were (41_bitwriter.md R134; 60_exceptions.md R184). -/
theorem Appends.inv {s : State} {bits : List Bool} {m : Nat} {p : Progress} (h : Appends s bits m p)
    (hp : s.phase = .opened) (hs : s.Inv) : p.state.Inv := by
  obtain ⟨-, hl, hk, he⟩ := (inv_iff_of_opened hp).mp hs
  cases p with
  | going t =>
    obtain ⟨hc, -, k, bs, -, -, hw⟩ := h
    obtain ⟨-, -, -, hp', he', hl', -, hk', -⟩ := hw.frame
    refine (inv_iff_of_opened (hp'.trans hp)).mpr ⟨hc, ?_, hk'.trans hk, he'.trans he⟩
    rwa [hl']
  | ended t =>
    obtain ⟨k, bs, u, pre, rfl, hc, -, -, -, -, -, hw, -⟩ := h
    obtain ⟨-, -, -, -, he', hl', -⟩ := hw.frame
    exact inv_raiseError hc (by rw [hl']; exact hl.2) (by simp [he', he]) (by decide)

/-- The operand check of `FA.SHDR` passes for the levels 1..9 (60_exceptions.md R182). -/
theorem operandErrorOf_faShdr_eq_none_iff {level : Word} {leaveOpen : Bool} :
    operandErrorOf (.faShdr level leaveOpen) = none ↔ 1 ≤ level.toNat ∧ level.toNat ≤ 9 := by
  simp only [operandErrorOf]
  split <;> simp <;> omega

/-- The operand check of `BW.PUT` passes for the widths up to 24 (60_exceptions.md R188). -/
theorem operandErrorOf_bwPut_eq_none_iff {n value : Word} : operandErrorOf (.bwPut n value) = none ↔ n.toNat ≤ 24 := by
  simp [operandErrorOf]

/-- The registers that open a stream meet the invariant of OPEN (42_field_assembler.md R151). -/
theorem inv_openStream {level : Word} {leaveOpen : Bool} {s : State} (hs : s.Inv) (hp : s.phase = .idle)
    (h1 : 1 ≤ level.toNat) (h9 : level.toNat ≤ 9) : (openStream level leaveOpen s).Inv := by
  have hl : (openStream level leaveOpen s).level.toNat = level.toNat := by
    simp [openStream, State.setStream]
    omega
  have he := hs.err_eq_none (by simp [hp])
  obtain ⟨hc, ⟨hidle, -⟩, -⟩ := hs
  obtain ⟨-, -, -, hk⟩ := hidle hp
  exact (inv_iff_of_opened rfl).mpr ⟨hc, by omega, hk, he⟩

theorem Progress.andThen_going {p : Progress} {f : State → Progress} {t : State} (h : p.andThen f = .going t) :
    ∃ u, p = .going u ∧ f u = .going t := by
  cases p with
  | going u => exact ⟨u, rfl, h⟩
  | ended u => cases h

/-- A body that goes on leaves the accumulator clean. -/
theorem Appends.clean {s t : State} {bits : List Bool} {m : Nat} {p : Progress} (h : Appends s bits m p)
    (hp : p = .going t) : AccClean t := by
  subst hp
  exact h.1

/-- The trailer's flush leaves nothing pending (R157). -/
theorem putTrailerFields_going_nacc {s t : State} (hc : AccClean s) (h : putTrailerFields s = .going t) :
    t.nacc = 0 := by
  obtain ⟨u, hu, h⟩ := Progress.andThen_going h
  obtain ⟨v, hv, h⟩ := Progress.andThen_going h
  have hcu : AccClean u := (putBytes_appends _ hc).clean hu
  have hcv : AccClean v := (putBytes_appends _ hcu).clean hv
  exact (flush_going_nacc hcv h).1

/-- The close keeps the invariant, from OPEN with nothing pending: the sink is left open as LEAVE_OPEN says, or closed, or
it refuses and the error is entered (R158). -/
theorem closeSink_inv {s : State} (hs : s.Inv) (hp : s.phase = .opened) (hn : s.nacc = 0) :
    (closeSink (s.setPhase .closed)).state.Inv := by
  obtain ⟨hc, hl, hk, he⟩ := (inv_iff_of_opened hp).mp hs
  rcases closeSink_cases (s.setPhase .closed) with ⟨ho, h⟩ | ⟨ho, -, h⟩ | ⟨-, -, h⟩ <;> rw [h]
  · exact inv_of_closed rfl hc hn hl (hk.trans (congrArg (!·) ho).symm) he
  · exact inv_of_closed rfl hc hn hl (congrArg (!·) ho).symm he
  · exact inv_raiseError hc hl.2 (by simp [consumeAnswers, he]) (by decide)

/-- The trailer, its flush and the close keep the invariant (R157, R158). -/
theorem putTrailer_inv {s : State} (hs : s.Inv) (hp : s.phase = .opened) : (putTrailer s).state.Inv := by
  have ha := putTrailerFields_appends hs.1
  have hinv := ha.inv hp hs
  rw [putTrailer_eq]
  cases hf : putTrailerFields s with
  | ended t => rwa [hf] at hinv
  | going t =>
    rw [hf] at hinv
    obtain ⟨k, bs, hw⟩ := ha.wrote hf
    obtain ⟨-, -, -, hpt, -⟩ := hw.frame
    exact closeSink_inv hinv (hpt.trans hp) (putTrailerFields_going_nacc hs.1 hf)

/-- Every body keeps the invariant where its command's checks pass. -/
theorem bodyOf_inv {i : Instr} {s : State} (hs : s.Inv) (hl : phaseLegal i s.phase = true)
    (ho : operandErrorOf i = none) : (bodyOf i s).state.Inv := by
  have hopen : (s.phase == .opened) = true → s.phase = .opened := beq_iff_eq.mp
  cases i with
  | crcReset => exact (inv_setR s _).mpr hs
  | crcUpd byte => exact (inv_setR s _).mpr hs
  | crcUpdn byte count => exact (inv_setR s _).mpr hs
  | crcComb crc len => exact (inv_setR s _).mpr hs
  | crcRes => exact (inv_setRes s _).mpr hs
  | crcRdc => exact (inv_setRes s _).mpr hs
  | crcFold => exact (inv_setC s _).mpr hs
  | bwPut n value => exact (put_appends (operandErrorOf_bwPut_eq_none_iff.mp ho) hs.1).inv (hopen hl) hs
  | bwFlush => exact (flush_appends hs.1).inv (hopen hl) hs
  | faBhdr rand origPtr => exact (putBlockHeader_appends hs.1).inv (hopen hl) hs
  | faStrl => exact putTrailer_inv hs (hopen hl)
  | faShdr level leaveOpen =>
    obtain ⟨h1, h9⟩ := operandErrorOf_faShdr_eq_none_iff.mp ho
    have hstream := inv_openStream (leaveOpen := leaveOpen) hs (beq_iff_eq.mp hl) h1 h9
    exact (putBytes_appends _ hstream.1).inv rfl hstream

/-- No operand check raises FormatOverflowError (60_exceptions.md R189). -/
theorem operandErrorOf_ne_formatOverflow (i : Instr) : operandErrorOf i ≠ some .formatOverflow := by
  cases i <;> simp [operandErrorOf]

/-- Every command keeps the invariant. -/
theorem after_inv (i : Instr) {s : State} (hs : s.Inv) : (after i s).Inv := by
  rcases after_cases i s with ⟨-, h⟩ | ⟨-, -, h⟩ | ⟨e, -, ho, h⟩ | ⟨hl, ho, h⟩ <;> rw [h]
  · exact hs
  · exact hs.raiseError (by decide)
  · exact hs.raiseError fun he => operandErrorOf_ne_formatOverflow i (he ▸ ho)
  · exact bodyOf_inv hs hl ho

/-- A rejected word keeps the invariant. -/
theorem rejectWord_inv {s : State} (hs : s.Inv) : (rejectWord s).Inv := by
  by_cases hp : s.phase = .failed
  · rwa [rejectWord_failed hp]
  · rw [rejectWord_eq hp]
    exact hs.raiseError (by decide)

/-- Settles O55, by the four things a step can be: a wait, the reset input, a command, a rejected word. -/
theorem everyStepKeepsInvariant : Obligations.EveryStepKeepsInvariant := by
  unfold Obligations.EveryStepKeepsInvariant
  intro s t hs h
  rcases step_cases h with ⟨-, rfl⟩ | ⟨-, rfl⟩ | ⟨w, i, -, -, rfl⟩ | ⟨w, why, -, -, rfl⟩
  · exact hs
  · exact inv_resetInput _
  · exact after_inv i ((inv_advance s).mpr hs)
  · exact rejectWord_inv ((inv_advance s).mpr hs)

/-! ### The writers of the registers (10_state.md R21 to R23, R26, R29 to R31) -/

/-- What a row of sink writes leaves as it was, whether it goes on or a refused byte ends it. -/
theorem Calls.kept {s : State} {p : Progress} (h : Calls s p) :
    p.state.r = s.r ∧ p.state.c = s.c ∧ p.state.res = s.res ∧ p.state.level = s.level ∧
      p.state.leaveOpen = s.leaveOpen ∧ p.state.sinkClosed = s.sinkClosed ∧ p.state.sinkCloses = s.sinkCloses ∧
      p.state.program = s.program ∧ p.state.pos = s.pos := by
  rw [h.frame]
  simp

/-- What the end of a stream leaves as it was, from `s` to `t`: the CRC and stream registers, the host's list and position,
and with LEAVE_OPEN also SINK_CLOSED and the closes (R157, R158). -/
def KeptByTrailer (s t : State) : Prop :=
  t.r = s.r ∧ t.c = s.c ∧ t.res = s.res ∧ t.level = s.level ∧ t.leaveOpen = s.leaveOpen ∧ t.program = s.program ∧
    t.pos = s.pos ∧ (s.leaveOpen = true → t.sinkClosed = s.sinkClosed ∧ t.sinkCloses = s.sinkCloses)

theorem closeSink_kept (s : State) : KeptByTrailer s (closeSink s).state := by
  rcases closeSink_cases s with ⟨-, h⟩ | ⟨ho, -, h⟩ | ⟨ho, -, h⟩ <;> rw [h]
  · simp [KeptByTrailer, Progress.state]
  · simp [KeptByTrailer, Progress.state, consumeAnswers, ho]
  · simp [KeptByTrailer, Progress.state, consumeAnswers, raiseError, ho]

theorem putTrailer_kept (s : State) : KeptByTrailer s (putTrailer s).state := by
  have hfields := (putTrailerFields_calls s).kept
  rw [putTrailer_eq]
  cases hf : putTrailerFields s with
  | ended t =>
    rw [hf] at hfields
    obtain ⟨hr, hc, hres, hl, ho, hk, hks, hprog, hpos⟩ := hfields
    exact ⟨hr, hc, hres, hl, ho, hprog, hpos, fun _ => ⟨hk, hks⟩⟩
  | going t =>
    rw [hf] at hfields
    simp only [Progress.state] at hfields
    simpa [KeptByTrailer, Progress.andThen, hfields] using closeSink_kept (t.setPhase .closed)

section
variable (level : Word) (leaveOpen : Bool) (s : State)

@[simp] theorem openStream_r : (openStream level leaveOpen s).r = s.r := rfl
@[simp] theorem openStream_c : (openStream level leaveOpen s).c = 0 := rfl
@[simp] theorem openStream_res : (openStream level leaveOpen s).res = s.res := rfl
@[simp] theorem openStream_sinkClosed : (openStream level leaveOpen s).sinkClosed = s.sinkClosed := rfl
@[simp] theorem openStream_sinkCloses : (openStream level leaveOpen s).sinkCloses = s.sinkCloses := rfl
@[simp] theorem openStream_program : (openStream level leaveOpen s).program = s.program := rfl
@[simp] theorem openStream_pos : (openStream level leaveOpen s).pos = s.pos := rfl

end

/-- A command that does not run its body writes `PHASE` and `ERR` at most (60_exceptions.md R186, R187). -/
theorem after_eq_phase_err_or_body (i : Instr) (s : State) :
    (∃ p e, after i s = { s with phase := p, err := e }) ∨ after i s = (bodyOf i s).state := by
  rcases after_cases i s with ⟨-, h⟩ | ⟨-, -, h⟩ | ⟨e, -, -, h⟩ | ⟨-, -, h⟩
  · exact .inl ⟨s.phase, s.err, h⟩
  · exact .inl ⟨_, _, h⟩
  · exact .inl ⟨_, _, h⟩
  · exact .inr h

/-- Settles O53: a command that does not run its body writes none of these registers, nor does a body of sink writes, and
what is left are the registers that the bodies of the CRC commands, of `FA.SHDR` and of `FA.STRL` write. -/
theorem registerWriters : Obligations.RegisterWriters := by
  unfold Obligations.RegisterWriters
  intro i s t h
  rw [exec_next_iff] at h
  subst h
  rcases after_eq_phase_err_or_body i s with ⟨p, e, h⟩ | h <;> rw [h]
  · cases i <;> simp
  · cases i with
    | crcReset | crcUpd | crcUpdn | crcRes | crcComb | crcFold | crcRdc => simp [bodyOf, Progress.state]
    | bwPut n value => simp [bodyOf, (put_calls n.toNat value s).kept]
    | bwFlush => simp [bodyOf, (flush_calls s).kept]
    | faShdr level leaveOpen => simp [bodyOf, (putBytes_calls _ (openStream level leaveOpen s)).kept]
    | faBhdr rand origPtr => simp [bodyOf, (putBlockHeader_calls rand origPtr s).kept]
    | faStrl =>
      obtain ⟨hr, hc, hres, hl, ho, hprog, hpos, hk⟩ := putTrailer_kept s
      cases hopen : s.leaveOpen with
      | true => simp [bodyOf, hr, hc, hres, hl, ho, hprog, hpos, hk hopen, hopen]
      | false => simp [bodyOf, hr, hc, hres, hl, ho, hprog, hpos, hopen]

/-! ### The layout of STATUS (10_state.md R32) -/

/-- The field `v` placed at bit `k` of a word whose other bits are 0. -/
def fieldAt {n : Nat} (k : Nat) (v : BitVec n) : Word := v.setWidth 32 <<< k

/-- `STATUS` as its seven fields, each at its place. -/
theorem statusWord_eq_fields (s : State) :
    statusWord s =
      fieldAt 0 (phaseCode s.phase) ||| fieldAt 4 (errorCode s.err) ||| fieldAt 8 s.nacc ||| fieldAt 16 s.level |||
        fieldAt 20 (BitVec.ofBool s.leaveOpen) ||| fieldAt 21 (BitVec.ofBool s.sinkClosed) |||
        fieldAt 22 (BitVec.ofBool (errorOutput s)) := by
  simp [statusWord, fieldAt, flagBit]

theorem getLsbD_fieldAt {n : Nat} (k : Nat) (v : BitVec n) (i : Nat) :
    (fieldAt k v).getLsbD i = (decide (i < 32) && !decide (i < k) && v.getLsbD (i - k)) := by
  simp only [fieldAt, BitVec.getLsbD_shiftLeft, BitVec.getLsbD_setWidth]
  by_cases hi : i < 32
  · simp [show i - k < 32 by omega]
  · simp [hi]

/-- A field read at its own place. -/
theorem extractLsb'_fieldAt_same {n : Nat} (k : Nat) (v : BitVec n) (h : k + n ≤ 32) :
    (fieldAt k v).extractLsb' k n = v := by
  refine BitVec.eq_of_getLsbD_eq fun i hi => ?_
  rw [BitVec.getLsbD_extractLsb', getLsbD_fieldAt]
  simp [hi, show k + i < 32 by omega]

/-- A field has no bit at the places beside its own. -/
theorem extractLsb'_fieldAt_disjoint {n : Nat} (k : Nat) (v : BitVec n) (j m : Nat) (h : j + m ≤ k ∨ k + n ≤ j) :
    (fieldAt k v).extractLsb' j m = 0#m := by
  refine BitVec.eq_of_getLsbD_eq fun i hi => ?_
  rw [BitVec.getLsbD_extractLsb', getLsbD_fieldAt]
  rcases h with h | h
  · simp [show j + i < k by omega]
  · simp [BitVec.getLsbD_of_ge v (j + i - k) (by omega)]

/-- A bit of a word as a field of one bit. -/
theorem getLsbD_eq_extractLsb' (w : Word) (i : Nat) : w.getLsbD i = (w.extractLsb' i 1).getLsbD 0 := by
  simp

/-- The error output is 1 exactly in FAILED (R32, R193). -/
theorem errorOutput_iff (s : State) : errorOutput s = true ↔ s.phase = .failed := beq_iff_eq

/-- Settles O54: `STATUS` is the or of its fields, and at the place of one all the others read 0. -/
theorem statusLayout : Obligations.StatusLayout := by
  unfold Obligations.StatusLayout
  intro s
  have hbit : ∀ f : Bool, (BitVec.ofBool f).getLsbD 0 = f := by decide
  have hreset : statusWord State.reset = 0 := by decide
  rw [hreset, getLsbD_eq_extractLsb' _ 20, getLsbD_eq_extractLsb' _ 21, getLsbD_eq_extractLsb' _ 22,
    statusWord_eq_fields]
  simp (disch := omega) only [BitVec.extractLsb'_or, extractLsb'_fieldAt_same, extractLsb'_fieldAt_disjoint,
    BitVec.or_zero, BitVec.zero_or, BitVec.ofNat_eq_ofNat, hbit, errorOutput_iff, true_and, and_true]
  exact ⟨rfl, rfl⟩

/-! ### The bit writer and the CRC registers (10_state.md R22, R23, R26; 41_bitwriter.md R132, R133) -/

/-- `s` with other values in the CRC registers `R`, `C` and `RES`. -/
def State.withCrc (r c res : Word) (s : State) : State := { s with r := r, c := c, res := res }

/-- The progress made, with other values in the CRC registers. -/
def Progress.withCrc (r c res : Word) : Progress → Progress
  | .going s => .going (s.withCrc r c res)
  | .ended s => .ended (s.withCrc r c res)

/-- `f` neither reads nor writes the CRC registers: it does the same whatever they hold. -/
def IgnoresCrc (f : State → Progress) : Prop := ∀ r c res s, f (s.withCrc r c res) = (f s).withCrc r c res

theorem Progress.withCrc_state (r c res : Word) (p : Progress) :
    (p.withCrc r c res).state = p.state.withCrc r c res := by cases p <;> rfl

theorem IgnoresCrc.going {g : State → State} (h : ∀ r c res s, g (s.withCrc r c res) = (g s).withCrc r c res) :
    IgnoresCrc fun s => .going (g s) := fun r c res s => congrArg Progress.going (h r c res s)

theorem IgnoresCrc.andThen {f g : State → Progress} (hf : IgnoresCrc f) (hg : IgnoresCrc g) :
    IgnoresCrc fun s => (f s).andThen g := by
  intro r c res s
  simp only [hf r c res s]
  cases f s with
  | going t => exact hg r c res t
  | ended t => rfl

/-- A choice made by what is not a CRC register. -/
theorem IgnoresCrc.ite {P : State → Prop} [DecidablePred P] {f g : State → Progress}
    (hP : ∀ r c res s, P (s.withCrc r c res) ↔ P s) (hf : IgnoresCrc f) (hg : IgnoresCrc g) :
    IgnoresCrc fun s => if P s then f s else g s := by
  intro r c res s
  simp only [hP r c res s]
  split
  · exact hf r c res s
  · exact hg r c res s

/-- A write of the accumulator's top byte, the only byte the bit writer gives the sink. -/
theorem sinkWrite_topByte_ignoresCrc : IgnoresCrc fun s => sinkWrite (topByte s) s := by
  intro r c res s
  have hanswer : nextAnswer (s.withCrc r c res) = nextAnswer s := rfl
  simp only [sinkWrite, hanswer]
  cases nextAnswer s <;> rfl

theorem drainLoop_ignoresCrc (k : Nat) : IgnoresCrc (drainLoop k) := by
  induction k with
  | zero => exact .going fun _ _ _ _ => rfl
  | succ k ih =>
    exact .ite (fun _ _ _ _ => Iff.rfl)
      (sinkWrite_topByte_ignoresCrc.andThen fun r c res s => ih r c res (s.setPending (s.acc <<< 8) (s.nacc - 8)))
      (.going fun _ _ _ _ => rfl)

theorem put_ignoresCrc (n : Nat) (v : Word) : IgnoresCrc (put n v) := by
  rw [funext (put_eq n v)]
  exact (drainLoop_ignoresCrc 3).andThen (.going fun _ _ _ _ => rfl)

theorem putBytes_ignoresCrc (bs : List Byte) : IgnoresCrc (putBytes bs) := by
  induction bs with
  | nil => exact .going fun _ _ _ _ => rfl
  | cons b bs ih => exact (put_ignoresCrc 8 (b.setWidth 32)).andThen ih

theorem flush_ignoresCrc : IgnoresCrc flush :=
  (drainLoop_ignoresCrc 3).andThen <| .ite (fun _ _ _ _ => Iff.rfl)
    (sinkWrite_topByte_ignoresCrc.andThen (.going fun _ _ _ _ => rfl)) (.going fun _ _ _ _ => rfl)

/-- The checks of a command do not read the CRC registers and the error entry does not write them: what its body, where it
runs, makes of them is all that the command does. -/
theorem after_withCrc {i : Instr} {r c c' res : Word} {s : State}
    (hbody : phaseLegal i s.phase = true → operandErrorOf i = none →
      bodyOf i (s.withCrc r c res) = (bodyOf i s).withCrc r c' res)
    (hskip : ¬ (phaseLegal i s.phase = true ∧ operandErrorOf i = none) → c' = c) :
    after i (s.withCrc r c res) = (after i s).withCrc r c' res := by
  rcases after_cases i s with ⟨hp, h⟩ | ⟨hp, hl, h⟩ | ⟨e, hl, ho, h⟩ | ⟨hl, ho, h⟩ <;> rw [h]
  · rw [hskip (by simp [hp, phaseLegal_failed])]
    exact after_failed i hp
  · rw [hskip (by simp [hl])]
    exact after_invalid hp hl
  · rw [hskip (by simp [ho])]
    exact after_operand hl ho
  · rw [← Progress.withCrc_state, ← hbody hl ho]
    exact after_body hl ho

/-- A command whose body ignores the CRC registers ignores them. -/
theorem IgnoresCrc.after {i : Instr} (h : IgnoresCrc (bodyOf i)) (r c res : Word) (s : State) :
    Machine.after i (s.withCrc r c res) = (Machine.after i s).withCrc r c res :=
  after_withCrc (fun _ _ => h r c res s) fun _ => rfl

/-- What `FA.SHDR` leaves in `C`, where it found `c`: 0 when its checks pass (R151). -/
def shdrC (level : Word) (s : State) (c : Word) : Word :=
  if s.phase = .idle ∧ 1 ≤ level.toNat ∧ level.toNat ≤ 9 then 0 else c

theorem after_faShdr_withCrc (level : Word) (leaveOpen : Bool) (r c res : Word) (s : State) :
    after (.faShdr level leaveOpen) (s.withCrc r c res) =
      (after (.faShdr level leaveOpen) s).withCrc r (shdrC level s c) res := by
  have hlegal : phaseLegal (.faShdr level leaveOpen) s.phase = true ↔ s.phase = .idle := beq_iff_eq
  refine after_withCrc (fun hl ho => ?_) fun hskip => ?_
  · rw [shdrC, if_pos ⟨hlegal.mp hl, operandErrorOf_faShdr_eq_none_iff.mp ho⟩]
    exact putBytes_ignoresCrc _ r 0 res (openStream level leaveOpen s)
  · rw [hlegal, operandErrorOf_faShdr_eq_none_iff] at hskip
    exact if_neg hskip

theorem after_faShdr_c (level : Word) (leaveOpen : Bool) (s : State) :
    (after (.faShdr level leaveOpen) s).c = shdrC level s s.c :=
  congrArg State.c (after_faShdr_withCrc level leaveOpen s.r s.c s.res s)

/-- Settles O57: the bodies of `BW.PUT` and `BW.FLUSH` ignore the CRC registers, and that of `FA.SHDR` does once `C` is
cleared. -/
theorem bitWriterIgnoresCrcRegisters : Obligations.BitWriterIgnoresCrcRegisters := by
  unfold Obligations.BitWriterIgnoresCrcRegisters
  intro s t n value level leaveOpen r c res
  simp only [exec_next_iff]
  refine ⟨?_, ?_, ?_⟩
  · rintro rfl
    exact (IgnoresCrc.after (i := .bwPut n value) (put_ignoresCrc n.toNat value) r c res s).symm
  · rintro rfl
    exact (IgnoresCrc.after (i := .bwFlush) flush_ignoresCrc r c res s).symm
  · rintro rfl
    have hown := after_faShdr_withCrc level leaveOpen r s.c res s
    rw [← after_faShdr_c] at hown
    exact ⟨hown.symm, (after_faShdr_withCrc level leaveOpen r c res s).symm⟩

end Sys2Proof.Machine
end

section
/-! The proofs of the statements of 20_memory.md: the sink's answers, what they make of a command, and a field written in
parts. -/

namespace Sys2Proof.Machine

/-! ### The sink's answers (20_memory.md R51, R53; 60_exceptions.md R184, R186) -/

/-- From `s` to `t` the sink has answered `k` calls, all `ok`: each took a byte or closed the sink, no error was raised, and
from a clean accumulator exactly `bits` were appended. -/
structure AllTaken (s : State) (bits : List Bool) (k : Nat) (t : State) : Prop where
  phase : t.phase ≠ .failed
  err : t.err = s.err
  sinkCalls : t.sinkCalls = s.sinkCalls + k
  sinkAnswers : t.sinkAnswers = s.sinkAnswers.drop k
  counts : t.sinkOut.length + t.sinkCloses.length = s.sinkOut.length + s.sinkCloses.length + k
  stream : AccClean s → AccClean t ∧ streamBits t = streamBits s ++ bits

/-- From `s` to `t` the sink has taken `k` bytes and refused the call after them: the error is entered, no call follows, and
from a clean accumulator exactly `bits` were appended before the refused call. -/
structure RefusedAt (s : State) (bits : List Bool) (k : Nat) (t : State) : Prop where
  answer : answerAt s k = .fail
  phase : t.phase = .failed
  err : t.err = if s.err = none then some .underlyingIO else s.err
  sinkCalls : t.sinkCalls = s.sinkCalls + k + 1
  sinkAnswers : t.sinkAnswers = s.sinkAnswers.drop (k + 1)
  length : t.sinkOut.length = s.sinkOut.length + k
  stream : AccClean s → AccClean t ∧ streamBits t = streamBits s ++ bits

/-- What the sink's answers make of a body that has `bits` to append, `count k` of them before the call after `k` others. -/
def SinkDecides (s : State) (bits : List Bool) (count : Nat → Nat) (t : State) : Prop :=
  ∃ k, answersOk s k ∧ s.sinkOut <+: t.sinkOut ∧
    (AllTaken s bits k t ∨ RefusedAt s (bits.take (count k)) k t)

/-- A refused call of a body that appends `bits`, after `k` bytes taken and `added` bits appended: those are the first
`added` of `bits`. -/
theorem Appends.take_of_endedAt {s t : State} {bits : List Bool} {m k added : Nat} (h : Appends s bits m (.ended t))
    (he : EndedAt s t k added) : AccClean t ∧ streamBits t = streamBits s ++ bits.take added := by
  obtain ⟨k', bs, u, pre, rfl, hc, hpre, hs, hb, -, -, hw, -⟩ := h
  obtain ⟨hcalls, hnacc⟩ := he
  have hk : k' = k := by
    have : u.sinkCalls = s.sinkCalls + k + 1 := hcalls
    have := hw.sinkCalls
    omega
  have hlen : pre.length = added := by
    have : u.nacc.toNat + 8 * k = s.nacc.toNat + added := hnacc
    have := hw.count hs
    omega
  refine ⟨hc, ?_⟩
  rw [← hlen, ← List.prefix_iff_eq_take.mp hpre]
  exact hs

/-- A body that goes on leaves the accumulator clean and has appended its bits. -/
theorem Appends.stream {s t : State} {bits : List Bool} {m : Nat} (h : Appends s bits m (.going t)) :
    AccClean t ∧ streamBits t = streamBits s ++ bits := by
  obtain ⟨hc, hs, -⟩ := h
  exact ⟨hc, hs⟩

/-- Writes that were all taken. -/
theorem Wrote.allTaken {s t : State} {bs : List Byte} {bits : List Bool} (h : Wrote s bs.length bs t)
    (hp : s.phase ≠ .failed) (hs : AccClean s → AccClean t ∧ streamBits t = streamBits s ++ bits) :
    AllTaken s bits bs.length t := by
  obtain ⟨-, -, -, hphase, herr, -, -, -, hcloses, -⟩ := h.frame
  refine ⟨by rwa [hphase], herr, h.sinkCalls, h.sinkAnswers, ?_, hs⟩
  rw [hcloses, h.sinkOut, List.length_append]
  omega

/-- A row of sink writes is decided by the sink's answers; which bits stand at a refused call follows from the counts. -/
theorem Calls.sinkDecides {s : State} {p : Progress} {bits : List Bool} {m : Nat} {count : Nat → Nat} (h : Calls s p)
    (hp : s.phase ≠ .failed) (ha : AccClean s → Appends s bits m p)
    (he : ∀ t, p = .ended t → ∃ k, EndedAt s t k (count k)) : SinkDecides s bits count p.state := by
  cases p with
  | going t =>
    obtain ⟨k, bs, rfl, ho, hw⟩ := h
    exact ⟨bs.length, ho, ⟨bs, hw.sinkOut.symm⟩, .inl (hw.allTaken hp fun hc => (ha hc).stream)⟩
  | ended t =>
    obtain ⟨j, hj⟩ := he t rfl
    obtain ⟨k, bs, u, rfl, hb, ho, hf, hw⟩ := h
    have hk : j = k := by
      have := hw.sinkCalls
      have : u.sinkCalls = s.sinkCalls + j + 1 := hj.1
      omega
    subst hk
    obtain ⟨-, -, -, -, herr, -⟩ := hw.frame
    refine ⟨j, ho, ⟨bs, hw.sinkOut.symm⟩, .inr ⟨hf, rfl, ?_, hw.sinkCalls, hw.sinkAnswers, ?_, ?_⟩⟩
    · simp only [Progress.state, raiseError_err, herr]
    · exact (congrArg List.length hw.sinkOut).trans (by rw [List.length_append, hb])
    · exact fun hc => (ha hc).take_of_endedAt hj

/-- A body that writes the CRC registers only makes no call and appends nothing. -/
theorem sinkDecides_withCrc {s : State} (hp : s.phase ≠ .failed) (count : Nat → Nat) (r c res : Word) :
    SinkDecides s [] count (s.withCrc r c res) :=
  ⟨0, fun j hj => absurd hj (by omega), List.prefix_rfl,
    .inl ⟨hp, rfl, rfl, rfl, rfl, fun hc => ⟨hc, (List.append_nil _).symm⟩⟩⟩

/-- The answer that comes after `k` calls answered `ok`. -/
theorem AllTaken.answerAt {s t : State} {bits : List Bool} {k : Nat} (h : AllTaken s bits k t) :
    Machine.answerAt t 0 = Machine.answerAt s k :=
  (answerAt_congr (s := consumeAnswers k s) h.sinkAnswers h.sinkCalls 0).trans (answerAt_consume 0 k s)

/-- The close after writes that were all taken is one more call of the sink, or none with LEAVE_OPEN; when it is refused,
all the bits stand (42_field_assembler.md R158). -/
theorem AllTaken.closeSink {s t : State} {bits : List Bool} {k : Nat} {count : Nat → Nat} (h : AllTaken s bits k t)
    (ho : answersOk s k) (hpre : s.sinkOut <+: t.sinkOut) (hcloses : t.sinkCloses = s.sinkCloses)
    (hcount : AccClean s → count k = bits.length) :
    SinkDecides s bits count (Machine.closeSink (t.setPhase .closed)).state := by
  have hanswer : Machine.answerAt (t.setPhase .closed) 0 = Machine.answerAt s k := h.answerAt
  obtain ⟨-, herr, hcalls, hanswers, hcounts, hstream⟩ := h
  rcases closeSink_cases (t.setPhase .closed) with ⟨-, hclose⟩ | ⟨-, ha, hclose⟩ | ⟨-, ha, hclose⟩ <;> rw [hclose]
  · exact ⟨k, ho, hpre, .inl ⟨nofun, herr, hcalls, hanswers, hcounts, hstream⟩⟩
  · refine ⟨k + 1, fun j hj => ?_, hpre, .inl ⟨nofun, herr, ?_, ?_, ?_, hstream⟩⟩
    · rcases Nat.lt_succ_iff_lt_or_eq.mp hj with hj | rfl
      · exact ho j hj
      · exact hanswer ▸ ha
    · simp [Progress.state, consumeAnswers, hcalls, Nat.add_assoc]
    · simp [Progress.state, consumeAnswers, hanswers]
    · simpa [Progress.state, consumeAnswers, ← Nat.add_assoc] using hcounts
  · refine ⟨k, ho, hpre, .inr ⟨hanswer ▸ ha, rfl, ?_, ?_, ?_, ?_, fun hc => ?_⟩⟩
    · rw [← herr]
      rfl
    · simp [Progress.state, raiseError, consumeAnswers, hcalls, Nat.add_assoc]
    · simp [Progress.state, raiseError, consumeAnswers, hanswers]
    · rw [hcloses] at hcounts
      have hout : t.sinkOut.length = s.sinkOut.length + k := by omega
      exact hout
    · obtain ⟨hct, hs⟩ := hstream hc
      rw [hcount hc, List.take_length]
      exact ⟨hct, hs⟩

/-- The end of a stream, its close included, is decided by the sink's answers (42_field_assembler.md R157, R158). -/
theorem putTrailer_sinkDecides {s : State} (hp : s.phase ≠ .failed) :
    SinkDecides s (appendedBits .faStrl s) (bitsBeforeFailure .faStrl s) (putTrailer s).state := by
  have hcalls := putTrailerFields_calls s
  rw [putTrailer_eq]
  cases hf : putTrailerFields s with
  | ended t =>
    rw [hf] at hcalls
    refine hcalls.sinkDecides hp (fun hc => hf ▸ putTrailerFields_appends hc) fun u hu => ?_
    obtain ⟨k, hk, he⟩ := putTrailerFields_ended (hf.trans hu)
    exact ⟨k, by rwa [bitsBeforeFailure, if_neg (by omega)]⟩
  | going t =>
    rw [hf] at hcalls
    obtain ⟨k, bs, rfl, ho, hw⟩ := hcalls
    have hstream (hc : AccClean s) := (hf ▸ putTrailerFields_appends hc).stream
    obtain ⟨-, -, -, -, -, -, -, -, hcloses, -⟩ := hw.frame
    refine (hw.allTaken hp hstream).closeSink ho ⟨bs, hw.sinkOut.symm⟩ hcloses fun hc => ?_
    have hbytes := hw.count (hstream hc).2
    have hlen : (trailerBits s.c).length = 80 := by simp [trailerBits, length_bitsOf]
    rw [putTrailerFields_going_nacc hc hf, List.length_append, hlen] at hbytes
    rw [bitsBeforeFailure, if_pos (by simp at hbytes; omega), appendedBits, List.length_append, hlen]

/-- A command that passes its checks is not ignored. -/
theorem phase_ne_failed_of_legal {i : Instr} {s : State} (hl : phaseLegal i s.phase = true) : s.phase ≠ .failed := by
  intro h
  rw [h, phaseLegal_failed] at hl
  cases hl

/-- Every body is decided by the sink's answers. -/
theorem bodyOf_sinkDecides {i : Instr} {s : State} (hl : phaseLegal i s.phase = true) (ho : operandErrorOf i = none) :
    SinkDecides s (appendedBits i s) (bitsBeforeFailure i s) (bodyOf i s).state := by
  have hp := phase_ne_failed_of_legal hl
  cases i with
  | crcReset | crcUpd | crcUpdn | crcRes | crcComb | crcFold | crcRdc => exact sinkDecides_withCrc hp _ _ _ _
  | bwPut n value =>
    refine (put_calls n.toNat value s).sinkDecides hp
      (fun hc => put_appends (operandErrorOf_bwPut_eq_none_iff.mp ho) hc) fun t ht => ?_
    obtain ⟨k, -, he⟩ := put_ended ht
    exact ⟨k, he⟩
  | bwFlush =>
    refine (flush_calls s).sinkDecides hp flush_appends fun t ht => ?_
    obtain ⟨k, -, he⟩ := flush_ended ht
    exact ⟨k, he⟩
  | faBhdr rand origPtr =>
    exact (putBlockHeader_calls rand origPtr s).sinkDecides hp putBlockHeader_appends fun t => putBlockHeader_ended
  | faShdr level leaveOpen =>
    have hbits : bytesBits (headerMark ++ [levelDigit level]) = headerBits level := by
      rw [bytesBits_append, bytesBits_headerMark]
      simp [headerBits, bytesBits, levelDigit, digitZero]
    have hopen : SinkDecides (openStream level leaveOpen s) (headerBits level)
        (bitsBeforeFailure (.faShdr level leaveOpen) s) (bodyOf (.faShdr level leaveOpen) s).state := by
      refine (putBytes_calls _ _).sinkDecides nofun (fun hc => hbits ▸ putBytes_appends _ hc) fun t ht => ?_
      obtain ⟨k, -, he⟩ := putBytes_ended ht
      exact ⟨k, he⟩
    obtain ⟨k, hk, hpre, ⟨h1, h2, h3, h4, h5, h6⟩ | ⟨h0, h1, h2, h3, h4, h5, h6⟩⟩ := hopen
    · exact ⟨k, hk, hpre, .inl ⟨h1, h2, h3, h4, h5, h6⟩⟩
    · exact ⟨k, hk, hpre, .inr ⟨h0, h1, h2, h3, h4, h5, h6⟩⟩
  | faStrl => exact putTrailer_sinkDecides hp

/-- Settles O39: the body of a command that passes its checks is decided by the sink's answers. -/
theorem sinkAnswersDecide : Obligations.SinkAnswersDecide := by
  unfold Obligations.SinkAnswersDecide
  intro i s t hl ho h
  rw [exec_next_iff.mp h, after_body hl ho]
  obtain ⟨k, hk, hpre, h | h⟩ := bodyOf_sinkDecides hl ho
  · exact ⟨k, hk, hpre, .inl ⟨h.phase, h.err, h.sinkCalls, h.sinkAnswers, h.counts⟩⟩
  · exact ⟨k, hk, hpre, .inr ⟨h.answer, h.phase, h.err, h.sinkCalls, h.sinkAnswers, h.length, h.stream⟩⟩

/-! ### The bytes taken (20_memory.md R51, R58, R59) -/

/-- A command takes no byte back. -/
theorem after_sinkOut_prefix (i : Instr) (s : State) : s.sinkOut <+: (after i s).sinkOut := by
  rcases after_cases i s with ⟨-, h⟩ | ⟨-, -, h⟩ | ⟨e, -, -, h⟩ | ⟨hl, ho, h⟩
  · rw [h]
  · rw [h]
    exact List.prefix_rfl
  · rw [h]
    exact List.prefix_rfl
  · obtain ⟨-, -, hpre, -⟩ := bodyOf_sinkDecides hl ho
    rwa [← h] at hpre

theorem rejectWord_sinkOut (s : State) : (rejectWord s).sinkOut = s.sinkOut := by
  by_cases hp : s.phase = .failed
  · rw [rejectWord_failed hp]
  · rw [rejectWord_eq hp]
    rfl

/-- Settles O38: of the four things a step can be only a command writes to the sink, and it takes no byte back. -/
theorem sinkOutOnlyGrows : Obligations.SinkOutOnlyGrows := by
  unfold Obligations.SinkOutOnlyGrows
  intro s t h
  suffices hpre : s.sinkOut <+: t.sinkOut by
    obtain ⟨bytes, hbytes⟩ := hpre
    exact ⟨bytes, hbytes.symm⟩
  rcases step_cases h with ⟨-, rfl⟩ | ⟨-, rfl⟩ | ⟨w, i, -, -, rfl⟩ | ⟨w, why, -, -, rfl⟩
  · exact List.prefix_rfl
  · exact List.prefix_rfl
  · exact after_sinkOut_prefix i (advance s)
  · rw [rejectWord_sinkOut]
    exact List.prefix_rfl

/-! ### A field written in parts (20_memory.md R54 to R59) -/

/-- A field's bits tell the field. -/
theorem bitsOf_injective {w : Nat} : Function.Injective (bitsOf w : BitVec w → List Bool) := by
  intro v v' h
  refine BitVec.eq_of_getLsbD_eq fun i hi => ?_
  have := List.map_inj_left.mp h (w - 1 - i) (List.mem_range.mpr (by omega))
  rwa [show w - 1 - (w - 1 - i) = i by omega] at this

/-- The bits of a byte sequence tell the bytes (R54). -/
theorem bytesBits_injective : Function.Injective bytesBits := by
  intro as bs h
  induction as generalizing bs with
  | nil =>
    have hlen := length_bytesBits bs
    rw [← h, length_bytesBits, List.length_nil] at hlen
    exact (List.length_eq_zero_iff.mp (by omega)).symm
  | cons a as ih =>
    cases bs with
    | nil => simpa [length_bytesBits] using congrArg List.length h
    | cons b bs =>
      have h' : bitsOf 8 a ++ bytesBits as = bitsOf 8 b ++ bytesBits bs := h
      obtain ⟨hb, hbs⟩ := List.append_inj h' (by simp [length_bitsOf])
      rw [bitsOf_injective hb, ih hbs]

/-- A command that ends outside FAILED passed its checks. -/
theorem checks_of_unfailed {i : Instr} {s : State} (h : (after i s).phase ≠ .failed) :
    phaseLegal i s.phase = true ∧ operandErrorOf i = none := by
  rcases after_cases i s with ⟨hp, ha⟩ | ⟨-, -, ha⟩ | ⟨e, -, -, ha⟩ | ⟨hl, ho, -⟩
  · exact absurd hp (ha ▸ h)
  · exact absurd (congrArg State.phase ha) h
  · exact absurd (congrArg State.phase ha) h
  · exact ⟨hl, ho⟩

/-- A command that ends outside FAILED appends its bits (R59; 41_bitwriter.md R135). -/
theorem after_appends {i : Instr} {s : State} (hc : AccClean s) (h : (after i s).phase ≠ .failed) :
    AccClean (after i s) ∧ streamBits (after i s) = streamBits s ++ appendedBits i s := by
  obtain ⟨hl, ho⟩ := checks_of_unfailed h
  rw [after_body hl ho] at h ⊢
  obtain ⟨k, -, -, ht | hr⟩ := bodyOf_sinkDecides hl ho
  · exact ht.stream hc
  · exact absurd hr.phase h

/-- `R` and `C` after a command's body that found `r` and `c` there. -/
def crcAfter (i : Instr) (r c : Word) : Word × Word :=
  match i with
  | .crcReset => (allOnes, c)
  | .crcUpd byte => (byteStep r byte, c)
  | .crcUpdn byte count => (byteStepN count.toNat byte r, c)
  | .crcComb crc len => (combine r crc len, c)
  | .crcFold => (r, foldBlock c r)
  | .faShdr _ _ => (r, 0)
  | .crcRes | .crcRdc | .bwPut _ _ | .bwFlush | .faBhdr _ _ | .faStrl => (r, c)

theorem bodyOf_crc (i : Instr) (s : State) :
    ((bodyOf i s).state.r, (bodyOf i s).state.c) = crcAfter i s.r s.c := by
  cases i with
  | crcReset | crcUpd | crcUpdn | crcRes | crcComb | crcFold | crcRdc => rfl
  | bwPut n value => simp [bodyOf, crcAfter, (put_calls n.toNat value s).kept]
  | bwFlush => simp [bodyOf, crcAfter, (flush_calls s).kept]
  | faShdr level leaveOpen => simp [bodyOf, crcAfter, (putBytes_calls _ (openStream level leaveOpen s)).kept]
  | faBhdr rand origPtr => simp [bodyOf, crcAfter, (putBlockHeader_calls rand origPtr s).kept]
  | faStrl =>
    obtain ⟨hr, hc, -⟩ := putTrailer_kept s
    simp [bodyOf, crcAfter, hr, hc]

theorem after_crc {i : Instr} {s : State} (h : (after i s).phase ≠ .failed) :
    ((after i s).r, (after i s).c) = crcAfter i s.r s.c := by
  obtain ⟨hl, ho⟩ := checks_of_unfailed h
  rw [after_body hl ho, bodyOf_crc]

/-- Two states that have built the same bit sequence, wherever its bytes stand, and hold the same CRC registers: no command
that raises no error tells them apart. -/
structure SameStream (s t : State) : Prop where
  clean : AccClean s ∧ AccClean t
  bits : streamBits t = streamBits s
  crc : (t.r, t.c) = (s.r, s.c)

/-- What is pending differs by whole bytes. -/
theorem SameStream.nacc_mod {s t : State} (h : SameStream s t) : t.nacc.toNat % 8 = s.nacc.toNat % 8 := by
  have := congrArg List.length h.bits
  rw [length_streamBits, length_streamBits] at this
  omega

/-- A command's bits depend on the state through `R`, `C` and the distance to the next byte only. -/
theorem appendedBits_congr (i : Instr) {s t : State} (hcrc : (t.r, t.c) = (s.r, s.c))
    (hn : t.nacc.toNat % 8 = s.nacc.toNat % 8) : appendedBits i t = appendedBits i s := by
  obtain ⟨hr, hc⟩ := Prod.mk.inj hcrc
  have hpad : ∀ k, padBits (t.nacc.toNat + k) = padBits (s.nacc.toNat + k) := fun k => by
    rw [padBits, padBits, Nat.add_mod, hn, ← Nat.add_mod]
  cases i with
  | crcReset | crcUpd | crcUpdn | crcRes | crcComb | crcFold | crcRdc | bwPut | faShdr => rfl
  | bwFlush => exact hpad 0
  | faBhdr rand origPtr => simp only [appendedBits, hr]
  | faStrl => simp only [appendedBits, hc, hpad]

theorem SameStream.command {i : Instr} {s t : State} (h : SameStream s t) (hs : (after i s).phase ≠ .failed)
    (ht : (after i t).phase ≠ .failed) : SameStream (after i s) (after i t) := by
  obtain ⟨hcs, hbs⟩ := after_appends h.clean.1 hs
  obtain ⟨hct, hbt⟩ := after_appends h.clean.2 ht
  obtain ⟨hr, hc⟩ := Prod.mk.inj h.crc
  refine ⟨⟨hcs, hct⟩, ?_, ?_⟩
  · rw [hbs, hbt, h.bits, appendedBits_congr i h.crc h.nacc_mod]
  · rw [after_crc hs, after_crc ht, hr, hc]

theorem runCommands_cons (i : Instr) (is : List Instr) (s : State) :
    runCommands (i :: is) s = runCommands is (after i s) := rfl

theorem runCommands_append (is js : List Instr) (s : State) :
    runCommands (is ++ js) s = runCommands js (runCommands is s) := List.foldl_append

/-- In FAILED every command is ignored (60_exceptions.md R187). -/
theorem runCommands_failed (is : List Instr) {s : State} (h : s.phase = .failed) : runCommands is s = s := by
  induction is with
  | nil => rfl
  | cons i is ih => rw [runCommands_cons, after_failed i h, ih]

/-- A run that ends outside FAILED was never in it. -/
theorem unfailed_of_runCommands {is : List Instr} {s : State} (h : (runCommands is s).phase ≠ .failed) :
    s.phase ≠ .failed := by
  intro hs
  rw [runCommands_failed is hs] at h
  exact h hs

theorem SameStream.run (is : List Instr) {s t : State} (h : SameStream s t)
    (hs : (runCommands is s).phase ≠ .failed) (ht : (runCommands is t).phase ≠ .failed) :
    SameStream (runCommands is s) (runCommands is t) := by
  induction is generalizing s t with
  | nil => exact h
  | cons i is ih => exact ih (h.command (unfailed_of_runCommands hs) (unfailed_of_runCommands ht)) hs ht

/-- After a flush nothing is pending (41_bitwriter.md R133). -/
theorem after_bwFlush_pending {s : State} (hc : AccClean s) (h : (after .bwFlush s).phase ≠ .failed) :
    (after .bwFlush s).nacc = 0 ∧ (after .bwFlush s).acc = 0 := by
  obtain ⟨hl, ho⟩ := checks_of_unfailed h
  rw [after_body hl ho] at h ⊢
  have hcalls := flush_calls s
  simp only [bodyOf] at h ⊢
  cases hf : flush s with
  | going t => exact flush_going_nacc hc hf
  | ended t =>
    rw [hf] at h hcalls
    obtain ⟨k, bs, u, rfl, -⟩ := hcalls
    exact absurd rfl h

/-- With nothing pending the bits are those of the bytes taken. -/
theorem streamBits_of_nacc_zero {s : State} (h : s.nacc = 0) : streamBits s = bytesBits s.sinkOut := by
  simp [streamBits, pendingBits, h]

/-- Once both are flushed the same bits are the same bytes. -/
theorem SameStream.sinkOut_after_bwFlush {s t : State} (h : SameStream s t)
    (hs : (after .bwFlush s).phase ≠ .failed) (ht : (after .bwFlush t).phase ≠ .failed) :
    (after .bwFlush s).sinkOut = (after .bwFlush t).sinkOut := by
  have hbits := (h.command hs ht).bits
  rw [streamBits_of_nacc_zero (after_bwFlush_pending h.clean.1 hs).1,
    streamBits_of_nacc_zero (after_bwFlush_pending h.clean.2 ht).1] at hbits
  exact (bytesBits_injective hbits).symm

/-- The bits of a field are those of its upper part, then those of its lower part (R55, R56). -/
theorem bitsOf_split (a b : Nat) (v : Word) (ha : a ≤ 32) (hb : b ≤ 32) :
    bitsOf (a + b) v = bitsOf a ((v.extractLsb' b a).setWidth 32) ++ bitsOf b ((v.extractLsb' 0 b).setWidth 32) := by
  rw [bitsOf_add]
  congr 1
  · refine bitsOf_congr fun i hi => ?_
    simp [hi, show i < 32 by omega]
  · refine bitsOf_congr fun i hi => ?_
    simp [hi, show i < 32 by omega]

/-- `BW.PUT` of the upper `n1` bits of the field `(n, v)`. -/
def upperPart (n n1 v : Word) : Instr :=
  .bwPut n1 ((v.extractLsb' (n.toNat - n1.toNat) n1.toNat).setWidth 32)

/-- `BW.PUT` of the lower `n - n1` bits of the field `(n, v)`. -/
def lowerPart (n n1 v : Word) : Instr :=
  .bwPut (n - n1) ((v.extractLsb' 0 (n.toNat - n1.toNat)).setWidth 32)

section
variable {n n1 v : Word} {s : State} (hc : AccClean s) (h1 : n1.toNat < n.toNat) (hn : n.toNat ≤ 24)
include hc h1 hn

/-- A field written whole and in two parts gives the same bits, when neither run fails (R56). -/
theorem sameStream_split (hw : (after (.bwPut n v) s).phase ≠ .failed)
    (hs : (after (lowerPart n n1 v) (after (upperPart n n1 v) s)).phase ≠ .failed) :
    SameStream (after (.bwPut n v) s) (after (lowerPart n n1 v) (after (upperPart n n1 v) s)) := by
  have hu : (after (upperPart n n1 v) s).phase ≠ .failed := unfailed_of_runCommands (is := [lowerPart n n1 v]) hs
  obtain ⟨hcw, hbw⟩ := after_appends hc hw
  obtain ⟨hcu, hbu⟩ := after_appends hc hu
  obtain ⟨hcs, hbs⟩ := after_appends hcu hs
  have hlow : (n - n1).toNat = n.toNat - n1.toNat := by bv_omega
  refine ⟨⟨hcw, hcs⟩, ?_, ?_⟩
  · have hsplit := bitsOf_split n1.toNat (n.toNat - n1.toNat) v (by omega) (by omega)
    rw [Nat.add_sub_cancel' (by omega)] at hsplit
    rw [hbs, hbu, hbw, List.append_assoc]
    simp only [appendedBits, upperPart, lowerPart, hlow, hsplit]
  · rw [after_crc hs, after_crc hw]
    exact after_crc hu

/-- With any commands between the field and the flush, `SINKOUT` is the same (R56). -/
theorem sinkOut_split (between : List Instr)
    (hw : (runCommands (.bwPut n v :: between ++ [.bwFlush]) s).phase ≠ .failed)
    (hs : (runCommands (upperPart n n1 v :: lowerPart n n1 v :: between ++ [.bwFlush]) s).phase ≠ .failed) :
    (runCommands (.bwPut n v :: between ++ [.bwFlush]) s).sinkOut =
      (runCommands (upperPart n n1 v :: lowerPart n n1 v :: between ++ [.bwFlush]) s).sinkOut := by
  simp only [List.cons_append, runCommands_cons, runCommands_append] at hw hs ⊢
  have hw' := unfailed_of_runCommands (is := [.bwFlush]) hw
  have hs' := unfailed_of_runCommands (is := [.bwFlush]) hs
  have hfield := sameStream_split hc h1 hn (unfailed_of_runCommands hw') (unfailed_of_runCommands hs')
  exact (hfield.run between hw' hs').sinkOut_after_bwFlush hw hs

end

/-- `t` is `s` after sink calls that each took a byte, with nothing pending. -/
def Flushed (s t : State) : Prop := t.nacc = 0 ∧ t.acc = 0 ∧ ∃ bs, Wrote s bs.length bs t

theorem Flushed.unfailed {s t : State} (h : Flushed s t) (hp : s.phase ≠ .failed) : t.phase ≠ .failed := by
  obtain ⟨-, -, bs, hw⟩ := h
  obtain ⟨-, -, -, hphase, -⟩ := hw.frame
  rwa [hphase]

/-- Two flushed states with the same bytes taken are one. -/
theorem Flushed.eq_of_sinkOut {s t u : State} (ht : Flushed s t) (hu : Flushed s u) (h : t.sinkOut = u.sinkOut) :
    t = u := by
  obtain ⟨hnt, hat, bs, hwt⟩ := ht
  obtain ⟨hnu, hau, bs', hwu⟩ := hu
  rw [hwt.sinkOut, hwu.sinkOut, List.append_cancel_left_eq] at h
  subst h
  rw [hwt, hwu, hnt, hnu, hat, hau]

/-- A body cannot be refused a call while the answers last that its bits can take. -/
theorem Appends.going_of_answersOk {s : State} {bits : List Bool} {m : Nat} {p : Progress} (h : Appends s bits m p)
    (ho : answersOk s ((s.nacc.toNat + m) / 8)) : ∃ t bs, p = .going t ∧ AccClean t ∧ Wrote s bs.length bs t := by
  cases p with
  | going t =>
    obtain ⟨hc, -, k, bs, rfl, -, hw⟩ := h
    exact ⟨t, bs, rfl, hc, hw⟩
  | ended t =>
    obtain ⟨k, bs, u, pre, -, -, -, -, -, -, hf, -, h8⟩ := h
    have := ho k (by omega)
    rw [hf] at this
    cases this

/-- Fields and a flush in OPEN, the sink taking the bytes: every bit reaches the sink and nothing else changes. -/
theorem runCommands_puts_flushed (fields : List (Word × Word)) {s : State} (hp : s.phase = .opened) (hc : AccClean s)
    (hn : ∀ f ∈ fields, f.1.toNat ≤ 24)
    (ho : answersOk s ((s.nacc.toNat + (fields.map fun f => f.1.toNat).sum + 7) / 8)) :
    Flushed s (runCommands (fields.map (fun f => .bwPut f.1 f.2) ++ [.bwFlush]) s) := by
  induction fields generalizing s with
  | nil =>
    obtain ⟨t, bs, ht, -, hw⟩ := (flush_appends hc).going_of_answersOk (by simpa using ho)
    have hrun : runCommands [.bwFlush] s = t :=
      (after_body (i := .bwFlush) (beq_iff_eq.mpr hp) rfl).trans (congrArg Progress.state ht)
    obtain ⟨hnacc, hacc⟩ := flush_going_nacc hc ht
    simp only [List.map_nil, List.nil_append, hrun]
    exact ⟨hnacc, hacc, bs, hw⟩
  | cons f fields ih =>
    simp only [List.map_cons, List.sum_cons] at ho
    have hf := hn f List.mem_cons_self
    obtain ⟨t, bs, ht, hct, hw⟩ :=
      (put_appends (v := f.2) hf hc).going_of_answersOk (answersOk_mono (by omega) ho)
    have hrun : after (.bwPut f.1 f.2) s = t :=
      (after_body (i := .bwPut f.1 f.2) (beq_iff_eq.mpr hp) (operandErrorOf_bwPut_eq_none_iff.mpr hf)).trans
        (congrArg Progress.state ht)
    obtain ⟨hcalls, hcount⟩ := put_wentOn hf ht
    have hlen : bs.length = s.nacc.toNat / 8 := by
      have := hw.sinkCalls
      omega
    obtain ⟨-, -, -, hpt, -⟩ := hw.frame
    obtain ⟨hnacc, hacc, bs', hw'⟩ := ih (hpt.trans hp) hct (fun g hg => hn g (List.mem_cons_of_mem _ hg))
      fun j hj => hw.answerAt j ▸ ho _ (by omega)
    simp only [List.map_cons, List.cons_append, runCommands_cons, hrun]
    refine ⟨hnacc, hacc, bs ++ bs', ?_⟩
    rw [List.length_append]
    exact hw.trans hw'

/-- Settles O34: both runs build the same bits, so that the flush leaves the same bytes; and when the sink takes them
nothing else has changed. -/
theorem fieldSplit : Obligations.FieldSplit := by
  unfold Obligations.FieldSplit
  intro n n1 v s hp hc h0 h1 hn
  refine ⟨fun ho => ?_, fun between => sinkOut_split hc h1 hn between⟩
  have hlow : (n - n1).toNat = n.toNat - n1.toNat := by bv_omega
  have hw := runCommands_puts_flushed [(n, v)] hp hc (by simpa using hn) (by simpa using ho)
  have hs := runCommands_puts_flushed
    [(n1, (v.extractLsb' (n.toNat - n1.toNat) n1.toNat).setWidth 32),
      (n - n1, (v.extractLsb' 0 (n.toNat - n1.toNat)).setWidth 32)] hp hc
    (by simp only [List.forall_mem_cons, hlow]; exact ⟨by omega, by omega, nofun⟩)
    (by simpa [hlow, Nat.add_sub_cancel' h1.le] using ho)
  have hpf : s.phase ≠ .failed := by simp [hp]
  exact hw.eq_of_sinkOut hs (sinkOut_split hc h1 hn [] (hw.unfailed hpf) (hs.unfailed hpf))

end Sys2Proof.Machine
end

section
/-! The proofs of the statements of 30_encoding.md about the decoder, the encoder and the opcode table: decoding and
encoding are inverse, and the table accepts what the decoder accepts. -/

namespace Sys2Proof

/-! ### The decoder of R75 -/

theorem decode_eq_command_iff {w : CmdWord} {i : Instr} :
    decode w = .command i ↔
      ∃ f, formatOf (opField w) = some f ∧ reservedClear f (aField w) (bField w) = true ∧
        instrOf (opField w) (aField w) (bField w) = some i := by
  unfold decode
  cases hf : formatOf (opField w) with
  | none => simp
  | some f =>
    cases hr : reservedClear f (aField w) (bField w) with
    | false => simp [hr]
    | true => cases hi : instrOf (opField w) (aField w) (bField w) <;> simp [hr]

theorem decode_of_reservedOpcode {w : CmdWord} (hf : formatOf (opField w) = none) :
    decode w = .illegal .reservedOpcode := by
  simp [decode, hf]

theorem decode_of_reservedBits {w : CmdWord} {f : Format} (hf : formatOf (opField w) = some f)
    (hr : ¬ reservedClear f (aField w) (bField w) = true) : decode w = .illegal .reservedBits := by
  simp [decode, hf, hr]

theorem decode_packWord {op : Byte} {a b : Word} {f : Format} {i : Instr} (hf : formatOf op = some f)
    (hr : reservedClear f a b = true) (hi : instrOf op a b = some i) : decode (packWord op a b) = .command i := by
  rw [decode_eq_command_iff, opField_packWord, aField_packWord, bField_packWord]
  exact ⟨f, hf, hr, hi⟩

/-! ### The reserved-zero bits of each format (R72, R77) -/

theorem reservedClear_fmtN {a b : Word} : reservedClear .fmtN a b = true ↔ a = 0 ∧ b = 0 := by
  simp [reservedClear]

theorem reservedClear_fmtBY {a b : Word} : reservedClear .fmtBY a b = true ↔ a = 0 ∧ b.extractLsb' 8 24 = 0 := by
  simp [reservedClear]

theorem reservedClear_fmtCB {a b : Word} : reservedClear .fmtCB a b = true ↔ b.extractLsb' 8 24 = 0 := by
  simp [reservedClear]

theorem reservedClear_fmtFB {a b : Word} : reservedClear .fmtFB a b = true ↔ a.extractLsb' 1 31 = 0 := by
  simp [reservedClear]

/-! ### The opcodes of each format (R74, R76) -/

theorem formatOf_eq_fmtN_iff (op : Byte) : formatOf op = some .fmtN ↔
    op = 0x10 ∨ op = 0x13 ∨ op = 0x15 ∨ op = 0x16 ∨ op = 0x21 ∨ op = 0x32 := by
  revert op; decide

theorem formatOf_eq_fmtBY_iff (op : Byte) : formatOf op = some .fmtBY ↔ op = 0x11 := by
  revert op; decide

theorem formatOf_eq_fmtCB_iff (op : Byte) : formatOf op = some .fmtCB ↔ op = 0x12 := by
  revert op; decide

theorem formatOf_eq_fmtAB_iff (op : Byte) : formatOf op = some .fmtAB ↔ op = 0x14 ∨ op = 0x20 := by
  revert op; decide

theorem formatOf_eq_fmtFB_iff (op : Byte) : formatOf op = some .fmtFB ↔ op = 0x30 ∨ op = 0x31 := by
  revert op; decide

theorem formatOf_eq_none_iff (op : Byte) : formatOf op = none ↔
    op.toNat ≤ 0x0F ∨ (0x17 ≤ op.toNat ∧ op.toNat ≤ 0x1F) ∨ (0x22 ≤ op.toNat ∧ op.toNat ≤ 0x2F) ∨ 0x33 ≤ op.toNat := by
  revert op; decide

/-! ### Decoding and encoding are inverse (R71 to R75) -/

/-- Settles O1: each command has its opcode's format, its unused operand bits are zero, and each operand is read back
from its field. -/
theorem decodeOfEncode : Obligations.DecodeOfEncode := by
  unfold Obligations.DecodeOfEncode
  intro i
  cases i with
  | crcReset | crcRes | crcFold | crcRdc | bwFlush | faStrl => exact decode_packWord (f := .fmtN) rfl rfl rfl
  | crcComb | bwPut => exact decode_packWord (f := .fmtAB) rfl rfl rfl
  | crcUpd byte =>
    exact decode_packWord rfl (reservedClear_fmtBY.2 ⟨rfl, extract_setWidth_byte byte⟩)
      (congrArg (fun b => some (Instr.crcUpd b)) (byteOperand_setWidth byte))
  | crcUpdn byte count =>
    exact decode_packWord rfl (reservedClear_fmtCB.2 (extract_setWidth_byte byte))
      (congrArg (fun b => some (Instr.crcUpdn b count)) (byteOperand_setWidth byte))
  | faShdr level leaveOpen =>
    exact decode_packWord rfl (reservedClear_fmtFB.2 (extract_flagField leaveOpen))
      (congrArg (fun f => some (Instr.faShdr level f)) (flagOperand_flagField leaveOpen))
  | faBhdr rand origPtr =>
    exact decode_packWord rfl (reservedClear_fmtFB.2 (extract_flagField rand))
      (congrArg (fun f => some (Instr.faBhdr f origPtr)) (flagOperand_flagField rand))

/-- An opcode of the twelve with operands whose reserved bits are clear is a command, and the command's word is packed
from just these: no bit of them is dropped. -/
theorem exists_instrOf {op : Byte} {a b : Word} {f : Format} (hf : formatOf op = some f)
    (hr : reservedClear f a b = true) : ∃ i, instrOf op a b = some i ∧ encode i = packWord op a b := by
  cases f with
  | fmtN =>
    obtain ⟨rfl, rfl⟩ := reservedClear_fmtN.1 hr
    rcases (formatOf_eq_fmtN_iff op).1 hf with rfl | rfl | rfl | rfl | rfl | rfl <;> exact ⟨_, rfl, rfl⟩
  | fmtBY =>
    obtain ⟨rfl, hb⟩ := reservedClear_fmtBY.1 hr
    obtain rfl := (formatOf_eq_fmtBY_iff op).1 hf
    exact ⟨.crcUpd (byteOperand b), rfl, by rw [encode, byteOperand_pad b hb]⟩
  | fmtCB =>
    have hb := reservedClear_fmtCB.1 hr
    obtain rfl := (formatOf_eq_fmtCB_iff op).1 hf
    exact ⟨.crcUpdn (byteOperand b) a, rfl, by rw [encode, byteOperand_pad b hb]⟩
  | fmtAB => rcases (formatOf_eq_fmtAB_iff op).1 hf with rfl | rfl <;> exact ⟨_, rfl, rfl⟩
  | fmtFB =>
    have hflag := flagField_flagOperand a (reservedClear_fmtFB.1 hr)
    rcases (formatOf_eq_fmtFB_iff op).1 hf with rfl | rfl
    · exact ⟨.faShdr b (flagOperand a), rfl, by rw [encode, hflag]⟩
    · exact ⟨.faBhdr (flagOperand a) b, rfl, by rw [encode, hflag]⟩

/-- Settles O2: a legal word is packed from its opcode and operands, which `encode` writes back. -/
theorem encodeOfDecode : Obligations.EncodeOfDecode := by
  unfold Obligations.EncodeOfDecode
  intro w i h
  obtain ⟨f, hf, hr, hi⟩ := decode_eq_command_iff.1 h
  obtain ⟨j, hj, hencode⟩ := exists_instrOf hf hr
  obtain rfl : j = i := Option.some.inj (hj.symm.trans hi)
  rw [hencode, packWord_fields]

/-! ### The rows of the opcode table (R72, R74; opcode_table.json) -/

/-- The reserved-zero bits of a format in operand A (R72). -/
def Format.maskA : Format → Word
  | .fmtN | .fmtBY => 0xFFFFFFFF
  | .fmtCB | .fmtAB => 0
  | .fmtFB => 0xFFFFFFFE

/-- The reserved-zero bits of a format in operand B (R72). -/
def Format.maskB : Format → Word
  | .fmtN => 0xFFFFFFFF
  | .fmtBY | .fmtCB => 0xFFFFFF00
  | .fmtAB | .fmtFB => 0

theorem eq_zero_of_and_allOnes {x : Word} (h : x &&& 0xFFFFFFFF = 0) : x = 0 :=
  BitVec.and_allOnes.symm.trans h

/-- A field inside a mask is zero when every bit of the mask is. -/
theorem extractLsb'_eq_zero_of_and {x m : Word} {start len : Nat} (h : x &&& m = 0)
    (hm : m.extractLsb' start len = BitVec.allOnes len) : x.extractLsb' start len = 0 := by
  simpa [BitVec.extractLsb'_and, hm] using congrArg (BitVec.extractLsb' start len) h

theorem reservedClear_of_masks {f : Format} {a b : Word} (ha : a &&& f.maskA = 0) (hb : b &&& f.maskB = 0) :
    reservedClear f a b = true := by
  cases f with
  | fmtN => exact reservedClear_fmtN.2 ⟨eq_zero_of_and_allOnes ha, eq_zero_of_and_allOnes hb⟩
  | fmtBY => exact reservedClear_fmtBY.2 ⟨eq_zero_of_and_allOnes ha, extractLsb'_eq_zero_of_and hb rfl⟩
  | fmtCB => exact reservedClear_fmtCB.2 (extractLsb'_eq_zero_of_and hb rfl)
  | fmtAB => rfl
  | fmtFB => exact reservedClear_fmtFB.2 (extractLsb'_eq_zero_of_and ha rfl)

/-- The row fixes an opcode of the format `f` and the reserved-zero bits of `f`, and no other bit. -/
def TableRow.IsOfFormat (row : TableRow) (f : Format) : Prop :=
  formatOf (opField row.bits) = some f ∧ row.bits = packWord (opField row.bits) 0 0 ∧
    row.mask = packWord 0xFF f.maskA f.maskB

theorem exists_isOfFormat : ∀ row ∈ opcodeTable, ∃ f, row.IsOfFormat f := by
  simp only [opcodeTable, List.forall_mem_cons]
  exact ⟨⟨.fmtN, rfl, rfl, rfl⟩, ⟨.fmtBY, rfl, rfl, rfl⟩, ⟨.fmtCB, rfl, rfl, rfl⟩, ⟨.fmtN, rfl, rfl, rfl⟩,
    ⟨.fmtAB, rfl, rfl, rfl⟩, ⟨.fmtN, rfl, rfl, rfl⟩, ⟨.fmtN, rfl, rfl, rfl⟩, ⟨.fmtAB, rfl, rfl, rfl⟩,
    ⟨.fmtN, rfl, rfl, rfl⟩, ⟨.fmtFB, rfl, rfl, rfl⟩, ⟨.fmtFB, rfl, rfl, rfl⟩, ⟨.fmtN, rfl, rfl, rfl⟩, nofun⟩

theorem packWord_inj {op op' : Byte} {a a' b b' : Word} (h : packWord op a b = packWord op' a' b') :
    op = op' ∧ a = a' ∧ b = b' := by
  have hop := congrArg opField h
  have ha := congrArg aField h
  have hb := congrArg bField h
  rw [opField_packWord, opField_packWord] at hop
  rw [aField_packWord, aField_packWord] at ha
  rw [bField_packWord, bField_packWord] at hb
  exact ⟨hop, ha, hb⟩

theorem TableRow.IsOfFormat.fields_of_accepts {row : TableRow} {f : Format} {w : CmdWord} (hrow : row.IsOfFormat f)
    (h : row.accepts w = true) :
    opField w = opField row.bits ∧ aField w &&& f.maskA = 0 ∧ bField w &&& f.maskB = 0 := by
  obtain ⟨-, hbits, hmask⟩ := hrow
  have hpack : packWord (opField w &&& 0xFF) (aField w &&& f.maskA) (bField w &&& f.maskB) =
      packWord (opField row.bits) 0 0 := by
    rw [← packWord_and, packWord_fields, ← hmask, ← hbits]
    exact beq_iff_eq.1 h
  obtain ⟨hop, ha, hb⟩ := packWord_inj hpack
  exact ⟨BitVec.and_allOnes.symm.trans hop, ha, hb⟩

theorem row_mem_opcodeTable (i : Instr) : i.row ∈ opcodeTable := by
  cases i <;> simp [opcodeTable, Instr.row]

theorem row_accepts_encode (i : Instr) : i.row.accepts (encode i) = true := by
  cases i with
  | crcReset => exact Laws.TableRow.crcReset
  | crcUpd byte => exact Laws.TableRow.crcUpd byte
  | crcUpdn byte count => exact Laws.TableRow.crcUpdn byte count
  | crcRes => exact Laws.TableRow.crcRes
  | crcComb crc len => exact Laws.TableRow.crcComb crc len
  | crcFold => exact Laws.TableRow.crcFold
  | crcRdc => exact Laws.TableRow.crcRdc
  | bwPut n value => exact Laws.TableRow.bwPut n value
  | bwFlush => exact Laws.TableRow.bwFlush
  | faShdr level leaveOpen => exact Laws.TableRow.faShdr level leaveOpen
  | faBhdr rand origPtr => exact Laws.TableRow.faBhdr rand origPtr
  | faStrl => exact Laws.TableRow.faStrl

/-- Settles O3: a command's word fits the command's own row; and a word that fits a row has the row's opcode and the
reserved bits of its format clear, which is what the decoder asks for. -/
theorem decodeAcceptsTableWords : Obligations.DecodeAcceptsTableWords := by
  unfold Obligations.DecodeAcceptsTableWords
  intro w
  rw [CmdWord.wellFormed, List.any_eq_true]
  constructor
  · rintro ⟨i, hi⟩
    rw [← encodeOfDecode w i hi]
    exact ⟨i.row, row_mem_opcodeTable i, row_accepts_encode i⟩
  · rintro ⟨row, hmem, haccepts⟩
    obtain ⟨f, hrow⟩ := exists_isOfFormat row hmem
    obtain ⟨hop, ha, hb⟩ := hrow.fields_of_accepts haccepts
    have hf : formatOf (opField w) = some f := hop ▸ hrow.1
    have hr := reservedClear_of_masks ha hb
    obtain ⟨i, hi, -⟩ := exists_instrOf hf hr
    exact ⟨i, decode_eq_command_iff.2 ⟨f, hf, hr, hi⟩⟩

/-- Settles O4: a word that fits a row has the row's opcode, and the opcodes of the twelve rows differ. -/
theorem tableRowsAreDisjoint : Obligations.TableRowsAreDisjoint := by
  unfold Obligations.TableRowsAreDisjoint
  have hops : opcodeTable.Pairwise fun a b => opField a.bits ≠ opField b.bits := by decide
  refine hops.imp_of_mem fun {a b} ha hb hne w ⟨hwa, hwb⟩ => hne ?_
  obtain ⟨_, hfa⟩ := exists_isOfFormat a ha
  obtain ⟨_, hfb⟩ := exists_isOfFormat b hb
  rw [← (hfa.fields_of_accepts hwa).1, (hfb.fields_of_accepts hwb).1]

/-- Settles O5: the words are closed, so the decoder is run on each. -/
theorem specWordsDecode : Obligations.SpecWordsDecode := by
  unfold Obligations.SpecWordsDecode
  decide

end Sys2Proof
end

section
/-! The proofs of the statements of 30_encoding.md about illegal words, the assembler and the operand of `BW.PUT`. -/

namespace Sys2Proof.Machine

/-! ### Illegal words (R76, R77) -/

theorem step_of_illegal {w : CmdWord} {s : State} {why : DecodeError} (hevent : nextEvent s = some (.command w))
    (hdecode : decode w = .illegal why) (hp : s.phase ≠ .failed) :
    step s = .next (failedWith .illegalCommand { s with pos := s.pos + 1 }) := by
  have hreject : rejectWord (advance s) = failedWith .illegalCommand (advance s) := rejectWord_eq hp
  simp only [step, hevent, hdecode]
  exact congrArg Host.Outcome.next hreject

/-- Settles O6: no format belongs to an opcode of the four ranges, so the decoder refuses the word. -/
theorem reservedOpcodeIsIllegal : Obligations.ReservedOpcodeIsIllegal := by
  unfold Obligations.ReservedOpcodeIsIllegal
  intro w s hop hevent hp
  exact step_of_illegal hevent (decode_of_reservedOpcode ((formatOf_eq_none_iff _).2 hop)) hp

theorem extractLsb'_0_64 (w : CmdWord) : w.extractLsb' 0 64 = aField w ++ bField w :=
  (BitVec.extractLsb'_append_extractLsb'_eq_extractLsb' (x := w) (len₁ := 32) (len₂ := 32) rfl).symm

theorem extractLsb'_8_24 (w : CmdWord) : w.extractLsb' 8 24 = (bField w).extractLsb' 8 24 := by
  rw [bField, BitVec.extractLsb'_extractLsb'_of_le (by decide)]

theorem extractLsb'_8_56 (w : CmdWord) : w.extractLsb' 8 56 = aField w ++ (bField w).extractLsb' 8 24 := by
  rw [← extractLsb'_8_24]
  exact (BitVec.extractLsb'_append_extractLsb'_eq_extractLsb' (x := w) (len₁ := 24) (len₂ := 32) rfl).symm

theorem extractLsb'_33_31 (w : CmdWord) : w.extractLsb' 33 31 = (aField w).extractLsb' 1 31 := by
  refine BitVec.eq_of_getLsbD_eq fun i hi => ?_
  have hi' : 1 + i < 32 := by omega
  simp [aField, hi, hi', ← Nat.add_assoc]

/-- Settles O7: were the reserved bits of the format clear, the bits that are said not to be zero would be. -/
theorem reservedBitIsIllegal : Obligations.ReservedBitIsIllegal := by
  unfold Obligations.ReservedBitIsIllegal
  intro w s hbits hevent hp
  suffices h : ∃ f, formatOf (opField w) = some f ∧ ¬ reservedClear f (aField w) (bField w) = true by
    obtain ⟨f, hf, hr⟩ := h
    exact step_of_illegal hevent (decode_of_reservedBits hf hr) hp
  rcases hbits with ⟨hop, hb⟩ | ⟨hop, hb⟩ | ⟨hop, hb⟩ | ⟨hop, hb⟩
  · refine ⟨.fmtN, (formatOf_eq_fmtN_iff _).2 hop, fun hr => hb ?_⟩
    obtain ⟨ha, hb⟩ := reservedClear_fmtN.1 hr
    rw [extractLsb'_0_64, ha, hb]
    rfl
  · refine ⟨.fmtBY, (formatOf_eq_fmtBY_iff _).2 hop, fun hr => hb ?_⟩
    obtain ⟨ha, hb⟩ := reservedClear_fmtBY.1 hr
    rw [extractLsb'_8_56, ha, hb]
    rfl
  · refine ⟨.fmtCB, (formatOf_eq_fmtCB_iff _).2 hop, fun hr => hb ?_⟩
    rw [extractLsb'_8_24, reservedClear_fmtCB.1 hr]
  · refine ⟨.fmtFB, (formatOf_eq_fmtFB_iff _).2 hop, fun hr => hb ?_⟩
    rw [extractLsb'_33_31, reservedClear_fmtFB.1 hr]

/-! ### A command word as a number (R71, R84) -/

theorem packWord_eq_append (op : Byte) (a b : Word) : packWord op a b = (op ++ a ++ b : BitVec 72) := by
  refine BitVec.eq_of_getLsbD_eq fun i _ => ?_
  simp only [getLsbD_packWord, BitVec.getLsbD_append]
  grind

theorem packWord_eq_ofNat (op : Byte) (a b : Word) :
    packWord op a b = BitVec.ofNat 72 (op.toNat * 2 ^ 64 + a.toNat * 2 ^ 32 + b.toNat) := by
  apply BitVec.eq_of_toNat_eq
  rw [packWord_eq_append, BitVec.toNat_append, BitVec.toNat_append, ← Nat.shiftLeft_add_eq_or_of_lt b.isLt,
    ← Nat.shiftLeft_add_eq_or_of_lt a.isLt, BitVec.toNat_ofNat]
  simp only [Nat.shiftLeft_eq]
  omega

theorem flagField_toNat (f : Bool) : (flagField f).toNat = f.toNat := by cases f <;> rfl

/-! ### The operands of an assembler line (R84) -/

theorem asmField_toNat {width : Nat} (x : BitVec width) : asmField width x.toNat = some x := by
  simp [asmField, x.isLt]

theorem asmFlag_toNat (f : Bool) : asmFlag f.toNat = some f := by cases f <;> rfl

theorem asmField_eq_none_iff {width v : Nat} : asmField width v = none ↔ 2 ^ width ≤ v := by
  simp [asmField]

theorem asmFlag_eq_none_iff {v : Nat} : asmFlag v = none ↔ 1 < v := by
  simp [asmFlag, asmField_eq_none_iff]
  omega

theorem exists_toNat_eq {width v : Nat} (h : v < 2 ^ width) : ∃ x : BitVec width, x.toNat = v :=
  ⟨.ofNatLT v h, rfl⟩

theorem exists_bool_toNat_eq {v : Nat} (h : v < 2) : ∃ f : Bool, f.toNat = v :=
  ⟨v == 1, by interval_cases v <;> rfl⟩

theorem words_eq_none_iff {line : AsmLine} : line.words = none ↔ line.expand = none := by
  simp [AsmLine.words]

/-- A line of two operands is refused when one of the two is. -/
theorem bind_map_eq_none_iff {α β γ : Type} {x : Option α} {y : Option β} {g : α → β → γ} :
    (x.bind fun a => y.map (g a)) = none ↔ x = none ∨ y = none := by
  cases x <;> simp

/-- Settles O8: operands that fit are the numbers of fields, and a word packed from fields is the sum of the fields at
their places. -/
theorem assemblerWords : Obligations.AssemblerWords := by
  unfold Obligations.AssemblerWords
  intro byte count crc len n value level leaveOpen rand origPtr hbyte hcount hcrc hlen hn hvalue hlevel hleaveOpen hrand
    horigPtr
  obtain ⟨byte, rfl⟩ := exists_toNat_eq hbyte
  obtain ⟨count, rfl⟩ := exists_toNat_eq hcount
  obtain ⟨crc, rfl⟩ := exists_toNat_eq hcrc
  obtain ⟨len, rfl⟩ := exists_toNat_eq hlen
  obtain ⟨n, rfl⟩ := exists_toNat_eq hn
  obtain ⟨value, rfl⟩ := exists_toNat_eq hvalue
  obtain ⟨level, rfl⟩ := exists_toNat_eq hlevel
  obtain ⟨leaveOpen, rfl⟩ := exists_bool_toNat_eq hleaveOpen
  obtain ⟨rand, rfl⟩ := exists_bool_toNat_eq hrand
  obtain ⟨origPtr, rfl⟩ := exists_toNat_eq horigPtr
  have hb : (byte.setWidth 32).toNat = byte.toNat := BitVec.toNat_setWidth_of_le (by decide)
  refine ⟨rfl, ?_, ?_, rfl, ?_, rfl, rfl, ?_, rfl, ?_, ?_, rfl⟩ <;>
    simp [AsmLine.words, AsmLine.expand, asmField_toNat, asmFlag_toNat, encode, packWord_eq_ofNat, hb, flagField_toNat]

/-- Settles O9: a line is refused when the field of one of its operands is. -/
theorem assemblerRefusals : Obligations.AssemblerRefusals := by
  unfold Obligations.AssemblerRefusals
  intro byte count crc len n value level leaveOpen rand origPtr
  simp only [words_eq_none_iff, AsmLine.expand, bind_map_eq_none_iff, Option.map_eq_none_iff, asmField_eq_none_iff,
    asmFlag_eq_none_iff]
  omega

/-! ### The pseudo-instructions (R85) -/

theorem expand_crcStr (bytes : List Byte) :
    (AsmLine.crcStr (bytes.map BitVec.toNat)).expand = some (bytes.map Instr.crcUpd) := by
  have hbyte : (fun c => (asmField 8 c).map Instr.crcUpd) ∘ BitVec.toNat = fun b => pure (Instr.crcUpd b) := by
    funext b
    simp [asmField_toNat]
  rw [AsmLine.expand, List.mapM_map, hbyte, List.mapM_pure]
  rfl

theorem setWidth_upper_half (v : Word) : (v.extractLsb' 16 16).setWidth 32 = v >>> 16 := by
  apply BitVec.eq_of_toNat_eq
  have hv : v.toNat < 2 ^ 32 := v.isLt
  simp [Nat.shiftRight_eq_div_pow]
  omega

theorem setWidth_lower_half (v : Word) : (v.extractLsb' 0 16).setWidth 32 = v &&& 0xFFFF := by
  apply BitVec.eq_of_toNat_eq
  have hmask : v.toNat &&& 65535 = v.toNat % 2 ^ 16 := Nat.and_two_pow_sub_one_eq_mod _ 16
  simp [hmask]
  omega

/-- Settles O10: each operand is read back from its number, and the two halves of `bw.put32` are cut from the word. -/
theorem pseudoInstructionExpansions : Obligations.PseudoInstructionExpansions := by
  unfold Obligations.PseudoInstructionExpansions
  intro bytes b v level
  refine ⟨expand_crcStr bytes, ?_, ?_, rfl, ?_⟩
  · simp only [AsmLine.expand, asmField_toNat, Option.map_some]
  · simp only [AsmLine.expand, asmField_toNat, Option.map_some, setWidth_upper_half, setWidth_lower_half]
  · simp only [AsmLine.expand, asmField_toNat, Option.map_some]

/-! ### The bits of the operand of `BW.PUT` (R78) -/

theorem lowBits_congr {n : Nat} {v v' : Word} (h : ∀ j, j < n → v.getLsbD j = v'.getLsbD j) :
    lowBits n v = lowBits n v' := by
  have hlow : v.setWidth n = v'.setWidth n := BitVec.eq_of_getLsbD_eq fun j hj => by simp [hj, h j hj]
  rw [lowBits, hlow, lowBits]

theorem put_congr {n : Nat} {v v' : Word} (h : ∀ j, j < n → v.getLsbD j = v'.getLsbD j) : put n v = put n v' := by
  funext s
  simp only [put, lowBits_congr h]

/-- Settles O32: the word packs both operands whole, and the body of `BW.PUT` reads `value` through `lowBits` only. -/
theorem bwPutIgnoresHighBits : Obligations.BwPutIgnoresHighBits := by
  unfold Obligations.BwPutIgnoresHighBits
  refine ⟨fun n value => ?_, fun n v v' s h => ?_⟩
  · have hword : encode (.bwPut n value) = BitVec.ofNat 72 (0x20 * 2 ^ 64 + n.toNat * 2 ^ 32 + value.toNat) :=
      packWord_eq_ofNat 0x20 n value
    rw [← hword, decodeOfEncode]
  · have hbody : bodyOf (.bwPut n v) = bodyOf (.bwPut n v') := put_congr h
    rw [exec_eq_after, exec_eq_after, after_eq, after_eq, hbody]
    rfl

end Sys2Proof.Machine
end

section
/-! The laws of the CRC arithmetic (40_crc.md R100, R101, R111) and the proofs of its statements: one shift is linear over
GF(2), and the ROM, the byte step, the bit-serial step and `Z_n` are iterates of it; doubling squares raises a matrix to a
power. -/

namespace Sys2Proof.Machine

/-! ### Linear maps over GF(2) -/

/-- `f` is linear over GF(2): it maps exclusive-or to exclusive-or. -/
def XorLinear (f : Word → Word) : Prop := ∀ x y, f (x ^^^ y) = f x ^^^ f y

theorem XorLinear.map_zero {f : Word → Word} (h : XorLinear f) : f 0 = 0 := by
  have h0 := h 0 0
  rwa [BitVec.xor_self, BitVec.xor_self] at h0

theorem XorLinear.iterate {f : Word → Word} (h : XorLinear f) (n : Nat) : XorLinear f^[n] := by
  intro x y
  induction n generalizing x y with
  | zero => rfl
  | succ n ih => simp only [Function.iterate_succ_apply, h x y, ih]

/-! ### One shift (R100) -/

/-- A multiple by a bit is additive in the bit. -/
theorem ite_xor {w : Nat} (p q : Bool) (x : BitVec w) :
    (if (p ^^ q) = true then x else 0) = (if p = true then x else 0) ^^^ (if q = true then x else 0) := by
  cases p <;> cases q <;> simp

theorem xor_xor_xor_comm {w : Nat} (a b c d : BitVec w) : a ^^^ b ^^^ (c ^^^ d) = a ^^^ c ^^^ (b ^^^ d) := by
  grind

theorem crcShift_eq (c : Word) : crcShift c = c <<< 1 ^^^ (if c.msb = true then poly else 0) := by
  rw [crcShift]
  split
  · rfl
  · exact BitVec.xor_zero.symm

theorem crcShift_xorLinear : XorLinear crcShift := by
  intro c d
  simp only [crcShift_eq, BitVec.msb_xor, ite_xor, BitVec.shiftLeft_xor_distrib, xor_xor_xor_comm]

/-- As long as no one is shifted out, the polynomial is never added. -/
theorem crcShift_iterate_of_clear {v : Word} {k : Nat} (h : ∀ i, 32 - k ≤ i → v.getLsbD i = false) :
    crcShift^[k] v = v <<< k := by
  induction k with
  | zero => simp
  | succ k ih =>
    have hmsb : (v <<< k).msb = false := by
      simp only [BitVec.msb_eq_getLsbD_last, BitVec.getLsbD_shiftLeft, h (31 - k) (by omega), Bool.and_false]
    rw [Function.iterate_succ_apply', ih fun i hi => h i (by omega), crcShift, if_neg (by simp [hmsb]),
      BitVec.shiftLeft_add]

/-! ### The byte step (R101) -/

/-- The byte step adds the byte at the top of the register and shifts eight times. -/
theorem byteStep_eq (r : Word) (b : Byte) : byteStep r b = crcShift^[8] (r ^^^ b.setWidth 32 <<< 24) := by
  have hsplit : r ^^^ b.setWidth 32 <<< 24 =
      (r.extractLsb' 24 8 ^^^ b).setWidth 32 <<< 24 ^^^ (r.setWidth 24).setWidth 32 := by
    refine BitVec.eq_of_getLsbD_eq fun i hi => ?_
    by_cases h : i < 24
    · simp [hi, h]
    · simp [hi, h, show i - 24 < 8 by omega, show 24 + (i - 24) = i by omega]
  have hlow : (r.setWidth 24).setWidth 32 <<< 8 = r <<< 8 := by
    refine BitVec.eq_of_getLsbD_eq fun i hi => ?_
    simp only [BitVec.getLsbD_shiftLeft, BitVec.getLsbD_setWidth]
    grind
  have hclear : crcShift^[8] ((r.setWidth 24).setWidth 32) = r <<< 8 := by
    rw [crcShift_iterate_of_clear (fun i hi => by simp; omega), hlow]
  rw [hsplit, crcShift_xorLinear.iterate, hclear, BitVec.xor_comm]
  rfl

/-- A zero byte is eight zero bits. -/
theorem byteStep_zero (r : Word) : byteStep r 0 = crcShift^[8] r := by
  rw [byteStep_eq]
  exact congrArg _ BitVec.xor_zero

theorem byteStep_xor (r r' : Word) (b b' : Byte) :
    byteStep (r ^^^ r') (b ^^^ b') = byteStep r b ^^^ byteStep r' b' := by
  have hswap : r ^^^ r' ^^^ (b ^^^ b').setWidth 32 <<< 24 =
      (r ^^^ b.setWidth 32 <<< 24) ^^^ (r' ^^^ b'.setWidth 32 <<< 24) := by
    rw [BitVec.setWidth_xor, BitVec.shiftLeft_xor_distrib, xor_xor_xor_comm]
  rw [byteStep_eq, byteStep_eq, byteStep_eq, hswap, crcShift_xorLinear.iterate]

/-- Shifting in the top bit of `u` and adding the rest of `u` below is adding `u` and shifting. -/
theorem crcShift_xor (r u : Word) : crcShift (r ^^^ u) = bitStep r u.msb ^^^ u <<< 1 := by
  simp only [crcShift, bitStep, BitVec.msb_xor, BitVec.shiftLeft_xor_distrib]
  cases r.msb <;> cases u.msb <;> grind

theorem bitsOf_succ {w : Nat} (n : Nat) (v : BitVec w) : bitsOf (n + 1) v = v.getLsbD n :: bitsOf n v := by
  rw [Nat.add_comm, bitsOf_add]
  simp [bitsOf]

/-- Shifting in the low `n` bits of `v` is adding them at the top of the register and shifting `n` times. -/
theorem foldl_bitStep_bitsOf {n : Nat} (hn : n ≤ 32) (v r : Word) :
    (bitsOf n v).foldl bitStep r = crcShift^[n] (r ^^^ v <<< (32 - n)) := by
  induction n generalizing r with
  | zero => simp [bitsOf]
  | succ n ih =>
    have hmsb : (v <<< (32 - (n + 1))).msb = v.getLsbD n := by
      simp only [BitVec.msb_eq_getLsbD_last, BitVec.getLsbD_shiftLeft]
      grind
    have hshift : v <<< (32 - (n + 1)) <<< 1 = v <<< (32 - n) := by
      rw [← BitVec.shiftLeft_add, show 32 - (n + 1) + 1 = 32 - n by omega]
    rw [bitsOf_succ, List.foldl_cons, ih (by omega), Function.iterate_succ_apply, crcShift_xor, hmsb, hshift]

theorem byteStep_eq_foldl_bitStep (r : Word) (b : Byte) : byteStep r b = (bitsOf 8 b).foldl bitStep r := by
  have hbits : bitsOf 8 b = bitsOf 8 (b.setWidth 32) := bitsOf_congr fun i hi => by simp; omega
  rw [hbits, foldl_bitStep_bitsOf (by decide), byteStep_eq]

/-- Settles O17: the table form is the definition, and the other two forms follow from the eight shifts. -/
theorem byteStepForms : Obligations.ByteStepForms := by
  unfold Obligations.ByteStepForms
  exact ⟨fun _ _ => rfl, byteStep_eq_foldl_bitStep, byteStep_xor⟩

/-! ### The ROM (R100) -/

/-- One step of `polyMul`: the multiple of `p` for the coefficient of `x^k` in `q` is added. -/
def addMultiple (p : BitVec 40) (q : Byte) (acc : BitVec 40) (k : Nat) : BitVec 40 :=
  if q.getLsbD k then acc ^^^ (p <<< k) else acc

theorem addMultiple_xor (p : BitVec 40) (q q' : Byte) (a a' : BitVec 40) (k : Nat) :
    addMultiple p (q ^^^ q') (a ^^^ a') k = addMultiple p q a k ^^^ addMultiple p q' a' k := by
  simp only [addMultiple, BitVec.getLsbD_xor]
  cases q.getLsbD k <;> cases q'.getLsbD k <;> grind

theorem foldl_addMultiple_xor (p : BitVec 40) (q q' : Byte) (ks : List Nat) (a a' : BitVec 40) :
    ks.foldl (addMultiple p (q ^^^ q')) (a ^^^ a') =
      ks.foldl (addMultiple p q) a ^^^ ks.foldl (addMultiple p q') a' := by
  induction ks generalizing a a' with
  | nil => rfl
  | cons k ks ih => rw [List.foldl_cons, addMultiple_xor, ih, List.foldl_cons, List.foldl_cons]

theorem polyMul_xor (q q' : Byte) (p : BitVec 40) : polyMul (q ^^^ q') p = polyMul q p ^^^ polyMul q' p :=
  foldl_addMultiple_xor p q q' (List.range 8) 0 0

/-- The product with `x^k`. -/
theorem polyMul_twoPow {k : Nat} (hk : k < 8) (p : BitVec 40) : polyMul (BitVec.twoPow 8 k) p = p <<< k := by
  interval_cases k <;> simp [polyMul, List.range_succ, BitVec.getLsbD_twoPow]

/-- One shift is the remainder of `c · x` by the generator polynomial. -/
theorem setWidth_shift_eq (c : Word) :
    c.setWidth 40 <<< 1 = (if c.msb = true then 0x104C11DB7#40 else 0) ^^^ (crcShift c).setWidth 40 := by
  have htop : c.setWidth 40 <<< 1 = (if c.msb then BitVec.twoPow 40 32 else 0) ^^^ (c <<< 1).setWidth 40 := by
    refine BitVec.eq_of_getLsbD_eq fun i hi => ?_
    rw [BitVec.msb_eq_getLsbD_last, BitVec.getLsbD_xor, apply_ite (BitVec.getLsbD · i)]
    simp only [BitVec.getLsbD_twoPow, BitVec.getLsbD_shiftLeft, BitVec.getLsbD_setWidth]
    grind
  have hpoly : (0x104C11DB7#40) = BitVec.twoPow 40 32 ^^^ poly.setWidth 40 := by decide
  rw [crcShift_eq, BitVec.setWidth_xor, htop, hpoly]
  cases c.msb <;> grind

/-- `k` shifts are the remainder of `c · x^k` by the generator polynomial. -/
theorem exists_quotient {k : Nat} (hk : k ≤ 8) (c : Word) :
    ∃ q : Byte, c.setWidth 40 <<< k = polyMul q 0x104C11DB7#40 ^^^ (crcShift^[k] c).setWidth 40 := by
  induction k generalizing c with
  | zero => exact ⟨0, by simp [polyMul]⟩
  | succ k ih =>
    obtain ⟨q, hq⟩ := ih (by omega) (crcShift c)
    rw [Nat.add_comm, BitVec.shiftLeft_add, setWidth_shift_eq, BitVec.shiftLeft_xor_distrib, hq, Nat.add_comm,
      Function.iterate_succ_apply]
    cases c.msb with
    | false => exact ⟨q, by simp⟩
    | true =>
      refine ⟨BitVec.twoPow 8 k ^^^ q, ?_⟩
      rw [polyMul_xor, polyMul_twoPow (by omega), BitVec.xor_assoc]
      rfl

/-- An entry is the remainder of `i · x^32`: `i · x^24` is the register that the eight shifts start from. -/
theorem tableEntry_remainder (i : Byte) :
    ∃ q : Byte, i.setWidth 40 <<< 32 = polyMul q 0x104C11DB7#40 ^^^ (tableEntry i).setWidth 40 := by
  have htop : i.setWidth 40 <<< 32 = (i.setWidth 32 <<< 24 : Word).setWidth 40 <<< 8 := by
    refine BitVec.eq_of_getLsbD_eq fun j hj => ?_
    simp only [BitVec.getLsbD_shiftLeft, BitVec.getLsbD_setWidth]
    grind
  rw [htop]
  exact exists_quotient le_rfl _

theorem rev32_xor (c d : Word) : rev32 (c ^^^ d) = rev32 c ^^^ rev32 d :=
  BitVec.eq_of_getLsbD_eq fun i hi => by
    simp only [rev32, BitVec.getLsbD_xor, BitVec.getLsbD_reverse, BitVec.getMsbD, hi, decide_true, Bool.true_and]

theorem rev32_ushiftRight_one (c : Word) : rev32 (c >>> 1) = rev32 c <<< 1 := by
  refine BitVec.eq_of_getLsbD_eq fun i hi => ?_
  simp only [rev32, BitVec.getLsbD_reverse, BitVec.getMsbD, BitVec.getLsbD_shiftLeft, BitVec.getLsbD_ushiftRight]
  grind

/-- A reflected shift is a shift of the bits in reverse order. -/
theorem rev32_reflectedShift (c : Word) : rev32 (reflectedShift c) = crcShift (rev32 c) := by
  have hmsb : (rev32 c).msb = c.getLsbD 0 := BitVec.msb_reverse
  have hpoly : rev32 reflectedPoly = poly := by decide +kernel
  unfold reflectedShift
  split
  · next h => rw [rev32_xor, rev32_ushiftRight_one, hpoly, crcShift, if_pos (hmsb.trans h)]
  · next h => rw [rev32_ushiftRight_one, crcShift, if_neg (hmsb ▸ h)]

theorem rev32_setWidth (j : Byte) : rev32 (j.setWidth 32) = (rev8 j).setWidth 32 <<< 24 := by
  refine BitVec.eq_of_getLsbD_eq fun i hi => ?_
  simp only [rev32, rev8, BitVec.getLsbD_reverse, BitVec.getMsbD, BitVec.getLsbD_shiftLeft, BitVec.getLsbD_setWidth]
  grind

theorem tableEntry_rev8 (j : Byte) : tableEntry (rev8 j) = rev32 (reflectedEntry j) := by
  rw [reflectedEntry, (Function.Semiconj.iterate_right rev32_reflectedShift 8).eq, rev32_setWidth]
  rfl

/-- Settles O16: the shifts of the first construction divide by the generator, and those of the second are the same shifts
on reversed bits. -/
theorem tableConstructionsAgree : Obligations.TableConstructionsAgree := by
  unfold Obligations.TableConstructionsAgree
  refine ⟨tableEntry_remainder, fun _ => rfl, fun c => ?_, tableEntry_rev8, by decide⟩
  rw [crcShift, BitVec.msb_eq_getLsbD_last]
  rfl

/-! ### The zero-extension operator (R111) -/

theorem zeroExt_add (m n : Nat) (c : Word) : zeroExt (m + n) c = zeroExt m (zeroExt n c) := by
  rw [zeroExt, Nat.mul_add, Function.iterate_add_apply]
  rfl

theorem zeroExt_xorLinear (n : Nat) : XorLinear (zeroExt n) := crcShift_xorLinear.iterate (8 * n)

theorem zeroExt_one (c : Word) : zeroExt 1 c = byteStep c 0 := (byteStep_zero c).symm

/-- `Z_n` folds `n` zero bytes. -/
theorem zeroExt_eq_iterate_byteStep (n : Nat) (c : Word) : zeroExt n c = (fun x => byteStep x 0)^[n] c := by
  have hbyte : (fun x => byteStep x 0) = crcShift^[8] := funext byteStep_zero
  rw [hbyte, ← Function.iterate_mul]
  rfl

/-- Settles O26: `Z_n` is an iterate of the linear shift. -/
theorem zeroExtensionLaws : Obligations.ZeroExtensionLaws := by
  unfold Obligations.ZeroExtensionLaws
  exact ⟨fun _ => rfl, zeroExt_add, zeroExt_xorLinear, zeroExt_eq_iterate_byteStep⟩

/-! ### Matrices over GF(2) -/

theorem applyFrom_xorLinear (m : BitMatrix) (k : Nat) : XorLinear (applyFrom m k) := by
  induction m generalizing k with
  | nil => exact fun _ _ => BitVec.xor_self.symm
  | cons col cols ih =>
    intro v w
    simp only [applyFrom, ih (k + 1) v w, BitVec.getLsbD_xor, ite_xor, xor_xor_xor_comm]

/-- The columns mapped are the matrix followed by the map. -/
theorem applyFrom_map {f : Word → Word} (hf : XorLinear f) (m : BitMatrix) (k : Nat) (v : Word) :
    applyFrom (m.map f) k v = f (applyFrom m k v) := by
  induction m generalizing k with
  | nil => exact hf.map_zero.symm
  | cons col cols ih =>
    rw [applyFrom, hf, ← ih, List.map_cons, applyFrom, apply_ite f, hf.map_zero]

/-- The unit columns from bit `k` on pick the bits from `k` on. -/
theorem getLsbD_applyFrom_unit (n k : Nat) (v : Word) (i : Nat) :
    (applyFrom ((List.range' k n).map fun j => 1#32 <<< j) k v).getLsbD i =
      (decide (k ≤ i ∧ i < k + n) && v.getLsbD i) := by
  induction n generalizing k with
  | zero => simp [applyFrom]
  | succ n ih =>
    rw [List.range'_succ, List.map_cons, applyFrom, BitVec.getLsbD_xor, ih]
    have hcol : (if v.getLsbD k then 1#32 <<< k else 0).getLsbD i = (decide (i = k ∧ i < 32) && v.getLsbD i) := by
      rw [apply_ite (BitVec.getLsbD · i), BitVec.getLsbD_shiftLeft, BitVec.getLsbD_one]
      grind
    grind

/-- A linear map is given by its matrix. -/
theorem matrixOf_apply {f : Word → Word} (hf : XorLinear f) (v : Word) : (matrixOf f).apply v = f v := by
  have hunit : applyFrom ((List.range 32).map fun j => 1#32 <<< j) 0 v = v := by
    rw [List.range_eq_range']
    refine BitVec.eq_of_getLsbD_eq fun i hi => ?_
    simp only [getLsbD_applyFrom_unit]
    simp [hi]
  have hmap : matrixOf f = ((List.range 32).map fun j => 1#32 <<< j).map f := by simp [matrixOf]
  rw [BitMatrix.apply, hmap, applyFrom_map hf, hunit]

theorem apply_xorLinear (m : BitMatrix) : XorLinear m.apply := applyFrom_xorLinear m 0

theorem square_apply (m : BitMatrix) (v : Word) : m.square.apply v = m.apply (m.apply v) :=
  applyFrom_map (apply_xorLinear m) m 0 v

/-! ### Doubling (R105, R111) -/

/-- An iterate by its lowest bit: once if the number is odd, then twice at a time. -/
theorem iterate_by_halves {α : Type} (f : α → α) (n : Nat) (x : α) :
    (f^[2])^[n / 2] (if n % 2 = 1 then f x else x) = f^[n] x := by
  rw [← Function.iterate_mul]
  split
  · rw [← Function.iterate_succ_apply, show (2 * (n / 2)).succ = n by omega]
  · rw [show 2 * (n / 2) = n by omega]

/-- Squaring from bit to bit is the power of the map the matrix stands for. -/
theorem applyPowers_eq (fuel : Nat) (m : BitMatrix) (bits : Nat) (c : Word) (h : bits < 2 ^ fuel) :
    applyPowers fuel m bits c = m.apply^[bits] c := by
  induction fuel generalizing m bits c with
  | zero => rw [show bits = 0 by omega]; rfl
  | succ fuel ih =>
    have hsquare : m.square.apply = m.apply^[2] := funext (square_apply m)
    rw [applyPowers, ih _ _ _ (by omega), hsquare, iterate_by_halves]

/-- Settles O27: the matrix of the shift, raised to the power of `8·n`. -/
theorem zeroExtensionByDoubling : Obligations.ZeroExtensionByDoubling := by
  unfold Obligations.ZeroExtensionByDoubling
  intro n c hn
  have hmatrix : (matrixOf crcShift).apply = crcShift := funext (matrixOf_apply crcShift_xorLinear)
  rw [zeroExtDoubling, applyPowers_eq _ _ _ _ (by omega), hmatrix]
  rfl

/-- Squaring a matrix and its vector from bit to bit is the power of the affine map they stand for. -/
theorem repeatPowers_eq (fuel : Nat) (m : BitMatrix) (d : Word) (count : Nat) (r : Word) (h : count < 2 ^ fuel) :
    repeatPowers fuel m d count r = (fun x => m.apply x ^^^ d)^[count] r := by
  induction fuel generalizing m d count r with
  | zero => rw [show count = 0 by omega]; rfl
  | succ fuel ih =>
    have hsquare : (fun x => m.square.apply x ^^^ (m.apply d ^^^ d)) = (fun x => m.apply x ^^^ d)^[2] := by
      funext x
      rw [square_apply, ← BitVec.xor_assoc, ← apply_xorLinear m]
      rfl
    rw [repeatPowers, ih _ _ _ _ (by omega), hsquare]
    exact iterate_by_halves (fun x => m.apply x ^^^ d) count r

/-- Settles O28: the byte step is the affine map `x ↦ byteStep x 0 ^ byteStep 0 b`, raised to the power of the count. -/
theorem repeatedUpdateByDoubling : Obligations.RepeatedUpdateByDoubling := by
  unfold Obligations.RepeatedUpdateByDoubling
  intro n b r hn
  have hlinear : XorLinear fun x => byteStep x 0 := fun x y => byteStep_xor x y 0 0
  have hstep : (fun x => (matrixOf fun x => byteStep x 0).apply x ^^^ byteStep 0 b) = fun x => byteStep x b := by
    funext x
    rw [matrixOf_apply hlinear, ← byteStep_xor]
    simp
  rw [byteStepNDoubling, repeatPowers_eq _ _ _ _ _ hn, hstep]
  rfl

end Sys2Proof.Machine
end

section
/-! The proofs of the statements of 40_crc.md about the CRC commands: what each does, the words they have, and the byte
strings and blocks they are issued for. -/

namespace Sys2Proof.Machine

/-! ### What a CRC command does (R103 to R110) -/

/-- `RES` after a CRC command that found `r`, `c` and `res` in the CRC registers; `crcAfter` says what `R` and `C` are. -/
def resAfter (i : Instr) (r c res : Word) : Word :=
  match i with
  | .crcRes => ~~~ r
  | .crcRdc => c
  | _ => res

/-- Outside FAILED a CRC command writes `R`, `C` and `RES`, from these three and its operands alone (R110). -/
theorem after_crcCommand {i : Instr} (hi : isCrcCommand i = true) {s : State} (hp : s.phase ≠ .failed) :
    after i s = s.withCrc (crcAfter i s.r s.c).1 (crcAfter i s.r s.c).2 (resAfter i s.r s.c s.res) := by
  have hphase : (s.phase != .failed) = true := bne_iff_ne.mpr hp
  cases i with
  | crcReset | crcUpd | crcUpdn | crcRes | crcComb | crcFold | crcRdc => exact after_body hphase rfl
  | bwPut | bwFlush | faShdr | faBhdr | faStrl => cases hi

section
variable {s : State}

theorem after_crcReset (hp : s.phase ≠ .failed) : after .crcReset s = s.setR allOnes := after_crcCommand rfl hp

theorem after_crcUpd (byte : Byte) (hp : s.phase ≠ .failed) : after (.crcUpd byte) s = s.setR (byteStep s.r byte) :=
  after_crcCommand rfl hp

theorem after_crcUpdn (byte : Byte) (count : Word) (hp : s.phase ≠ .failed) :
    after (.crcUpdn byte count) s = s.setR (byteStepN count.toNat byte s.r) := after_crcCommand rfl hp

theorem after_crcRes (hp : s.phase ≠ .failed) : after .crcRes s = s.setRes (~~~ s.r) := after_crcCommand rfl hp

theorem after_crcComb (crc len : Word) (hp : s.phase ≠ .failed) :
    after (.crcComb crc len) s = s.setR (combine s.r crc len) := after_crcCommand rfl hp

theorem after_crcFold (hp : s.phase ≠ .failed) : after .crcFold s = s.setC (foldBlock s.c s.r) := after_crcCommand rfl hp

theorem after_crcRdc (hp : s.phase ≠ .failed) : after .crcRdc s = s.setRes s.c := after_crcCommand rfl hp

end

/-- Settles O24: what a CRC command makes of `R`, `C` and `RES` is a function of these three. -/
theorem crcPhaseRule : Obligations.CrcPhaseRule := by
  unfold Obligations.CrcPhaseRule
  intro i hi s
  simp only [exec_eq_after]
  refine ⟨fun hp => congrArg _ (after_failed i hp), fun hp => ⟨_, rfl, ?_, fun u hu hr hc hres => ?_⟩⟩
  · rw [after_crcCommand hi hp]
    rfl
  · rw [after_crcCommand hi hu, after_crcCommand hi hp, hr, hc, hres]
    rfl

/-- Settles O25: in FAILED nothing changes, and elsewhere each command is one update of its register. -/
theorem crcFamilyFrame : Obligations.CrcFamilyFrame := by
  unfold Obligations.CrcFamilyFrame
  intro s t byte count crc len
  simp only [exec_next_iff]
  by_cases hp : s.phase = .failed
  · simp only [after_failed _ hp, or_self]
    exact ⟨fun h => h ▸ rfl, fun h => h ▸ rfl, fun h => h ▸ rfl⟩
  · rw [after_crcReset hp, after_crcUpd byte hp, after_crcUpdn byte count hp, after_crcComb crc len hp, after_crcRes hp,
      after_crcRdc hp, after_crcFold hp]
    refine ⟨?_, ?_, ?_⟩
    · rintro (rfl | rfl | rfl | rfl) <;> rfl
    · rintro (rfl | rfl) <;> rfl
    · rintro rfl
      rfl

/-! ### The words of the CRC commands (30_encoding.md R74, R77) -/

/-- The word a command is encoded as is its only word. -/
theorem encodedAs_encode (i : Instr) : EncodedAs i (encode i) := fun v =>
  ⟨fun h => (encodeOfDecode v i h).symm, fun h => h ▸ decodeOfEncode i⟩

/-- A command whose operand B is a byte. -/
theorem encodedAs_of_byte {i : Instr} {op byte : Byte} {a : Word} (h : encode i = packWord op a (byte.setWidth 32)) :
    EncodedAs i (BitVec.ofNat 72 (op.toNat * 2 ^ 64 + a.toNat * 2 ^ 32 + byte.toNat)) := by
  have hbyte : (byte.setWidth 32).toNat = byte.toNat := BitVec.toNat_setWidth_of_le (by decide)
  rw [← hbyte, ← packWord_eq_ofNat, ← h]
  exact encodedAs_encode i

/-! ### The single commands (R103, R104, R106, R109) -/

/-- A `CRC.RES` straight after `CRC.RESET` returns the complement of all ones, which is the CRC of the empty string. -/
theorem runCommands_crcReset_crcRes {s : State} (hp : s.phase ≠ .failed) :
    (runCommands [.crcReset, .crcRes] s).res = 0x00000000 := by
  have hres : ~~~ allOnes = 0 := by decide
  rw [runCommands_cons, runCommands_cons, after_crcReset hp, after_crcRes (by exact hp)]
  exact hres

/-- Settles O18: the word is the encoded one, and `CRC.RESET` is one update of `R`. -/
theorem crcResetResult : Obligations.CrcResetResult := by
  unfold Obligations.CrcResetResult
  refine ⟨encodedAs_encode .crcReset, fun s hp => ⟨?_, runCommands_crcReset_crcRes hp⟩⟩
  rw [exec_eq_after, after_crcReset hp]
  rfl

/-- Settles O19: `CRC.UPD` is one byte step, whose top byte R104 writes as a shift and a truncation. -/
theorem crcUpdResult : Obligations.CrcUpdResult := by
  unfold Obligations.CrcUpdResult
  refine ⟨fun byte => encodedAs_of_byte (op := 0x11) (a := 0) rfl, fun byte s hp => ?_, by decide +kernel⟩
  rw [exec_eq_after, after_crcUpd byte hp, BitVec.setWidth_ushiftRight_eq_extractLsb]
  rfl

/-- Settles O21: a `FA.SHDR` that ends outside FAILED has cleared `C`. -/
theorem resultReads : Obligations.ResultReads := by
  unfold Obligations.ResultReads
  refine ⟨encodedAs_encode .crcRes, encodedAs_encode .crcRdc, fun s hp => ?_, rfl, ?_⟩
  · rw [exec_eq_after, exec_eq_after, after_crcRes hp, after_crcRdc hp]
    exact ⟨rfl, rfl, runCommands_crcReset_crcRes hp⟩
  · intro level leaveOpen s _ hopened
    have hp : (after (.faShdr level leaveOpen) s).phase ≠ .failed := by simp [hopened]
    obtain ⟨-, hc⟩ := Prod.mk.inj (after_crc hp)
    rw [runCommands_cons, runCommands_cons, after_crcRdc hp]
    exact hc

/-! ### Byte strings (R102, R107) -/

/-- A difference in the register before a byte string comes through as its zero extension. -/
theorem foldBytes_xor (d r : Word) (bytes : List Byte) :
    foldBytes (d ^^^ r) bytes = zeroExt bytes.length d ^^^ foldBytes r bytes := by
  induction bytes generalizing d r with
  | nil => rfl
  | cons b bs ih =>
    have hstep : byteStep (d ^^^ r) b = byteStep d 0 ^^^ byteStep r b := by
      rw [← byteStep_xor]
      exact congrArg _ BitVec.zero_xor.symm
    have hcons (x : Word) : foldBytes x (b :: bs) = foldBytes (byteStep x b) bs := rfl
    rw [hcons, hcons, hstep, ih, List.length_cons, zeroExt_add, zeroExt_one]

/-- The combination with a segment known by its CRC and length folds the segment's bytes. -/
theorem combine_crcOf (r : Word) {bytes : List Byte} (h : bytes.length < 2 ^ 32) :
    combine r (crcOf bytes) (BitVec.ofNat 32 bytes.length) = foldBytes r bytes := by
  have hlen : (BitVec.ofNat 32 bytes.length).toNat = bytes.length := Nat.mod_eq_of_lt h
  unfold combine
  split
  · next h0 =>
    rw [h0] at hlen
    rw [List.length_eq_zero_iff.mp hlen.symm]
    rfl
  · have hr : ~~~ r ^^^ allOnes = r := BitVec.xor_allOnes.trans BitVec.not_not
    have hfold := foldBytes_xor (~~~ r) allOnes bytes
    rw [hr] at hfold
    rw [hlen, hfold, crcOf, BitVec.not_xor_right, BitVec.not_not]

/-- The combined register is the complement of the CRC of the joined string (R112). -/
theorem not_combine_crcOf (x : List Byte) {y : List Byte} (hy : y.length < 2 ^ 32) :
    ~~~ (combine (~~~ crcOf x) (crcOf y) (BitVec.ofNat 32 y.length)) = crcOf (x ++ y) := by
  rw [crcOf, BitVec.not_not, combine_crcOf _ hy, crcOf, foldBytes, foldBytes, foldBytes, List.foldl_append]

/-- Settles O22: the joined segment law is `not_combine_crcOf`, and an empty first segment leaves `Z_len(0) = 0`. -/
theorem crcCombResult : Obligations.CrcCombResult := by
  unfold Obligations.CrcCombResult
  refine ⟨fun crc len => ?_, fun crc len s hp => ?_, fun x y hy => not_combine_crcOf x hy, by decide +kernel⟩
  · exact packWord_eq_ofNat 0x14 len crc ▸ encodedAs_encode (.crcComb crc len)
  · rw [exec_eq_after, after_crcComb crc len hp, combine]
    refine ⟨fun hlen => by rw [if_neg hlen]; rfl, fun hlen => by rw [if_pos hlen]; rfl, fun hlen hr => ?_⟩
    have hzero : ~~~ s.r = 0 := by rw [hr]; rfl
    rw [if_neg hlen, hzero, (zeroExt_xorLinear _).map_zero]
    exact congrArg (fun v => Host.Outcome.next (s.setR (~~~ v))) BitVec.zero_xor

/-! ### Runs of `CRC.UPD` (R105, R112) -/

/-- A run of `CRC.UPD` folds its bytes into `R` and changes nothing else. -/
theorem runCommands_crcUpd (bytes : List Byte) {s : State} (hp : s.phase ≠ .failed) :
    runCommands (bytes.map Instr.crcUpd) s = s.setR (foldBytes s.r bytes) := by
  induction bytes generalizing s with
  | nil => rfl
  | cons b bs ih =>
    rw [List.map_cons, runCommands_cons, after_crcUpd b hp]
    exact ih hp

theorem foldBytes_replicate (n : Nat) (b : Byte) (r : Word) : foldBytes r (List.replicate n b) = byteStepN n b r := by
  induction n generalizing r with
  | zero => rfl
  | succ n ih => exact ih (byteStep r b)

/-- Settles O20: both sides are the byte step, iterated. -/
theorem crcUpdnIsRepeatedUpd : Obligations.CrcUpdnIsRepeatedUpd := by
  unfold Obligations.CrcUpdnIsRepeatedUpd
  refine ⟨fun byte count => encodedAs_of_byte (op := 0x12) rfl, fun byte count s hp => ?_, by decide +kernel⟩
  simp only [exec_eq_after, after_crcUpdn byte _ hp, after_crcUpd byte hp]
  rw [← List.map_replicate, runCommands_crcUpd _ hp, foldBytes_replicate]
  exact ⟨rfl, rfl, rfl, rfl⟩

/-- `CRC.RESET` and a block's bytes leave the complement of the block's CRC in `R` (R102, R103). -/
theorem runCommands_block (bytes : List Byte) {s : State} (hp : s.phase ≠ .failed) :
    runCommands (.crcReset :: bytes.map Instr.crcUpd) s = s.setR (~~~ crcOf bytes) := by
  rw [runCommands_cons, after_crcReset hp, runCommands_crcUpd bytes (by exact hp), crcOf, BitVec.not_not]
  rfl

/-- Settles O29: after the first segment's run `R` is the complement of its CRC. -/
theorem combineLaw : Obligations.CombineLaw := by
  unfold Obligations.CombineLaw
  intro x y s hp hy
  rw [runCommands_append, runCommands_block x hp, runCommands_cons, after_crcComb _ _ (by exact hp)]
  exact not_combine_crcOf x hy

/-! ### The fold of the blocks (R108, R113) -/

theorem rotl1_eq (x : Word) : rotl1 x = x.rotateLeft 1 := rfl

theorem rotateLeft_xor (x y : Word) (n : Nat) : (x ^^^ y).rotateLeft n = x.rotateLeft n ^^^ y.rotateLeft n := by
  refine BitVec.eq_of_getElem_eq fun i hi => ?_
  simp only [BitVec.getElem_rotateLeft, BitVec.getElem_xor]
  split <;> rfl

theorem rotateLeft_rotl1 (x : Word) (n : Nat) : (rotl1 x).rotateLeft n = x.rotateLeft (n + 1) := by
  refine BitVec.eq_of_getElem_eq fun i hi => ?_
  simp only [rotl1_eq, BitVec.getElem_rotateLeft]
  grind

theorem zero_rotateLeft (n : Nat) : (0 : Word).rotateLeft n = 0 := by
  simp [BitVec.rotateLeft_def]

/-- Settles O23: an empty block has the CRC 0, so that only the rotation is left. -/
theorem crcFoldResult : Obligations.CrcFoldResult := by
  unfold Obligations.CrcFoldResult
  refine ⟨encodedAs_encode .crcFold, fun s hp => ?_, by decide⟩
  rw [exec_eq_after, after_crcFold hp]
  refine ⟨rfl, fun hr => ⟨?_, by simp⟩⟩
  have hfold : foldBlock s.c s.r = s.c.rotateLeft 1 := by
    rw [foldBlock, hr]
    exact BitVec.xor_zero
  rw [hfold]
  rfl

theorem foldLaw_nil (c : Word) : foldLaw c [] = c := by
  refine BitVec.eq_of_getElem_eq fun i hi => ?_
  simp [foldLaw, BitVec.getElem_rotateLeft]

/-- The closed form, one block at a time: a fold before the others is rotated by each of them. -/
theorem foldLaw_cons (c b : Word) (bs : List Word) : foldLaw c (b :: bs) = foldLaw (rotl1 c ^^^ b) bs := by
  have hrest : (bs.zipIdx 1).map (fun p => p.1.rotateLeft (bs.length + 1 - 1 - p.2)) =
      bs.zipIdx.map fun p => p.1.rotateLeft (bs.length - 1 - p.2) := by
    rw [List.zipIdx_succ, List.map_map]
    refine List.map_congr_left fun p _ => ?_
    rw [Function.comp_apply, show bs.length + 1 - 1 - (p.2 + 1) = bs.length - 1 - p.2 by omega]
  simp only [foldLaw, List.zipIdx_cons, List.map_cons, List.length_cons, List.foldl_cons, rotateLeft_xor,
    rotateLeft_rotl1, hrest]
  rfl

/-- A block and its fold (R113). -/
theorem runCommands_foldedBlock (bytes : List Byte) {s : State} (hp : s.phase ≠ .failed) :
    runCommands (.crcReset :: bytes.map Instr.crcUpd ++ [.crcFold]) s =
      (s.setR (~~~ crcOf bytes)).setC (rotl1 s.c ^^^ crcOf bytes) := by
  rw [runCommands_append, runCommands_block bytes hp, runCommands_cons, after_crcFold (by exact hp), foldBlock]
  simp only [State.setR_r, State.setR_c, BitVec.not_not]
  rfl

/-- The blocks of a stream, each with its fold (R113). -/
theorem runCommands_foldedBlocks (blocks : List (List Byte)) {s : State} (hp : s.phase ≠ .failed) :
    (runCommands (blocks.flatMap fun bytes => .crcReset :: bytes.map Instr.crcUpd ++ [.crcFold]) s).c =
      foldLaw s.c (blocks.map crcOf) := by
  induction blocks generalizing s with
  | nil => exact (foldLaw_nil s.c).symm
  | cons bytes blocks ih =>
    rw [List.flatMap_cons, runCommands_append, runCommands_foldedBlock bytes hp, List.map_cons, foldLaw_cons]
    exact ih hp

/-- Settles O30: block by block the closed form is the fold of R108. -/
theorem foldLawHolds : Obligations.FoldLaw := by
  unfold Obligations.FoldLaw
  refine ⟨fun blocks s hp => runCommands_foldedBlocks blocks hp, fun bs => ?_, by decide +kernel⟩
  rw [foldLaw, zero_rotateLeft]

end Sys2Proof.Machine
end

section
/-! The proofs of the statements of 41_bitwriter.md: what `BW.PUT` and `BW.FLUSH` do, the invariant of the accumulator, the
bit-sequence law, and the frame of the commands that write to the sink. -/

namespace Sys2Proof.Machine

/-! ### `BW.PUT` (R131, R132) -/

/-- The state at a refused call after `j` bytes taken (60_exceptions.md R184), field by field. -/
theorem consumeAnswers_one_written {j : Nat} {s : State} (h : 8 * j ≤ s.nacc.toNat) :
    consumeAnswers 1 (written j s) =
      { consumeAnswers (j + 1) s with
        sinkOut := s.sinkOut ++ firstBytes j s.acc
        acc := s.acc <<< (8 * j)
        nacc := BitVec.ofNat 5 (s.nacc.toNat - 8 * j) } := by
  have hn : (written j s).nacc = BitVec.ofNat 5 (s.nacc.toNat - 8 * j) := by
    rw [← written_nacc j s h, BitVec.ofNat_toNat, BitVec.setWidth_eq]
  rw [← consumeAnswers_add j 1, ← hn]
  rfl

/-- The state after a `Put` whose drain the sink takes. -/
theorem appended_written (n : Nat) (v : Word) (s : State) :
    appended n v (written (s.nacc.toNat / 8) s) =
      { consumeAnswers (s.nacc.toNat / 8) s with
        sinkOut := s.sinkOut ++ firstBytes (s.nacc.toNat / 8) s.acc
        acc := (s.acc <<< (8 * (s.nacc.toNat / 8))) ||| (lowBits n v <<< (32 - s.nacc.toNat % 8 - n))
        nacc := BitVec.ofNat 5 (s.nacc.toNat % 8 + n) } := by
  have hmod : (written (s.nacc.toNat / 8) s).nacc.toNat = s.nacc.toNat % 8 := by
    rw [written_nacc _ s (by omega)]
    omega
  have hnacc : (written (s.nacc.toNat / 8) s).nacc + BitVec.ofNat 5 n = BitVec.ofNat 5 (s.nacc.toNat % 8 + n) := by
    rw [BitVec.ofNat_add, ← hmod, BitVec.ofNat_toNat, BitVec.setWidth_eq]
  rw [appended, hmod, hnacc]
  rfl

/-- A `Put` whose drain the sink refuses appends nothing. -/
theorem put_fail {n : Nat} {v : Word} {s : State} {j : Nat} (hj : j < s.nacc.toNat / 8) (h : answersOk s j)
    (hf : answerAt s j = .fail) : put n v s = .ended (raiseError .underlyingIO (consumeAnswers 1 (written j s))) := by
  rw [put_eq, drain_fail hj h hf]
  rfl

/-- In IDLE and CLOSED a command that is legal in OPEN only raises its error (R130). -/
theorem exec_of_idle_or_closed {i : Instr} {s : State} (hi : ∀ p, phaseLegal i p = (p == .opened))
    (hp : s.phase = .idle ∨ s.phase = .closed) : exec i s = .next (failedWith .invalidState s) := by
  rw [exec_eq_after, after_invalid]
  · rcases hp with hp | hp <;> simp [hp]
  · rcases hp with hp | hp <;> rw [hi, hp] <;> rfl

/-- In OPEN such a command, its operands in range, runs its body. -/
theorem exec_of_opened {i : Instr} {s : State} (hi : ∀ p, phaseLegal i p = (p == .opened)) (hp : s.phase = .opened)
    (ho : operandErrorOf i = none) : exec i s = .next (bodyOf i s).state := by
  rw [exec_eq_after, after_body (by rw [hi, hp]; rfl) ho]

/-- Settles O31: the checks come first, then the drain decides, and after it the append is one update. -/
theorem bwPutResult : Obligations.BwPutResult := by
  unfold Obligations.BwPutResult
  intro n value
  have hword : encode (.bwPut n value) = BitVec.ofNat 72 (0x20 * 2 ^ 64 + n.toNat * 2 ^ 32 + value.toNat) :=
    packWord_eq_ofNat 0x20 n value
  have hlegal : ∀ p, phaseLegal (.bwPut n value) p = (p == .opened) := fun _ => rfl
  refine ⟨hword ▸ encodedAs_encode _, fun s => ⟨exec_of_idle_or_closed hlegal, fun hp hn => ?_, fun hp hn ho => ?_,
    fun j hp hn hj ho hf => ?_⟩⟩
  · rw [exec_eq_after, after_operand (e := .fieldRange) (by rw [hlegal, hp]; rfl) (by simp [operandErrorOf, hn])]
  · rw [exec_of_opened hlegal hp (operandErrorOf_bwPut_eq_none_iff.mpr hn), bodyOf, put_ok ho, Progress.state,
      appended_written]
    rfl
  · rw [exec_of_opened hlegal hp (operandErrorOf_bwPut_eq_none_iff.mpr hn), bodyOf, put_fail hj ho hf, Progress.state,
      consumeAnswers_one_written (by omega)]
    rfl

/-! ### `BW.FLUSH` (R131, R133) -/

/-- Once the accumulator is emptied, writing its top byte after `k` others is writing one byte more. -/
theorem setPending_appendOut_topByte {k : Nat} (s : State) (hk : k ≤ 3) :
    ((consumeAnswers 1 (written k s)).appendOut (topByte (written k s))).setPending 0 0 =
      (written (k + 1) s).setPending 0 0 := by
  have hbytes : firstBytes (k + 1) s.acc = firstBytes k s.acc ++ [topByte (written k s)] := by
    rw [topByte_written k s hk]
    simp [firstBytes, List.range_succ]
  have hcalls : consumeAnswers 1 (consumeAnswers k s) = consumeAnswers (k + 1) s := consumeAnswers_add k 1 s
  have hout : (written (k + 1) s).setPending 0 0 =
      { consumeAnswers 1 (consumeAnswers k s) with
        sinkOut := s.sinkOut ++ firstBytes (k + 1) s.acc, acc := 0, nacc := 0 } := by rw [hcalls]; rfl
  rw [hout, hbytes, ← List.append_assoc]
  rfl

/-- With nothing pending a clean accumulator is empty already. -/
theorem setPending_zero {s : State} (hc : AccClean s) (hn : s.nacc = 0) : s.setPending 0 0 = s := by
  have hacc := acc_zero_of_clean hc hn
  cases s
  cases hn
  cases hacc
  rfl

/-- A flush whose bytes the sink takes: the complete ones, and the partial one where there is one. -/
theorem flush_ok {s : State} (hc : AccClean s) (h : answersOk s ((s.nacc.toNat + 7) / 8)) :
    flush s = .going ((written ((s.nacc.toNat + 7) / 8) s).setPending 0 0) := by
  have hlt := s.nacc.isLt
  have hw := written_nacc (s.nacc.toNat / 8) s (by omega)
  rw [flush_eq, drain_ok (answersOk_mono (by omega) h), Progress.andThen, flushRest]
  split
  · have ha : answerAt (written (s.nacc.toNat / 8) s) 0 = .ok :=
      ((wrote_written _ s).answerAt 0).trans (h _ (by omega))
    rw [sinkWrite_ok _ ha, Progress.andThen, setPending_appendOut_topByte s (by omega),
      show s.nacc.toNat / 8 + 1 = (s.nacc.toNat + 7) / 8 by omega]
  · rw [show (s.nacc.toNat + 7) / 8 = s.nacc.toNat / 8 by omega, setPending_zero]
    · exact accClean_written (by omega) hc
    · exact BitVec.eq_of_toNat_eq (by simp; omega)

/-- A flush of which the sink refuses a byte, a complete one or the partial one. -/
theorem flush_fail {s : State} {j : Nat} (hj : j < (s.nacc.toNat + 7) / 8) (h : answersOk s j)
    (hf : answerAt s j = .fail) : flush s = .ended (raiseError .underlyingIO (consumeAnswers 1 (written j s))) := by
  rw [flush_eq]
  by_cases hfull : j < s.nacc.toNat / 8
  · rw [drain_fail hfull h hf]
    rfl
  · have hj' : j = s.nacc.toNat / 8 := by omega
    subst hj'
    have ha : answerAt (written (s.nacc.toNat / 8) s) 0 = .fail := ((wrote_written _ s).answerAt 0).trans hf
    have hw := written_nacc (s.nacc.toNat / 8) s (by omega)
    rw [drain_ok h, Progress.andThen, flushRest, if_pos (by omega), sinkWrite_fail _ ha]
    rfl

/-- Settles O33: the answers decide whether the flush ends, and with nothing pending it needs none. -/
theorem bwFlushResult : Obligations.BwFlushResult := by
  unfold Obligations.BwFlushResult
  have hlegal : ∀ p, phaseLegal .bwFlush p = (p == .opened) := fun _ => rfl
  refine ⟨encodedAs_encode .bwFlush, fun s hc => ⟨exec_of_idle_or_closed hlegal, fun hp ho => ?_, fun hp hn => ?_,
    fun j hp hj ho hf => ?_⟩⟩
  · rw [exec_of_opened hlegal hp rfl, bodyOf, flush_ok hc ho]
    rfl
  · have hbytes : (s.nacc.toNat + 7) / 8 = 0 := by simp [hn]
    rw [exec_of_opened hlegal hp rfl, bodyOf, flush_ok hc (by rw [hbytes]; exact nofun), hbytes, written_zero,
      setPending_zero hc hn, Progress.state]
  · rw [exec_of_opened hlegal hp rfl, bodyOf, flush_fail hj ho hf, Progress.state,
      consumeAnswers_one_written (by omega)]
    rfl

/-! ### The invariant of the accumulator (R134) -/

/-- Every command leaves the accumulator clean, whether it goes on, is refused or is ignored. -/
theorem after_clean (i : Instr) {s : State} (hc : AccClean s) : AccClean (after i s) := by
  rcases after_cases i s with ⟨-, h⟩ | ⟨-, -, h⟩ | ⟨e, -, -, h⟩ | ⟨hl, ho, h⟩ <;> rw [h]
  · exact hc
  · exact hc
  · exact hc
  · obtain ⟨k, -, -, htaken | hrefused⟩ := bodyOf_sinkDecides hl ho
    · exact (htaken.stream hc).1
    · exact (hrefused.stream hc).1

/-- A row of sink writes that ends outside FAILED went on to its end. -/
theorem Calls.eq_going {s : State} {p : Progress} (h : Calls s p) (hp : p.state.phase ≠ .failed) :
    p = .going p.state := by
  cases p with
  | going t => rfl
  | ended t =>
    obtain ⟨k, bs, u, rfl, -⟩ := h
    exact absurd rfl hp

/-- A `BW.PUT` that does not fail leaves the bits of its drain and its own (R132). -/
theorem after_bwPut_nacc {n value : Word} {s : State} (h : (after (.bwPut n value) s).phase ≠ .failed) :
    (after (.bwPut n value) s).nacc.toNat = s.nacc.toNat % 8 + n.toNat := by
  obtain ⟨hl, ho⟩ := checks_of_unfailed h
  rw [after_body hl ho] at h ⊢
  exact put_going_nacc (operandErrorOf_bwPut_eq_none_iff.mp ho) ((put_calls n.toNat value s).eq_going h)

/-- A `FA.SHDR` that does not fail ends with a `Put` of 8 bits (42_field_assembler.md R151). -/
theorem after_faShdr_nacc_le {level : Word} {leaveOpen : Bool} {s : State}
    (h : (after (.faShdr level leaveOpen) s).phase ≠ .failed) :
    (after (.faShdr level leaveOpen) s).nacc.toNat ≤ 15 := by
  obtain ⟨hl, ho⟩ := checks_of_unfailed h
  rw [after_body hl ho] at h ⊢
  exact (putBytes_going_nacc (by simp) ((putBytes_calls _ (openStream level leaveOpen s)).eq_going h)).2

/-- Settles O35: every command keeps the accumulator clean, and what is pending after a `Put` is what its drain left and
its field. `NACC` has 5 bits, which is also the bound after the 24 bits that end `FA.BHDR`. -/
theorem accumulatorInvariant : Obligations.AccumulatorInvariant := by
  unfold Obligations.AccumulatorInvariant
  intro i s t hs h
  rw [exec_next_iff] at h
  subst h
  have hc := after_clean i hs
  have hlt := (after i s).nacc.isLt
  refine ⟨by omega, (accClean_iff _).mp hc, acc_zero_of_clean hc, ?_, ?_, ?_⟩
  · rintro n value rfl - hp
    have := after_bwPut_nacc (n := n) (value := value) (s := s) (by simp [hp])
    omega
  · rintro level leaveOpen rfl - hp
    exact after_faShdr_nacc_le (by simp [hp])
  · intro rand origPtr _ _ _
    omega

/-! ### The bit-sequence law (R135) -/

/-- Settles O36: a command that ends outside FAILED has appended its bits. -/
theorem commandAppendsItsBits : Obligations.CommandAppendsItsBits := by
  unfold Obligations.CommandAppendsItsBits
  intro i s t hc _ h ht
  rw [exec_next_iff] at h
  subst h
  exact (after_appends hc ht).2

/-- A run that ends outside FAILED appends the bits of its commands, in order (R59). -/
theorem runCommands_appends (is : List Instr) {s : State} (hc : AccClean s) (h : (runCommands is s).phase ≠ .failed) :
    streamBits (runCommands is s) = streamBits s ++ appendedByAll is s := by
  induction is generalizing s with
  | nil => exact (List.append_nil _).symm
  | cons i is ih =>
    rw [runCommands_cons] at h ⊢
    obtain ⟨hci, hbits⟩ := after_appends hc (unfailed_of_runCommands h)
    rw [ih hci h, hbits, List.append_assoc]
    rfl

/-- Settles O37, by induction on the commands. -/
theorem sequenceAppendsItsBits : Obligations.SequenceAppendsItsBits := by
  unfold Obligations.SequenceAppendsItsBits
  intro is s
  exact runCommands_appends is

/-! ### The frame of the commands that write to the sink (R132, R133; 42_field_assembler.md R151, R154, R157) -/

/-- A command whose body is a row of sink writes changes the accumulator, `PHASE`, `ERR` and the sink at most. -/
theorem after_frame_of_calls {i : Instr} {s : State} (hbody : Calls s (bodyOf i s)) :
    after i s = { s with
                  acc := (after i s).acc, nacc := (after i s).nacc, phase := (after i s).phase, err := (after i s).err
                  sinkOut := (after i s).sinkOut, sinkAnswers := (after i s).sinkAnswers
                  sinkCalls := (after i s).sinkCalls } := by
  rcases after_eq_phase_err_or_body i s with ⟨p, e, h⟩ | h <;> rw [h]
  exact hbody.frame

/-- Settles O44: a command that does not run its body writes `PHASE` and `ERR` at most, and a body its sink writes, but for
what `FA.SHDR` writes before them and the close after those of `FA.STRL`. -/
theorem streamFamilyFrame : Obligations.StreamFamilyFrame := by
  unfold Obligations.StreamFamilyFrame
  intro s t n value level origPtr leaveOpen rand
  simp only [exec_next_iff]
  refine ⟨?_, ?_, ?_⟩
  · rintro (rfl | rfl | rfl)
    · exact after_frame_of_calls (put_calls n.toNat value s)
    · exact after_frame_of_calls (flush_calls s)
    · exact after_frame_of_calls (putBlockHeader_calls rand origPtr s)
  · rintro rfl
    rcases after_eq_phase_err_or_body (.faShdr level leaveOpen) s with ⟨p, e, h⟩ | h <;> rw [h]
    rw [bodyOf, (putBytes_calls _ (openStream level leaveOpen s)).frame]
    rfl
  · rintro rfl
    rcases after_eq_phase_err_or_body .faStrl s with ⟨p, e, h⟩ | h <;> rw [h]
    obtain ⟨hr, hc, hres, hl, ho, hprog, hpos, -⟩ := putTrailer_kept s
    exact State.eq_of_fields hr hc rfl rfl hres rfl rfl hl ho rfl rfl rfl rfl rfl hprog hpos

end Sys2Proof.Machine
end

section
/-! The proofs of the statements of 42_field_assembler.md about single commands: what `FA.SHDR`, `FA.BHDR` and `FA.STRL`
leave, and the transitions of `PHASE`. -/

namespace Sys2Proof.Machine

/-! ### `FA.SHDR` (R151, R153) -/

/-- `s` with the byte `b` as all that is pending. -/
def State.holding (s : State) (b : Byte) : State := s.setPending (b.setWidth 32 <<< 24) 8

theorem lowBits_setWidth_byte (b : Byte) : lowBits 8 (b.setWidth 32) = b.setWidth 32 := by
  simp [lowBits]

/-- A byte put where nothing is pending waits in the accumulator. -/
theorem put_byte_of_empty {s : State} (b : Byte) (ha : s.acc = 0) (hn : s.nacc = 0) :
    put 8 (b.setWidth 32) s = .going (s.holding b) := by
  have h0 : s.nacc.toNat / 8 = 0 := by simp [hn]
  rw [put_ok (by rw [h0]; exact nofun), h0, written_zero, appended, ha, hn, lowBits_setWidth_byte]
  simp [State.holding]

theorem topByte_holding (s : State) (b : Byte) : topByte (s.holding b) = b := by
  refine BitVec.eq_of_getLsbD_eq fun i hi => ?_
  simp [topByte, State.holding, hi, show 24 + i < 32 by omega]

/-- A byte put behind eight pending bits sends those to the sink. -/
theorem put_byte_of_full {s : State} (c : Byte) (hn : s.nacc = 8) (h : answerAt s 0 = .ok) :
    put 8 (c.setWidth 32) s =
      .going (((consumeAnswers 1 s).appendOut (topByte s)).setPending (s.acc <<< 8 ||| c.setWidth 32 <<< 24) 8) := by
  have h8 : s.nacc.toNat = 8 := by simp [hn]
  have hbytes : firstBytes 1 s.acc = [topByte s] := firstBytes_succ 0 s.acc (by omega)
  have ho : answersOk s (s.nacc.toNat / 8) := by
    rw [h8]
    intro j hj
    rwa [Nat.lt_one_iff.mp hj]
  rw [put_ok ho, appended_written, h8, hbytes, lowBits_setWidth_byte]
  rfl

/-- A byte put behind another sends that one to the sink and waits in its place. -/
theorem put_byte_holding {s : State} (b c : Byte) (h : answerAt s 0 = .ok) :
    put 8 (c.setWidth 32) (s.holding b) = .going (((consumeAnswers 1 s).appendOut b).holding c) := by
  have hacc : (s.holding b).acc <<< 8 = 0#32 := by simp [State.holding, ← BitVec.shiftLeft_add]
  have ho : answerAt (s.holding b) 0 = .ok := by simpa [answerAt, State.holding] using h
  rw [put_byte_of_full c (by simp [State.holding]) ho, topByte_holding, hacc, BitVec.zero_or]
  simp only [State.holding, consumeAnswers, State.setPending, State.appendOut]

/-- `Put(8, b)` for each byte behind a pending one: the last byte is the pending one afterwards, and the others are in the
sink. -/
theorem putBytes_holding (bs : List Byte) {s : State} (b : Byte) (h : answersOk s bs.length) :
    putBytes bs (s.holding b) =
      .going (State.holding { consumeAnswers bs.length s with sinkOut := s.sinkOut ++ (b :: bs).dropLast }
        ((b :: bs).getLast (List.cons_ne_nil b bs))) := by
  induction bs generalizing s b with
  | nil => simp [putBytes, consumeAnswers]
  | cons c bs ih =>
    have hstep : answersOk ((consumeAnswers 1 s).appendOut b) bs.length := fun j hj =>
      (answerAt_consume j 1 s).trans (h (1 + j) (by simp; omega))
    rw [putBytes, put_byte_holding b c (h 0 (by simp)), Progress.andThen, ih c hstep]
    simp [consumeAnswers, Nat.add_comm bs.length, Nat.add_assoc]

/-- The level digit as the top byte of the accumulator. -/
theorem levelDigit_shifted {level : Word} (h9 : level.toNat ≤ 9) :
    (levelDigit level).setWidth 32 <<< 24 = (0x30 + level) <<< 24 := by
  have h : (levelDigit level).setWidth 32 = 0x30 + level := by
    simp only [levelDigit, digitZero]
    bv_omega
  rw [h]

/-- Settles O40: the first byte of the header waits, and each of the next three sends the one before it to the sink. -/
theorem faShdrResult : Obligations.FaShdrResult := by
  unfold Obligations.FaShdrResult
  intro level leaveOpen s hp hs h1 h9 ho
  obtain ⟨hc, ⟨hidle, -⟩, -⟩ := hs
  obtain ⟨hn, -⟩ := hidle hp
  have hacc := acc_zero_of_clean hc hn
  have hlegal : phaseLegal (.faShdr level leaveOpen) s.phase = true := beq_iff_eq.mpr hp
  have hbody : bodyOf (.faShdr level leaveOpen) s = .going (State.holding
      { consumeAnswers 3 (openStream level leaveOpen s) with sinkOut := s.sinkOut ++ [0x42, 0x5A, 0x68] }
      (levelDigit level)) := by
    simp only [bodyOf, headerMark, List.cons_append, List.nil_append]
    rw [putBytes, put_byte_of_empty _ (by exact hacc) (by exact hn), Progress.andThen, putBytes_holding _ _ (by exact ho)]
    rfl
  rw [exec_eq_after, after_body hlegal (operandErrorOf_faShdr_eq_none_iff.mpr ⟨h1, h9⟩), hbody, ← levelDigit_shifted h9]
  have hlevel : level.setWidth 4 = BitVec.ofNat 4 level.toNat := by simp
  rw [← hlevel]
  rfl

/-! ### `FA.BHDR` (R154, R155) -/

/-- A body whose bits the answers can take goes on, and each byte it wrote was taken. -/
theorem Appends.taken {s : State} {bits : List Bool} {m : Nat} {p : Progress} (h : Appends s bits m p)
    (ho : answersOk s ((s.nacc.toNat + m) / 8)) :
    ∃ t bs, p = .going t ∧ streamBits t = streamBits s ++ bits ∧ Wrote s bs.length bs t ∧
      8 * bs.length + t.nacc.toNat = s.nacc.toNat + bits.length := by
  obtain ⟨t, bs, rfl, -, hw⟩ := h.going_of_answersOk ho
  obtain ⟨-, hs⟩ := h.stream
  exact ⟨t, bs, rfl, hs, hw, hw.count hs⟩

theorem length_blockHeaderBits (r : Word) (rand : Bool) (origPtr : Word) :
    (blockHeaderBits r rand origPtr).length = 105 := by
  simp [blockHeaderBits, length_bitsOf]

/-- A block header ends with a `Put` of 24 bits, which stay pending. -/
theorem putBlockHeader_going_nacc {rand : Bool} {origPtr : Word} {s t : State}
    (h : putBlockHeader rand origPtr s = .going t) : 24 ≤ t.nacc.toNat := by
  obtain ⟨u, -, h⟩ := Progress.andThen_going h
  obtain ⟨v, -, h⟩ := Progress.andThen_going h
  obtain ⟨w, -, h⟩ := Progress.andThen_going h
  have := put_going_nacc (by omega) h
  omega

/-- The operand check of `FA.BHDR` passes for the 24-bit values (60_exceptions.md R188). -/
theorem operandErrorOf_faBhdr_eq_none_iff {rand : Bool} {origPtr : Word} :
    operandErrorOf (.faBhdr rand origPtr) = none ↔ origPtr.toNat < 2 ^ 24 := by
  simp [operandErrorOf]

/-- Settles O41: of the bits pending on entry and the 105 of the header, at least the last 24 stay pending, and no more than
`NACC` holds; so the counts of bits and bytes fix how many. -/
theorem faBhdrResult : Obligations.FaBhdrResult := by
  unfold Obligations.FaBhdrResult
  intro rand origPtr s hp hc hr ho
  obtain ⟨t, bs, ht, hs, hw, hcount⟩ := (putBlockHeader_appends (rand := rand) (origPtr := origPtr) hc).taken ho
  have h24 := putBlockHeader_going_nacc ht
  have hlt := t.nacc.isLt
  rw [length_blockHeaderBits] at hcount
  have hlen : bs.length = (s.nacc.toNat + 81) / 8 := by omega
  refine ⟨t, ?_, hs, by omega, ?_⟩
  · rw [exec_of_opened (fun _ => rfl) hp (operandErrorOf_faBhdr_eq_none_iff.mpr hr), bodyOf, ht, Progress.state]
  · rw [← hlen, hw.sinkOut]
    exact hw

/-! ### `FA.STRL` (R157, R158, R159) -/

theorem length_trailerBits (c : Word) : (trailerBits c).length = 80 := by
  simp [trailerBits, length_bitsOf]

theorem length_padBits (n : Nat) : (padBits n).length = (8 - n % 8) % 8 := List.length_replicate

/-- `s` in CLOSED with the trailer and its padding written, `out` being all that the sink has taken. -/
def trailerWritten (out : List Byte) (s : State) : State :=
  { consumeAnswers ((s.nacc.toNat + 87) / 8) s with phase := .closed, acc := 0, nacc := 0, sinkOut := out }

/-- `FA.STRL` with the sink taking every byte of the trailer: nothing is left pending, so all the bits are in the sink, and
what is left to do is the close. -/
theorem after_faStrl_eq_closeSink {s : State} (hp : s.phase = .opened) (hc : AccClean s)
    (ho : answersOk s ((s.nacc.toNat + 87) / 8)) :
    ∃ out, bytesBits out = streamBits s ++ trailerBits s.c ++ padBits (s.nacc.toNat + 80) ∧
      after .faStrl s = (closeSink (trailerWritten out s)).state := by
  have happ := putTrailerFields_appends hc
  obtain ⟨u, bs, hu, hs, hw, hcount⟩ := happ.taken ho
  have hn := putTrailerFields_going_nacc hc hu
  have hacc := acc_zero_of_clean (happ.clean hu) hn
  have hout := hw.sinkOut
  rw [hn, List.length_append, length_trailerBits, length_padBits] at hcount
  have hlen : bs.length = (s.nacc.toNat + 87) / 8 := by simp at hcount; omega
  have hclosed : u.setPhase .closed = trailerWritten u.sinkOut s := by
    unfold Wrote at hw
    rw [hn, hacc, hlen, ← hout] at hw
    rw [hw]
    rfl
  refine ⟨u.sinkOut, ?_, ?_⟩
  · rw [← streamBits_of_nacc_zero hn, hs, List.append_assoc]
  · rw [after_body (i := .faStrl) (beq_iff_eq.mpr hp) rfl, bodyOf, putTrailer_eq, hu, Progress.andThen, hclosed]

theorem answerAt_trailerWritten (out : List Byte) (s : State) :
    answerAt (trailerWritten out s) 0 = answerAt s ((s.nacc.toNat + 87) / 8) :=
  answerAt_consume 0 _ s

theorem closeSink_leaveOpen {s : State} (h : s.leaveOpen = true) : closeSink s = .going s := by
  simp [closeSink, h]

theorem closeSink_ok {s : State} (h : s.leaveOpen = false) (ha : answerAt s 0 = .ok) :
    closeSink s = .going ((consumeAnswers 1 s.setSinkClosed).appendClose .ok) := by
  simp [closeSink, h, nextAnswer_eq, ha, tickAnswer_eq]

theorem closeSink_fail {s : State} (h : s.leaveOpen = false) (ha : answerAt s 0 = .fail) :
    closeSink s = .ended (raiseError .underlyingIO ((consumeAnswers 1 s.setSinkClosed).appendClose .fail)) := by
  simp [closeSink, h, nextAnswer_eq, ha, tickAnswer_eq]

/-- `s` in CLOSED with the trailer written, `out` being all that the sink has taken, and the close answered `a`. -/
def trailerClosed (a : SinkAnswer) (out : List Byte) (s : State) : State :=
  { consumeAnswers ((s.nacc.toNat + 87) / 8 + 1) s with
    phase := .closed, acc := 0, nacc := 0, sinkOut := out, sinkClosed := true, sinkCloses := s.sinkCloses ++ [a] }

/-- The close is one call of the sink after those of the trailer's bytes. -/
theorem appendClose_trailerWritten (a : SinkAnswer) (out : List Byte) (s : State) :
    (consumeAnswers 1 (trailerWritten out s).setSinkClosed).appendClose a = trailerClosed a out s := by
  rw [trailerClosed, ← consumeAnswers_add]
  rfl

/-- Settles O42: after the trailer the close is no call of the sink, or one that is answered `ok`. -/
theorem faStrlResult : Obligations.FaStrlResult := by
  unfold Obligations.FaStrlResult
  intro s hp hc
  refine ⟨fun hl ho => ?_, fun hl ho => ?_⟩
  · obtain ⟨out, hbits, hafter⟩ := after_faStrl_eq_closeSink hp hc ho
    refine ⟨trailerWritten out s, ?_, hbits, rfl⟩
    rw [exec_eq_after, hafter, closeSink_leaveOpen (by exact hl), Progress.state]
  · obtain ⟨out, hbits, hafter⟩ := after_faStrl_eq_closeSink hp hc (answersOk_mono (Nat.le_succ _) ho)
    have hok := (answerAt_trailerWritten out s).trans (ho _ (Nat.lt_succ_self _))
    refine ⟨trailerClosed .ok out s, ?_, hbits, rfl⟩
    rw [exec_eq_after, hafter, closeSink_ok (by exact hl) hok, appendClose_trailerWritten, Progress.state]

/-- Settles O43: the refused close comes after the trailer, and its error entry writes `PHASE` and `ERR` only. -/
theorem faStrlCloseFailure : Obligations.FaStrlCloseFailure := by
  unfold Obligations.FaStrlCloseFailure
  intro s hp hc hl ho hf
  obtain ⟨out, hbits, hafter⟩ := after_faStrl_eq_closeSink hp hc ho
  have hfail := (answerAt_trailerWritten out s).trans hf
  refine ⟨failedWith .underlyingIO (trailerClosed .fail out s), ?_, hbits, rfl⟩
  rw [exec_eq_after, hafter, closeSink_fail (by exact hl) hfail, appendClose_trailerWritten, Progress.state, raiseError_eq]

/-! ### The transitions of `PHASE` (R152) -/

/-- The phase after a command that passes its checks, the sink refusing nothing: the rows of R152's table but the errors. -/
def phaseAfter (i : Instr) (p : Phase) : Phase :=
  match i with
  | .faShdr _ _ => .opened
  | .faStrl => .closed
  | .bwPut _ _ | .bwFlush | .faBhdr _ _ => p
  | .crcReset | .crcUpd _ | .crcUpdn _ _ | .crcRes | .crcComb _ _ | .crcFold | .crcRdc => p

/-- Sink writes that end outside FAILED leave the phase as it was. -/
theorem Calls.phase {s : State} {p : Progress} (h : Calls s p) (hp : p.state.phase ≠ .failed) :
    p.state.phase = s.phase := by
  have hg := h.eq_going hp
  rw [hg] at h
  obtain ⟨k, bs, -, -, hw⟩ := h
  obtain ⟨-, -, -, hphase, -⟩ := hw.frame
  exact hphase

/-- A flush that goes on leaves nothing pending, whatever stood below the pending bits. -/
theorem flush_going_nacc_zero {s t : State} (h : flush s = .going t) : t.nacc = 0 := by
  rw [flush_eq] at h
  obtain ⟨u, -, h⟩ := Progress.andThen_going h
  unfold flushRest at h
  split at h
  · obtain ⟨v, -, h⟩ := Progress.andThen_going h
    injection h with h
    rw [← h]
    rfl
  · next hn =>
    injection h with h
    rw [← h]
    exact BitVec.eq_of_toNat_eq (by simp; omega)

/-- The end of a stream: CLOSED with nothing pending, unless the sink refuses a byte or the close. -/
theorem putTrailer_phase {s : State} (h : (putTrailer s).state.phase ≠ .failed) :
    (putTrailer s).state.phase = .closed ∧ (putTrailer s).state.nacc = 0 := by
  rw [putTrailer_eq] at h ⊢
  have hcalls := putTrailerFields_calls s
  cases hf : putTrailerFields s with
  | ended t =>
    rw [hf] at h hcalls
    exact absurd (hcalls.eq_going h) nofun
  | going t =>
    obtain ⟨u, -, hu⟩ := Progress.andThen_going hf
    obtain ⟨v, -, hv⟩ := Progress.andThen_going hu
    have hn := flush_going_nacc_zero hv
    rw [hf] at h
    rw [Progress.andThen] at h ⊢
    rcases closeSink_cases (t.setPhase .closed) with ⟨-, hc⟩ | ⟨-, -, hc⟩ | ⟨-, -, hc⟩ <;> rw [hc] at h ⊢
    · exact ⟨rfl, hn⟩
    · exact ⟨rfl, hn⟩
    · exact absurd rfl h

theorem bodyOf_phase {i : Instr} {s : State} (h : (bodyOf i s).state.phase ≠ .failed) :
    (bodyOf i s).state.phase = phaseAfter i s.phase := by
  cases i with
  | crcReset | crcUpd | crcUpdn | crcRes | crcComb | crcFold | crcRdc => rfl
  | bwPut n value => exact (put_calls n.toNat value s).phase h
  | bwFlush => exact (flush_calls s).phase h
  | faShdr level leaveOpen => exact (putBytes_calls _ (openStream level leaveOpen s)).phase h
  | faBhdr rand origPtr => exact (putBlockHeader_calls rand origPtr s).phase h
  | faStrl => exact (putTrailer_phase h).1

/-- A command that does not end in FAILED moved the phase as its row says. -/
theorem after_phase {i : Instr} {s : State} (h : (after i s).phase ≠ .failed) :
    (after i s).phase = phaseAfter i s.phase := by
  obtain ⟨hl, ho⟩ := checks_of_unfailed h
  rw [after_body hl ho] at h ⊢
  exact bodyOf_phase h

/-- A command that does not end in FAILED recorded no error. -/
theorem after_err {i : Instr} {s : State} (h : (after i s).phase ≠ .failed) : (after i s).err = s.err := by
  obtain ⟨hl, ho⟩ := checks_of_unfailed h
  rw [after_body hl ho] at h ⊢
  obtain ⟨k, -, -, htaken | hrefused⟩ := bodyOf_sinkDecides hl ho
  · exact htaken.err
  · exact absurd hrefused.phase h

theorem failedWith_err (e : ErrorKind) (s : State) : (failedWith e s).err ≠ none := by
  simp only [failedWith]
  split <;> simp_all

/-- A command that enters FAILED has recorded an error (60_exceptions.md R186). -/
theorem after_err_of_failed {i : Instr} {s : State} (hs : s.phase ≠ .failed) (h : (after i s).phase = .failed) :
    (after i s).err ≠ none := by
  rcases after_cases i s with ⟨hp, -⟩ | ⟨-, -, ha⟩ | ⟨e, -, -, ha⟩ | ⟨hl, ho, ha⟩
  · exact absurd hp hs
  · exact ha ▸ failedWith_err _ s
  · exact ha ▸ failedWith_err _ s
  · rw [ha] at h ⊢
    obtain ⟨k, -, -, htaken | hrefused⟩ := bodyOf_sinkDecides hl ho
    · exact absurd h htaken.phase
    · rw [hrefused.err]
      split <;> simp_all

/-- A command whose checks pass ends in the phase of its row, or in FAILED at the first call that the sink refuses. -/
theorem after_phase_or_refused {i : Instr} {s : State} (hl : phaseLegal i s.phase = true)
    (ho : operandErrorOf i = none) :
    (after i s).phase = phaseAfter i s.phase ∨
      ((after i s).phase = .failed ∧
        ∃ k, answersOk s k ∧ answerAt s k = .fail ∧ (after i s).sinkCalls = s.sinkCalls + k + 1) := by
  obtain ⟨k, hk, -, htaken | hrefused⟩ := bodyOf_sinkDecides hl ho
  · rw [after_body hl ho]
    exact .inl (bodyOf_phase htaken.phase)
  · rw [after_body hl ho]
    exact .inr ⟨hrefused.phase, k, hk, hrefused.answer, hrefused.sinkCalls⟩

/-- The transitions of `PHASE` that a command makes (R152). -/
theorem after_transition (i : Instr) (s : State) :
    (after i s).phase = s.phase ∨
      (s.phase = .idle ∧ (after i s).phase = .opened ∧
        ∃ level leaveOpen, i = .faShdr level leaveOpen ∧ 1 ≤ level.toNat ∧ level.toNat ≤ 9) ∨
      (s.phase = .opened ∧ (after i s).phase = .closed ∧ (after i s).nacc = 0 ∧ i = .faStrl) ∨
      (s.phase ≠ .failed ∧ (after i s).phase = .failed ∧ (after i s).err ≠ none) := by
  by_cases hs : s.phase = .failed
  · exact .inl (by rw [after_failed i hs])
  by_cases h : (after i s).phase = .failed
  · exact .inr (.inr (.inr ⟨hs, h, after_err_of_failed hs h⟩))
  have hphase := after_phase h
  obtain ⟨hl, ho⟩ := checks_of_unfailed h
  cases i with
  | crcReset | crcUpd | crcUpdn | crcRes | crcComb | crcFold | crcRdc | bwPut | bwFlush | faBhdr => exact .inl hphase
  | faShdr level leaveOpen =>
    exact .inr (.inl ⟨beq_iff_eq.mp hl, hphase, level, leaveOpen, rfl, operandErrorOf_faShdr_eq_none_iff.mp ho⟩)
  | faStrl =>
    rw [after_body hl ho] at h hphase ⊢
    exact .inr (.inr (.inl ⟨beq_iff_eq.mp hl, hphase, (putTrailer_phase h).2, rfl⟩))

/-- The transitions of `PHASE` that a rejected word makes: the error's (60_exceptions.md R185 to R187). -/
theorem rejectWord_transition (s : State) :
    rejectWord s = s ∨
      (s.phase ≠ .failed ∧ (rejectWord s).phase = .failed ∧ (rejectWord s).err ≠ none) := by
  by_cases hs : s.phase = .failed
  · exact .inl (rejectWord_failed hs)
  · rw [rejectWord_eq hs]
    exact .inr ⟨hs, rfl, failedWith_err _ s⟩

/-- Settles O15: of the four things a step can be, a wait changes nothing, the reset input gives IDLE, and a command or a
rejected word makes its own transition; what the command's row says is `after_phase_or_refused`. -/
theorem phaseTransitions : Obligations.PhaseTransitions := by
  unfold Obligations.PhaseTransitions
  intro s t h
  rcases step_cases h with ⟨he, rfl⟩ | ⟨he, rfl⟩ | ⟨w, i, he, hd, rfl⟩ | ⟨w, why, he, hd, rfl⟩
  · simp [he]
  · simp [he, resetInput_eq]
  · have hw : ∀ {v}, nextEvent s = some (.command v) → w = v := fun hv => by simpa [he] using hv
    refine ⟨?_, by simp [he], ?_, ?_, ?_⟩
    · rcases after_transition i (advance s) with hp | ⟨hi, hp, l, o, rfl, hr⟩ | ⟨hi, hp, hn, rfl⟩ | ⟨hi, hp, hr⟩
      · exact .inl hp
      · exact .inr (.inr (.inl ⟨hi, hp, w, l, o, he, hd, hr⟩))
      · exact .inr (.inr (.inr (.inl ⟨hi, hp, hn, w, he, hd⟩)))
      · exact .inr (.inr (.inr (.inr ⟨hi, hp, hr, by simp [he]⟩)))
    · intro v level leaveOpen hp hv hdv h1 h9
      obtain rfl := hw hv
      obtain rfl : i = .faShdr level leaveOpen := by simpa [hd] using hdv
      exact after_phase_or_refused (s := advance s) (beq_iff_eq.mpr hp)
        (operandErrorOf_faShdr_eq_none_iff.mpr ⟨h1, h9⟩)
    · intro v hp hv hdv
      obtain rfl := hw hv
      obtain rfl : i = .faStrl := by simpa [hd] using hdv
      exact after_phase_or_refused (s := advance s) (beq_iff_eq.mpr hp) rfl
    · intro _ herr
      by_contra hp
      exact herr (after_err hp)
  · have hno : ∀ {v i}, nextEvent s = some (.command v) → decode v ≠ .command i := fun hv => by
      obtain rfl : w = _ := by simpa [he] using hv
      simp [hd]
    refine ⟨?_, by simp [he], fun _ _ _ _ hv hdv => absurd hdv (hno hv), fun _ _ hv hdv => absurd hdv (hno hv), ?_⟩
    · rcases rejectWord_transition (advance s) with hr | ⟨hs, hp, hr⟩
      · exact .inl (by rw [hr]; rfl)
      · exact .inr (.inr (.inr (.inr ⟨hs, hp, hr, by simp [he]⟩)))
    · intro _ herr
      rcases rejectWord_transition (advance s) with hr | ⟨-, hp, -⟩
      · exact absurd (congrArg State.err hr) herr
      · exact hp

end Sys2Proof.Machine
end

section
/-! The proof of the stream layout law (42_field_assembler.md R160): what the host's commands make of the bits built so far
and of `R` and `C` does not depend on which of the orders of R221 they are issued in, and the machine makes the same of it
while the sink takes the bytes. -/

namespace Sys2Proof.Machine

/-! ### What the commands of an open stream build -/

/-- What a stream is built in: the bits so far, and the registers `R` and `C`. -/
structure Emission where
  bits : List Bool
  r : Word
  c : Word

/-- What a state has built. -/
def emission (s : State) : Emission := ⟨streamBits s, s.r, s.c⟩

/-- The commands that the host issues between a stream's header and its trailer (R221), their operands in range. -/
def InStream (i : Instr) : Prop :=
  match i with
  | .bwPut n _ => n.toNat ≤ 24
  | .faBhdr _ origPtr => origPtr.toNat < 2 ^ 24
  | .bwFlush | .faShdr _ _ | .faStrl => False
  | .crcReset | .crcUpd _ | .crcUpdn _ _ | .crcRes | .crcComb _ _ | .crcFold | .crcRdc => True

/-- The bits such a command appends when it finds `r` in `R`. -/
def fieldBits (i : Instr) (r : Word) : List Bool :=
  match i with
  | .bwPut n value => bitsOf n.toNat value
  | .faBhdr rand origPtr => blockHeaderBits r rand origPtr
  | _ => []

/-- What such a command makes of what has been built. -/
def Emission.issue (e : Emission) (i : Instr) : Emission :=
  ⟨e.bits ++ fieldBits i e.r, (crcAfter i e.r e.c).1, (crcAfter i e.r e.c).2⟩

/-- What a sequence of such commands makes of it. -/
def Emission.run (is : List Instr) (e : Emission) : Emission := is.foldl Emission.issue e

section
variable (e : Emission)

@[simp] theorem Emission.issue_crcReset : e.issue .crcReset = ⟨e.bits, allOnes, e.c⟩ := by
  simp [issue, fieldBits, crcAfter]

@[simp] theorem Emission.issue_crcUpd (b : Byte) : e.issue (.crcUpd b) = ⟨e.bits, byteStep e.r b, e.c⟩ := by
  simp [issue, fieldBits, crcAfter]

@[simp] theorem Emission.issue_crcUpdn (b : Byte) (n : Word) :
    e.issue (.crcUpdn b n) = ⟨e.bits, byteStepN n.toNat b e.r, e.c⟩ := by
  simp [issue, fieldBits, crcAfter]

@[simp] theorem Emission.issue_crcFold : e.issue .crcFold = ⟨e.bits, e.r, rotl1 e.c ^^^ ~~~ e.r⟩ := by
  simp [issue, fieldBits, crcAfter, foldBlock]

@[simp] theorem Emission.issue_crcRes : e.issue .crcRes = e := by
  simp [issue, fieldBits, crcAfter]

@[simp] theorem Emission.issue_crcRdc : e.issue .crcRdc = e := by
  simp [issue, fieldBits, crcAfter]

@[simp] theorem Emission.issue_bwPut (n value : Word) :
    e.issue (.bwPut n value) = ⟨e.bits ++ bitsOf n.toNat value, e.r, e.c⟩ := rfl

@[simp] theorem Emission.issue_faBhdr (rand : Bool) (origPtr : Word) :
    e.issue (.faBhdr rand origPtr) = ⟨e.bits ++ blockHeaderBits e.r rand origPtr, e.r, e.c⟩ := rfl

@[simp] theorem Emission.run_nil : e.run [] = e := rfl

@[simp] theorem Emission.run_cons (i : Instr) (is : List Instr) : e.run (i :: is) = (e.issue i).run is := rfl

@[simp] theorem Emission.run_append (is js : List Instr) : e.run (is ++ js) = (e.run is).run js := List.foldl_append

end

theorem appendedBits_of_inStream {i : Instr} (hi : InStream i) (s : State) : appendedBits i s = fieldBits i s.r := by
  cases i with
  | crcReset | crcUpd | crcUpdn | crcRes | crcComb | crcFold | crcRdc | bwPut | faBhdr => rfl
  | bwFlush | faShdr | faStrl => exact hi.elim

/-- The machine builds what `issue` says. -/
theorem emission_after {i : Instr} (hi : InStream i) {s : State} (hc : AccClean s) (h : (after i s).phase ≠ .failed) :
    emission (after i s) = (emission s).issue i := by
  obtain ⟨-, hbits⟩ := after_appends hc h
  obtain ⟨hr, hcc⟩ := Prod.mk.inj (after_crc h)
  rw [appendedBits_of_inStream hi] at hbits
  rw [emission, hbits, hr, hcc]
  rfl

/-- The bits built so far stay. -/
theorem Emission.bits_prefix_run (is : List Instr) (e : Emission) : e.bits <+: (e.run is).bits := by
  induction is generalizing e with
  | nil => exact List.prefix_rfl
  | cons i is ih => exact (List.prefix_append _ _).trans (ih (e.issue i))

/-! ### The machine between header and trailer -/

/-- The sink takes the output up to its byte `n` (and, counted as one more, the close). -/
def Takes (n : Nat) (s : State) : Prop := answersOk s (n - s.sinkOut.length)

theorem Wrote.takes {s t : State} {bs : List Byte} {n : Nat} (h : Wrote s bs.length bs t) (hs : Takes n s) :
    Takes n t := fun j hj => by
  rw [h.sinkOut, List.length_append] at hj
  rw [h.answerAt]
  exact hs _ (by omega)

/-- The stream is open with LEAVE_OPEN as `leaveOpen`, and the sink takes the output up to its byte `n`. -/
structure OpenFor (leaveOpen : Bool) (n : Nat) (s : State) : Prop where
  phase : s.phase = .opened
  inv : s.Inv
  leaveOpen : s.leaveOpen = leaveOpen
  takes : Takes n s

/-- A body of sink writes whose bits the sink takes keeps the stream open. -/
theorem Appends.openFor {s : State} {bits : List Bool} {m n : Nat} {p : Progress} {leaveOpen : Bool}
    (h : Appends s bits m p) (hm : m ≤ bits.length) (hs : OpenFor leaveOpen n s)
    (hn : (streamBits s).length + bits.length ≤ 8 * n) : OpenFor leaveOpen n p.state := by
  rw [length_streamBits] at hn
  obtain ⟨t, bs, rfl, -, hw, -⟩ := h.taken (answersOk_mono (by omega) hs.takes)
  obtain ⟨-, -, -, hphase, -, -, hopen, -⟩ := hw.frame
  exact ⟨hphase.trans hs.phase, h.inv hs.phase hs.inv, hopen.trans hs.leaveOpen, hw.takes hs.takes⟩

/-- A command between header and trailer keeps the stream open while the sink takes its bits. -/
theorem OpenFor.after {i : Instr} (hi : InStream i) {leaveOpen : Bool} {n : Nat} {s : State} (hs : OpenFor leaveOpen n s)
    (hn : ((emission s).issue i).bits.length ≤ 8 * n) : OpenFor leaveOpen n (after i s) := by
  have hlen : (streamBits s).length + (fieldBits i s.r).length ≤ 8 * n := by
    simpa [emission, Emission.issue] using hn
  have hphase : s.phase ≠ .failed := by simp [hs.phase]
  have hinv := after_inv i hs.inv
  cases i with
  | crcReset | crcUpd | crcUpdn | crcRes | crcComb | crcFold | crcRdc =>
    rw [after_crcCommand rfl hphase] at hinv ⊢
    exact ⟨hs.phase, hinv, hs.leaveOpen, hs.takes⟩
  | bwPut w value =>
    rw [after_body (i := .bwPut w value) (beq_iff_eq.mpr hs.phase) (operandErrorOf_bwPut_eq_none_iff.mpr hi)]
    exact (put_appends hi hs.inv.1).openFor (Nat.zero_le _) hs hlen
  | faBhdr rand origPtr =>
    rw [after_body (i := .faBhdr rand origPtr) (beq_iff_eq.mpr hs.phase) (operandErrorOf_faBhdr_eq_none_iff.mpr hi)]
    exact (putBlockHeader_appends hs.inv.1).openFor (by rw [length_blockHeaderBits]; omega) hs hlen
  | bwFlush | faShdr | faStrl => exact hi.elim

/-- The machine builds what the commands between header and trailer say, while the sink takes the bits. -/
theorem OpenFor.run {is : List Instr} (hi : ∀ i ∈ is, InStream i) {leaveOpen : Bool} {n : Nat} {s : State}
    (hs : OpenFor leaveOpen n s) (hn : ((emission s).run is).bits.length ≤ 8 * n) :
    OpenFor leaveOpen n (runCommands is s) ∧ emission (runCommands is s) = (emission s).run is := by
  induction is generalizing s with
  | nil => exact ⟨hs, rfl⟩
  | cons i is ih =>
    obtain ⟨hi, his⟩ := List.forall_mem_cons.mp hi
    have hfirst := hs.after hi (((Emission.bits_prefix_run is _).length_le).trans hn)
    have hemit := emission_after hi hs.inv.1 (by simp [hfirst.phase])
    have hrest := ih his hfirst (by rw [hemit]; exact hn)
    rw [hemit] at hrest
    exact hrest

/-! ### The orders of R221 -/

/-- Two lists with the same commands, in orders that build the same. -/
structure Reordered (is js : List Instr) : Prop where
  perm : is.Perm js
  run : ∀ e : Emission, e.run is = e.run js

theorem Reordered.append {is js is' js' : List Instr} (h : Reordered is js) (h' : Reordered is' js') :
    Reordered (is ++ is') (js ++ js') :=
  ⟨h.perm.append h'.perm, fun e => by rw [Emission.run_append, Emission.run_append, h.run, h'.run]⟩

theorem Reordered.refl (is : List Instr) : Reordered is is := ⟨.refl _, fun _ => rfl⟩

/-- `x` and `y` build the same in either order. -/
def IssueCommute (x y : Instr) : Prop := ∀ e : Emission, (e.issue x).issue y = (e.issue y).issue x

/-- A command that commutes with each of a list may come after them. -/
theorem Emission.run_issue {y : Instr} {xs : List Instr} (h : ∀ x ∈ xs, IssueCommute x y) (e : Emission) :
    (e.issue y).run xs = (e.run xs).issue y := by
  induction xs generalizing e with
  | nil => rfl
  | cons x xs ih =>
    obtain ⟨hx, hxs⟩ := List.forall_mem_cons.mp h
    have hrest := ih hxs (e.issue x)
    rw [hx e] at hrest
    exact hrest

theorem Merged.perm {xs ys zs : List Instr} (h : Merged xs ys zs) : zs.Perm (xs ++ ys) := by
  induction h with
  | nil => exact .nil
  | left x _ ih => exact ih.cons x
  | right y _ ih => exact (ih.cons y).trans List.perm_middle.symm

/-- Lists that commute may be interleaved. -/
theorem Merged.reordered {xs ys zs : List Instr} (h : Merged xs ys zs) (hc : ∀ x ∈ xs, ∀ y ∈ ys, IssueCommute x y) :
    Reordered zs (xs ++ ys) := by
  refine ⟨h.perm, ?_⟩
  induction h with
  | nil => exact fun _ => rfl
  | left x _ ih =>
    intro e
    exact ih (fun x' hx' => hc x' (List.mem_cons_of_mem _ hx')) (e.issue x)
  | @right y xs ys zs _ ih =>
    intro e
    have hrest := ih (fun x hx y' hy' => hc x hx y' (List.mem_cons_of_mem _ hy')) (e.issue y)
    rw [Emission.run_append, Emission.run_issue (fun x hx => hc x hx y List.mem_cons_self)] at hrest
    rw [Emission.run_append]
    exact hrest

/-- A field of a payload leaves `R` and `C`, and a CRC command appends no bits. -/
theorem commute_bwPut_crc (n value : Word) {y : Instr} (hy : isCrcCommand y = true) : IssueCommute (.bwPut n value) y := by
  intro e
  cases y with
  | crcReset | crcUpd | crcUpdn | crcRes | crcComb | crcFold | crcRdc => simp [Emission.issue, fieldBits, crcAfter]
  | bwPut | bwFlush | faShdr | faBhdr | faStrl => cases hy

/-- All of the list are CRC commands. -/
def CrcOnly (is : List Instr) : Prop := ∀ i ∈ is, isCrcCommand i = true

/-- All of the list are fields of a payload. -/
def PutsOnly (is : List Instr) : Prop := ∀ i ∈ is, ∃ n value, i = .bwPut n value

theorem Merged.reordered_puts {puts owed zs : List Instr} (h : Merged puts owed zs) (hp : PutsOnly puts)
    (ho : CrcOnly owed) : Reordered zs (puts ++ owed) :=
  h.reordered fun x hx y hy => by
    obtain ⟨n, value, rfl⟩ := hp x hx
    exact commute_bwPut_crc n value (ho y hy)

theorem CrcOnly.append {is js : List Instr} (h : CrcOnly is) (h' : CrcOnly js) : CrcOnly (is ++ js) :=
  List.forall_mem_append.mpr ⟨h, h'⟩

theorem CrcOnly.cons {i : Instr} {is : List Instr} (h : isCrcCommand i = true) (his : CrcOnly is) : CrcOnly (i :: is) :=
  List.forall_mem_cons.mpr ⟨h, his⟩

theorem StreamBlock.putsOnly_puts (b : StreamBlock) : PutsOnly b.puts := by
  intro i hi
  obtain ⟨field, -, rfl⟩ := List.mem_map.mp hi
  exact ⟨_, _, rfl⟩

theorem ByteRun.isCrcCommand_command (run : ByteRun) : isCrcCommand run.command = true := by
  cases run <;> rfl

theorem StreamBlock.crcOnly_crcBefore (b : StreamBlock) : CrcOnly b.crcBefore := by
  have hruns : CrcOnly (b.runs.map ByteRun.command) := List.forall_mem_map.mpr fun r _ => r.isCrcCommand_command
  have hfold : CrcOnly (if b.foldFirst then [.crcFold] else []) := by
    unfold CrcOnly
    split <;> simp [isCrcCommand]
  exact (CrcOnly.cons rfl hruns).append hfold

theorem StreamBlock.crcOnly_crcAfter (b : StreamBlock) : CrcOnly b.crcAfter := by
  unfold StreamBlock.crcAfter CrcOnly
  split <;> simp [isCrcCommand]

/-- Any order that R221 allows builds what its own listing does. -/
theorem BlocksIssued.reordered {blocks : List StreamBlock} {puts owed commands : List Instr}
    (h : BlocksIssued puts owed blocks commands) (hp : PutsOnly puts) (ho : CrcOnly owed) :
    Reordered commands (puts ++ owed ++ blocks.flatMap StreamBlock.commands) := by
  induction blocks generalizing puts owed commands with
  | nil => simpa using Merged.reordered_puts h hp ho
  | cons b bs ih =>
    unfold BlocksIssued at h
    split at h
    · next hb =>
      have := ih h hp ((ho.append b.crcOnly_crcBefore).append b.crcOnly_crcAfter)
      simpa [StreamBlock.commands, hb] using this
    · next hb =>
      obtain ⟨first, rest, rfl, hfirst, hrest⟩ := h
      have h1 := hfirst.reordered_puts hp (ho.append b.crcOnly_crcBefore)
      have h2 := ih hrest b.putsOnly_puts b.crcOnly_crcAfter
      have := h1.append ((Reordered.refl [b.header]).append h2)
      simpa [StreamBlock.commands, hb] using this

/-! ### What the blocks build -/

theorem ByteRun.issue_command (run : ByteRun) (e : Emission) :
    e.issue run.command = ⟨e.bits, foldBytes e.r run.bytes, e.c⟩ := by
  cases run with
  | one b => exact e.issue_crcUpd b
  | many b n => exact (e.issue_crcUpdn b n).trans (by rw [ByteRun.bytes, foldBytes_replicate])

/-- The runs of a block fold its bytes into `R`. -/
theorem Emission.run_runs (runs : List ByteRun) (e : Emission) :
    e.run (runs.map ByteRun.command) = ⟨e.bits, foldBytes e.r (runs.flatMap ByteRun.bytes), e.c⟩ := by
  induction runs generalizing e with
  | nil => rfl
  | cons run runs ih => simp [run.issue_command, ih, foldBytes]

/-- The payload of a block appends its fields. -/
theorem Emission.run_puts (payload : List (Word × Word)) (e : Emission) :
    e.run (payload.map fun field => .bwPut field.1 field.2) =
      ⟨e.bits ++ payload.flatMap (fun field => bitsOf field.1.toNat field.2), e.r, e.c⟩ := by
  induction payload generalizing e with
  | nil => simp
  | cons field payload ih => simp [ih]

/-- Before a block's header: `R` holds the complement of the block's CRC, which may be folded already. -/
theorem StreamBlock.run_crcBefore (b : StreamBlock) (e : Emission) :
    e.run b.crcBefore =
      ⟨e.bits, ~~~ crcOf b.bytes, if b.foldFirst then rotl1 e.c ^^^ crcOf b.bytes else e.c⟩ := by
  have hcrc : foldBytes allOnes (b.runs.flatMap ByteRun.bytes) = ~~~ crcOf b.bytes := (BitVec.not_not ..).symm
  rw [StreamBlock.crcBefore]
  split <;> simp [Emission.run_runs, hcrc]

/-- The fold of a block whose CRC was not folded before its header. -/
theorem StreamBlock.run_crcAfter (b : StreamBlock) (e : Emission) :
    e.run b.crcAfter = ⟨e.bits, e.r, if b.foldFirst then e.c else rotl1 e.c ^^^ ~~~ e.r⟩ := by
  unfold StreamBlock.crcAfter
  split <;> simp

/-- The header and the payload of a block append the block's bits, when `R` holds the complement of its CRC. -/
theorem StreamBlock.run_header_puts (b : StreamBlock) (hb : b.bytes ≠ []) (bits : List Bool) (c : Word) :
    Emission.run (b.header :: b.puts) ⟨bits, ~~~ crcOf b.bytes, c⟩ = ⟨bits ++ b.bits, ~~~ crcOf b.bytes, c⟩ := by
  simp [StreamBlock.header, StreamBlock.puts, StreamBlock.bits, Emission.run_puts, blockHeaderBits, hb]

/-- A block's commands append its bits and fold its CRC. -/
theorem StreamBlock.run_commands (b : StreamBlock) (e : Emission) :
    e.run b.commands = ⟨e.bits ++ b.bits, ~~~ crcOf b.bytes, rotl1 e.c ^^^ crcOf b.bytes⟩ := by
  have hbody (c : Word) : Emission.run (if b.bytes = [] then [] else b.header :: b.puts) ⟨e.bits, ~~~ crcOf b.bytes, c⟩ =
      ⟨e.bits ++ b.bits, ~~~ crcOf b.bytes, c⟩ := by
    split
    · next hb => simp [StreamBlock.bits, hb]
    · next hb => exact b.run_header_puts hb e.bits c
  rw [StreamBlock.commands, Emission.run_append, Emission.run_append, b.run_crcBefore, hbody, b.run_crcAfter]
  cases b.foldFirst <;> simp

/-- The blocks' commands append their bits and fold their CRCs, by the closed form of R113. -/
theorem Emission.run_blocks (blocks : List StreamBlock) (e : Emission) :
    (e.run (blocks.flatMap StreamBlock.commands)).bits = e.bits ++ blocks.flatMap StreamBlock.bits ∧
      (e.run (blocks.flatMap StreamBlock.commands)).c = foldLaw e.c (blocks.map fun b => crcOf b.bytes) := by
  induction blocks generalizing e with
  | nil => exact ⟨(List.append_nil _).symm, (foldLaw_nil e.c).symm⟩
  | cons b bs ih =>
    obtain ⟨hbits, hc⟩ := ih (e.run b.commands)
    rw [b.run_commands] at hbits hc
    rw [List.flatMap_cons, Emission.run_append, b.run_commands, List.map_cons, foldLaw_cons, List.flatMap_cons,
      ← List.append_assoc]
    exact ⟨hbits, hc⟩

theorem inStream_of_crc {i : Instr} (h : isCrcCommand i = true) : InStream i := by
  cases i with
  | crcReset | crcUpd | crcUpdn | crcRes | crcComb | crcFold | crcRdc => trivial
  | bwPut | bwFlush | faShdr | faBhdr | faStrl => cases h

/-- The commands of a block with its operands in range stand between header and trailer. -/
theorem StreamBlock.inStream_commands {b : StreamBlock} (h : b.legal) : ∀ i ∈ b.commands, InStream i := by
  obtain ⟨hptr, hfields⟩ := h
  have hputs : ∀ i ∈ b.puts, InStream i := List.forall_mem_map.mpr hfields
  have hbody : ∀ i ∈ if b.bytes = [] then [] else b.header :: b.puts, InStream i := by
    split
    · exact nofun
    · exact List.forall_mem_cons.mpr ⟨hptr, hputs⟩
  have hbefore : ∀ i ∈ b.crcBefore, InStream i := fun i hi => inStream_of_crc (b.crcOnly_crcBefore i hi)
  have hafter : ∀ i ∈ b.crcAfter, InStream i := fun i hi => inStream_of_crc (b.crcOnly_crcAfter i hi)
  exact List.forall_mem_append.mpr ⟨List.forall_mem_append.mpr ⟨hbefore, hbody⟩, hafter⟩

/-! ### Reads of the CRC (log entry 16) -/

/-- All of the list read the CRC: `CRC.RES` and `CRC.RDC`. -/
def ReadsOnly (is : List Instr) : Prop := ∀ i ∈ is, i = .crcRes ∨ i = .crcRdc

theorem issue_of_read {i : Instr} (h : i = .crcRes ∨ i = .crcRdc) (e : Emission) : e.issue i = e := by
  rcases h with rfl | rfl <;> simp

theorem Emission.run_reads {is : List Instr} (h : ReadsOnly is) (e : Emission) : e.run is = e := by
  induction is with
  | nil => rfl
  | cons i is ih =>
    obtain ⟨hi, his⟩ := List.forall_mem_cons.mp h
    exact (congrArg (Emission.run is) (issue_of_read hi e)).trans (ih his)

/-- Reads may be interleaved with any commands. -/
theorem Merged.reordered_reads {xs reads zs : List Instr} (h : Merged xs reads zs) (hr : ReadsOnly reads) :
    Reordered zs (xs ++ reads) :=
  h.reordered fun x _ y hy e => by rw [issue_of_read (hr y hy), issue_of_read (hr y hy)]

/-- Reads write `RES` only. -/
theorem runCommands_reads {is : List Instr} (h : ReadsOnly is) {s : State} (hp : s.phase ≠ .failed) :
    ∃ v, runCommands is s = s.setRes v := by
  induction is generalizing s with
  | nil => exact ⟨s.res, rfl⟩
  | cons i is ih =>
    obtain ⟨hi, his⟩ := List.forall_mem_cons.mp h
    have hfirst : ∃ w, Machine.after i s = s.setRes w := by
      rcases hi with rfl | rfl
      · exact ⟨_, after_crcRes hp⟩
      · exact ⟨_, after_crcRdc hp⟩
    obtain ⟨w, hw⟩ := hfirst
    obtain ⟨v, hv⟩ := ih his (s := s.setRes w) hp
    exact ⟨v, by rw [runCommands_cons, hw, hv]; rfl⟩

theorem Merged.eq_of_nil {ys zs : List Instr} (h : Merged [] ys zs) : zs = ys := by
  generalize hxs : ([] : List Instr) = xs at h
  induction h with
  | nil => rfl
  | left x _ _ => cases hxs
  | right y _ ih => rw [ih hxs]

/-- The first command of `xs` in an interleaving, and what comes before and after it. -/
theorem Merged.cons_left {x : Instr} {xs ys zs : List Instr} (h : Merged (x :: xs) ys zs) :
    ∃ pre ys' zs', ys = pre ++ ys' ∧ zs = pre ++ x :: zs' ∧ Merged xs ys' zs' := by
  generalize hxs : x :: xs = w at h
  induction h with
  | nil => cases hxs
  | left x' h _ =>
    cases hxs
    exact ⟨[], _, _, rfl, rfl, h⟩
  | right y _ ih =>
    obtain ⟨pre, ys', zs', rfl, rfl, h⟩ := ih hxs
    exact ⟨y :: pre, ys', zs', rfl, rfl, h⟩

/-- The last command of `xs` in an interleaving, and what comes before and after it. -/
theorem Merged.concat_left {x : Instr} {xs ys zs : List Instr} (h : Merged (xs ++ [x]) ys zs) :
    ∃ ys' zs' post, ys = ys' ++ post ∧ zs = zs' ++ x :: post ∧ Merged xs ys' zs' := by
  generalize hxs : xs ++ [x] = w at h
  induction h generalizing xs with
  | nil => simp at hxs
  | @left x' w ys zs h ih =>
    cases xs with
    | nil =>
      cases hxs
      exact ⟨[], [], ys, rfl, by rw [h.eq_of_nil]; rfl, .nil⟩
    | cons x'' xs =>
      cases hxs
      obtain ⟨ys', zs', post, rfl, rfl, h'⟩ := ih rfl
      exact ⟨ys', _, post, rfl, rfl, .left _ h'⟩
  | right y _ ih =>
    obtain ⟨ys', zs', post, rfl, rfl, h'⟩ := ih hxs
    exact ⟨y :: ys', y :: zs', post, rfl, rfl, .right y h'⟩

/-- A host sequence: reads, the header, the blocks in some order with reads among them, the trailer, reads. -/
theorem StreamIssued.between {level : Word} {leaveOpen : Bool} {blocks : List StreamBlock} {commands : List Instr}
    (h : StreamIssued level leaveOpen blocks commands) :
    ∃ pre mid post reads, commands = pre ++ .faShdr level leaveOpen :: (mid ++ .faStrl :: post) ∧
      ReadsOnly pre ∧ ReadsOnly post ∧ ReadsOnly reads ∧
      Reordered mid (blocks.flatMap StreamBlock.commands ++ reads) := by
  obtain ⟨body, reads, hbody, hreads, hmerged⟩ := h
  obtain ⟨pre, reads', rest, rfl, rfl, hrest⟩ := hmerged.cons_left
  obtain ⟨mids, mid, post, rfl, rfl, hmid⟩ := hrest.concat_left
  obtain ⟨hpre, hreads'⟩ := List.forall_mem_append.mp hreads
  obtain ⟨hmids, hpost⟩ := List.forall_mem_append.mp hreads'
  have hblocks := BlocksIssued.reordered hbody nofun nofun
  have hm := hmid.reordered_reads hmids
  have hall := hblocks.append (Reordered.refl mids)
  exact ⟨pre, mid, post, mids, rfl, hpre, hpost, hmids, hm.perm.trans hall.perm, fun e => (hm.run e).trans (hall.run e)⟩

/-! ### The whole stream (R160) -/

theorem length_headerBits (level : Word) : (headerBits level).length = 32 := by
  simp [headerBits, length_bitsOf]

/-- How many calls the close is (R158). -/
def closeCalls (leaveOpen : Bool) : Nat := if leaveOpen then 0 else 1

/-- `FA.SHDR` from IDLE opens the stream with its header. -/
theorem after_faShdr_openFor {level : Word} {leaveOpen : Bool} {n : Nat} {s : State} (hp : s.phase = .idle)
    (hs : s.Inv) (h1 : 1 ≤ level.toNat) (h9 : level.toNat ≤ 9) (ht : Takes n s) (hn : s.sinkOut.length + 3 ≤ n) :
    OpenFor leaveOpen n (after (.faShdr level leaveOpen) s) ∧
      emission (after (.faShdr level leaveOpen) s) = ⟨bytesBits s.sinkOut ++ headerBits level, s.r, 0⟩ := by
  have hinv := after_inv (.faShdr level leaveOpen) hs
  have hexec := faShdrResult level leaveOpen s hp hs h1 h9 (answersOk_mono (by omega) ht)
  rw [exec_next_iff] at hexec
  have hphase : (after (.faShdr level leaveOpen) s).phase = .opened := by rw [← hexec]
  obtain ⟨-, hbits⟩ := after_appends hs.1 (i := .faShdr level leaveOpen) (by simp [hphase])
  have hcrc := after_crc (i := .faShdr level leaveOpen) (s := s) (by simp [hphase])
  obtain ⟨hr, hc⟩ := Prod.mk.inj hcrc
  refine ⟨⟨hphase, hinv, by rw [← hexec], ?_⟩, ?_⟩
  · intro j hj
    rw [← hexec] at hj ⊢
    have hj : j < n - (s.sinkOut ++ [0x42, 0x5A, 0x68]).length := hj
    rw [List.length_append] at hj
    exact (answerAt_consume j 3 s).trans (ht _ (by simp at hj; omega))
  · obtain ⟨-, ⟨hidle, -⟩, -⟩ := hs
    rw [emission, hbits, hr, hc, streamBits_of_nacc_zero (hidle hp).1]
    rfl

/-- Whole bytes do not change the distance to the next byte. -/
theorem padBits_add_bytes (k n : Nat) : padBits (8 * k + n) = padBits n := by
  simp only [padBits, Nat.mul_add_mod]

/-- `FA.STRL` in an open stream, the sink taking the bytes and the close: the trailer and its padding are in the sink, and
the stream is closed. -/
theorem OpenFor.after_faStrl {leaveOpen : Bool} {n : Nat} {s : State} (hs : OpenFor leaveOpen n s)
    (hn : ((streamBits s).length + 87) / 8 + closeCalls leaveOpen ≤ n) :
    bytesBits (Machine.after .faStrl s).sinkOut =
        streamBits s ++ trailerBits s.c ++ padBits ((streamBits s).length + 80) ∧
      (Machine.after .faStrl s).phase = .closed ∧ (Machine.after .faStrl s).leaveOpen = leaveOpen := by
  obtain ⟨hp, hinv, hopen, htakes⟩ := hs
  rw [length_streamBits] at hn ⊢
  obtain ⟨out, hbits, hafter⟩ := after_faStrl_eq_closeSink hp hinv.1 (answersOk_mono (by omega) htakes)
  rw [Nat.add_assoc, padBits_add_bytes, hafter]
  rcases closeSink_cases (trailerWritten out s) with ⟨-, hclose⟩ | ⟨-, -, hclose⟩ | ⟨hl, hfail, -⟩
  · rw [hclose]
    exact ⟨hbits, rfl, hopen⟩
  · rw [hclose]
    exact ⟨hbits, rfl, hopen⟩
  · have hcalls : closeCalls leaveOpen = 1 := by rw [← hopen, show s.leaveOpen = false from hl]; rfl
    have hok := htakes ((s.nacc.toNat + 87) / 8) (by omega)
    rw [answerAt_trailerWritten, hok] at hfail
    cases hfail

theorem length_layoutBits (level : Word) (blocks : List StreamBlock) :
    (layoutBits level blocks).length = 32 + (blocks.flatMap StreamBlock.bits).length + 80 := by
  rw [layoutBits, List.length_append, List.length_append, length_headerBits, length_trailerBits]

/-- The header, commands that build what the blocks do, and the trailer: the documented stream, from any IDLE state. -/
theorem runCommands_stream {level : Word} {leaveOpen : Bool} {blocks : List StreamBlock} {mid : List Instr} {s : State}
    (hp : s.phase = .idle) (hs : s.Inv) (h1 : 1 ≤ level.toNat) (h9 : level.toNat ≤ 9) (hin : ∀ i ∈ mid, InStream i)
    (hrun : ∀ e : Emission, e.run mid = e.run (blocks.flatMap StreamBlock.commands))
    (ho : answersOk s (((layoutBits level blocks).length + 7) / 8 + closeCalls leaveOpen)) :
    let t := runCommands (.faShdr level leaveOpen :: (mid ++ [.faStrl])) s
    bytesBits t.sinkOut =
        bytesBits s.sinkOut ++ layoutBits level blocks ++ padBits (layoutBits level blocks).length ∧
      t.phase = .closed ∧ t.leaveOpen = leaveOpen ∧ t.Inv := by
  have hlayout := length_layoutBits level blocks
  have hlen := length_bytesBits s.sinkOut
  obtain ⟨n, hn⟩ : ∃ n, n = s.sinkOut.length + (((layoutBits level blocks).length + 7) / 8 + closeCalls leaveOpen) :=
    ⟨_, rfl⟩
  obtain ⟨hopen, hemit⟩ := after_faShdr_openFor (leaveOpen := leaveOpen) (n := n) hp hs h1 h9
    (answersOk_mono (by omega) ho) (by omega)
  obtain ⟨hbits, hc⟩ := Emission.run_blocks blocks ⟨bytesBits s.sinkOut ++ headerBits level, s.r, 0⟩
  obtain ⟨hopen', hemit'⟩ := hopen.run hin (n := n) (by
    rw [hemit, hrun, hbits, List.length_append, List.length_append, length_headerBits]
    omega)
  rw [hemit, hrun] at hemit'
  rw [runCommands_cons, runCommands_append]
  generalize runCommands mid (after (.faShdr level leaveOpen) s) = u at hopen' hemit'
  rw [← hemit'] at hbits hc
  have hbuilt : streamBits u ++ trailerBits u.c = bytesBits s.sinkOut ++ layoutBits level blocks := by
    have hu : streamBits u = bytesBits s.sinkOut ++ headerBits level ++ blocks.flatMap StreamBlock.bits := hbits
    have huc : u.c = foldLaw 0 (blocks.map fun b => crcOf b.bytes) := hc
    simp only [hu, huc, layoutBits, List.append_assoc]
  have hcount : (streamBits u).length + 80 = 8 * s.sinkOut.length + (layoutBits level blocks).length := by
    simpa only [List.length_append, length_trailerBits, length_bytesBits] using congrArg List.length hbuilt
  obtain ⟨hout, hphase, hleave⟩ := hopen'.after_faStrl (by omega)
  rw [hbuilt, hcount, padBits_add_bytes] at hout
  exact ⟨hout, hphase, hleave, after_inv .faStrl hopen'.inv⟩

/-- Settles O45: the reads apart, the commands are the header, the blocks in an order that builds what R221's listing does,
and the trailer; and what the phase does not say of the state reached, the invariant says. -/
theorem streamLayout : Obligations.StreamLayout := by
  unfold Obligations.StreamLayout
  intro level leaveOpen blocks commands s hp hs h1 h9 hlegal hissued ho
  obtain ⟨pre, mid, post, reads, rfl, hpre, hpost, hreads, hmid⟩ := hissued.between
  have hin : ∀ i ∈ mid, InStream i := by
    intro i hi
    rcases List.mem_append.mp (hmid.perm.mem_iff.mp hi) with hi | hi
    · obtain ⟨b, hb, hi⟩ := List.mem_flatMap.mp hi
      exact StreamBlock.inStream_commands (hlegal b hb) i hi
    · rcases hreads i hi with rfl | rfl <;> trivial
  have hrun (e : Emission) : e.run mid = e.run (blocks.flatMap StreamBlock.commands) := by
    rw [hmid.run, Emission.run_append, Emission.run_reads hreads]
  obtain ⟨v, hv⟩ := runCommands_reads hpre (s := s) (by simp [hp])
  obtain ⟨hout, hphase, hleave, hinv⟩ := runCommands_stream (s := s.setRes v) hp hs h1 h9 hin hrun ho
  obtain ⟨u, hu⟩ := runCommands_reads hpost
    (s := runCommands (.faShdr level leaveOpen :: (mid ++ [.faStrl])) (s.setRes v)) (by simp [hphase])
  have hsplit : pre ++ .faShdr level leaveOpen :: (mid ++ .faStrl :: post) =
      pre ++ ((.faShdr level leaveOpen :: (mid ++ [.faStrl])) ++ post) := by simp
  rw [hsplit, runCommands_append, hv, runCommands_append, hu]
  have herr := hinv.err_eq_none (by simp [hphase])
  obtain ⟨-, ⟨-, -, hclosed, -⟩, -⟩ := hinv
  obtain ⟨hn, -, -, hk⟩ := hclosed hphase
  exact ⟨hout, hphase, herr, hn, hk.trans (congrArg (!·) hleave)⟩

end Sys2Proof.Machine
end

section
/-! The proofs of the statements of 60_exceptions.md: which error each check raises, which of several errors is raised, and
what FAILED keeps. -/

namespace Sys2Proof.Machine

/-! ### The checks of a command (R182, R183, R188) -/

/-- A command in its phase whose operand check fails only raises the error of that check. -/
theorem exec_of_operandError {i : Instr} {s : State} {e : ErrorKind} (hl : phaseLegal i s.phase = true)
    (he : operandErrorOf i = some e) : exec i s = .next (failedWith e s) := by
  rw [exec_eq_after, after_operand hl he]

/-- No CRC command moves the phase or records an error (40_crc.md R110). -/
theorem after_crcCommand_phase_err {i : Instr} (hi : isCrcCommand i = true) (s : State) :
    (after i s).phase = s.phase ∧ (after i s).err = s.err := by
  by_cases hp : s.phase = .failed
  · simp [after_failed i hp]
  · rw [after_crcCommand hi hp]
    exact ⟨rfl, rfl⟩

/-- Settles O47: each of the five commands is outside its phase, and a CRC command is so in FAILED only. -/
theorem invalidStateErrors : Obligations.InvalidStateErrors := by
  unfold Obligations.InvalidStateErrors
  intro s
  refine ⟨fun n value origPtr rand hp => ?_, fun level leaveOpen hp => ?_, fun i t hi h => ?_⟩
  · exact ⟨exec_of_idle_or_closed (fun _ => rfl) hp, exec_of_idle_or_closed (fun _ => rfl) hp,
      exec_of_idle_or_closed (fun _ => rfl) hp, exec_of_idle_or_closed (fun _ => rfl) hp⟩
  · have hlegal : phaseLegal (.faShdr level leaveOpen) s.phase = false := by rcases hp with hp | hp <;> rw [hp] <;> rfl
    have hfailed : s.phase ≠ .failed := by rcases hp with hp | hp <;> simp [hp]
    rw [exec_eq_after, after_invalid hfailed hlegal]
  · rw [exec_next_iff.mp h]
    exact after_crcCommand_phase_err hi s

/-- Settles O48: in IDLE the phase check passes, and the level's check does not. -/
theorem configurationError : Obligations.ConfigurationError := by
  unfold Obligations.ConfigurationError
  intro level leaveOpen s hp hlevel
  exact exec_of_operandError (beq_iff_eq.mpr hp) (if_pos hlevel)

/-- Settles O49: in OPEN the phase check passes, and the operand's check does not. -/
theorem fieldRangeErrors : Obligations.FieldRangeErrors := by
  unfold Obligations.FieldRangeErrors
  intro n value origPtr rand s hp
  exact ⟨fun hn => exec_of_operandError (beq_iff_eq.mpr hp) (if_pos hn),
    fun hptr => exec_of_operandError (beq_iff_eq.mpr hp) (if_pos (by omega))⟩

/-! ### FAILED (R187) -/

/-- In FAILED a word on the command port, whatever it is, only moves the host's position. -/
theorem step_of_failed {w : CmdWord} {s : State} (hp : s.phase = .failed) (hevent : nextEvent s = some (.command w)) :
    step s = .next (advance s) := by
  have hfailed : (advance s).phase = .failed := hp
  simp only [step, hevent]
  cases decode w with
  | command i => exact (exec_eq_after i _).trans (congrArg _ (after_failed i hfailed))
  | illegal why => exact congrArg _ (rejectWord_failed hfailed)

/-- In FAILED a step that is not on the reset input waits or moves the host's position. -/
theorem step_failed_cases {s t : State} (hp : s.phase = .failed) (h : step s = .next t)
    (hreset : nextEvent s ≠ some .reset) : t = s ∨ t = advance s := by
  rcases step_cases h with ⟨-, rfl⟩ | ⟨he, -⟩ | ⟨w, i, -, -, rfl⟩ | ⟨w, why, -, -, rfl⟩
  · exact .inl rfl
  · exact absurd he hreset
  · exact .inr (after_failed i hp)
  · exact .inr (rejectWord_failed hp)

/-- Settles O50: a step in FAILED, but the reset input's, leaves every register, so `STATUS` and `RES` too. -/
theorem failedIgnoresEveryWord : Obligations.FailedIgnoresEveryWord := by
  unfold Obligations.FailedIgnoresEveryWord
  intro s hp
  refine ⟨fun i => ?_, fun w hevent => step_of_failed hp hevent, fun t h hreset => ?_⟩
  · rw [exec_eq_after, after_failed i hp]
  · rcases step_failed_cases hp h hreset with rfl | rfl <;> exact ⟨hp, rfl, rfl, rfl⟩

/-! ### The order of the errors (R191) -/

/-- A command whose checks pass raises nothing, or UnderlyingIOError at the first call that the sink refuses (R184). -/
theorem after_unfailed_or_refused {i : Instr} {s : State} (hl : phaseLegal i s.phase = true)
    (ho : operandErrorOf i = none) :
    ((after i s).phase ≠ .failed ∧ (after i s).err = s.err) ∨
      ((after i s).phase = .failed ∧ ((after i s).err = if s.err = none then some .underlyingIO else s.err) ∧
        ∃ k, answersOk s k ∧ answerAt s k = .fail ∧ (after i s).sinkCalls = s.sinkCalls + k + 1) := by
  rw [after_body hl ho]
  obtain ⟨k, hk, -, htaken | hrefused⟩ := bodyOf_sinkDecides hl ho
  · exact .inl ⟨htaken.phase, htaken.err⟩
  · exact .inr ⟨hrefused.phase, hrefused.err, k, hk, hrefused.answer, hrefused.sinkCalls⟩

/-- Settles O51: FAILED, the decoding, the phase check, the operand check and the sink decide in this order. -/
theorem errorPriority : Obligations.ErrorPriority := by
  unfold Obligations.ErrorPriority
  intro s w hevent
  by_cases hp : s.phase = .failed
  · exact ⟨_, step_of_failed hp hevent, by rw [if_pos hp]; rfl⟩
  simp only [if_neg hp]
  cases hd : decode w with
  | illegal why => exact ⟨_, step_of_illegal hevent hd hp, rfl⟩
  | command i =>
    refine ⟨_, (stepRunsDecodedCommand s w i hevent hd).trans (exec_eq_after i _), ?_⟩
    dsimp only
    cases hl : phaseLegal i s.phase with
    | false => exact after_invalid (s := advance s) hp hl
    | true =>
      cases ho : operandErrorOf i with
      | some e => exact after_operand (s := advance s) hl ho
      | none => exact after_unfailed_or_refused (s := advance s) hl ho

/-! ### The first error (R186; 10_state.md R28) -/

theorem failedWith_err_of_recorded (e : ErrorKind) {s : State} (h : s.err ≠ none) : (failedWith e s).err = s.err :=
  if_neg h

/-- A command keeps an error already recorded. -/
theorem after_err_of_recorded (i : Instr) {s : State} (h : s.err ≠ none) : (after i s).err = s.err := by
  rcases after_cases i s with ⟨-, ha⟩ | ⟨-, -, ha⟩ | ⟨e, -, -, ha⟩ | ⟨hl, ho, -⟩
  · rw [ha]
  · rw [ha, failedWith_err_of_recorded _ h]
  · rw [ha, failedWith_err_of_recorded _ h]
  · rcases after_unfailed_or_refused hl ho with ⟨-, herr⟩ | ⟨-, herr, -⟩
    · exact herr
    · rw [herr, if_neg h]

/-- Settles O52: of the steps but the reset input's, only an error entry writes `ERR`, and it keeps an error recorded. -/
theorem firstErrorIsKept : Obligations.FirstErrorIsKept := by
  unfold Obligations.FirstErrorIsKept
  intro s t h hreset
  rcases step_cases h with ⟨-, rfl⟩ | ⟨he, -⟩ | ⟨w, i, -, -, rfl⟩ | ⟨w, why, -, -, rfl⟩
  · exact ⟨fun _ => rfl, fun herr => absurd rfl herr⟩
  · exact absurd he hreset
  · exact ⟨after_err_of_recorded i (s := advance s), fun herr => by_contra fun hp => herr (after_err hp)⟩
  · by_cases hp : s.phase = .failed
    · rw [rejectWord_failed (s := advance s) hp]
      exact ⟨fun _ => rfl, fun _ => hp⟩
    · rw [rejectWord_eq (s := advance s) hp]
      exact ⟨failedWith_err_of_recorded _ (s := advance s), fun _ => rfl⟩

end Sys2Proof.Machine
end

section
/-! The proofs of the statements of 70_reset_and_hazards.md: waiting, the reset input, the end of every step, and the
host sequence of an input. -/

namespace Sys2Proof.Machine

/-! ### Steps and reset (R210, R211, R213, R225) -/

theorem step_of_no_event {s : State} (hevent : nextEvent s = none) : step s = .next s := by
  simp only [step, hevent]

theorem step_of_reset {s : State} (hevent : nextEvent s = some .reset) : step s = .next (resetInput (advance s)) := by
  simp only [step, hevent]

theorem step_of_command {s : State} {w : CmdWord} {i : Instr} (hevent : nextEvent s = some (.command w))
    (hdecode : decode w = .command i) : step s = .next (after i (advance s)) :=
  (stepRunsDecodedCommand s w i hevent hdecode).trans (exec_eq_after i _)

theorem step_of_rejected {s : State} {w : CmdWord} {why : DecodeError} (hevent : nextEvent s = some (.command w))
    (hdecode : decode w = .illegal why) : step s = .next (rejectWord (advance s)) := by
  simp only [step, hevent, hdecode]

/-- Settles O12: past the end of the host's list there is no event. -/
theorem stepWaitsWithoutEvent : Obligations.StepWaitsWithoutEvent := by
  unfold Obligations.StepWaitsWithoutEvent
  intro s hend
  have hevent : nextEvent s = none := List.getElem?_eq_none hend
  exact step_of_no_event hevent

/-- Settles O13: each of the four things a step can be has its next state. -/
theorem everyStepEnds : Obligations.EveryStepEnds := by
  unfold Obligations.EveryStepEnds
  intro s
  cases hevent : nextEvent s with
  | none => exact ⟨_, step_of_no_event hevent⟩
  | some event =>
    cases event with
    | reset => exact ⟨_, step_of_reset hevent⟩
    | command w =>
      cases hdecode : decode w with
      | command i => exact ⟨_, step_of_command hevent hdecode⟩
      | illegal why => exact ⟨_, step_of_rejected hevent hdecode⟩

/-- `STATUS` after power-on (R211). -/
theorem statusWord_reset : statusWord State.reset = 0 := by decide

/-- `STATUS` reads none of what the reset input leaves: the sink and the host's list. -/
theorem statusWord_resetInput (s : State) : statusWord (resetInput s) = 0 := statusWord_reset

/-- Settles O14: the reset input is the step's event, and what it leaves as it was is no part of `STATUS`. -/
theorem resetValues : Obligations.ResetValues := by
  unfold Obligations.ResetValues
  refine ⟨⟨rfl, rfl, rfl, rfl, rfl, rfl, rfl, rfl, rfl, rfl, statusWord_reset, rfl⟩, fun s hword => ?_⟩
  have hevent : nextEvent s = some .reset := hword
  exact ⟨resetInput (advance s), step_of_reset hevent, resetInput_eq (advance s), statusWord_resetInput (advance s), rfl⟩

/-- Settles O56: power-on is a reset. -/
theorem resetMeetsInvariant : Obligations.ResetMeetsInvariant := by
  unfold Obligations.ResetMeetsInvariant
  exact inv_resetInput State.reset

/-! ### The registers `R` and `C` along a host sequence (40_crc.md R113) -/

@[simp] theorem Emission.issue_faShdr (e : Emission) (level : Word) (leaveOpen : Bool) :
    e.issue (.faShdr level leaveOpen) = ⟨e.bits, e.r, 0⟩ := by
  simp [issue, fieldBits, crcAfter]

@[simp] theorem Emission.issue_faStrl (e : Emission) : e.issue .faStrl = e := by
  simp [issue, fieldBits, crcAfter]

/-- Of any commands, those outside a stream among them, a run that ends outside FAILED makes of `R` and `C` what
`Emission.run` says. -/
theorem runCommands_crc (is : List Instr) {s : State} {e : Emission} (he : (s.r, s.c) = (e.r, e.c))
    (h : (runCommands is s).phase ≠ .failed) :
    ((runCommands is s).r, (runCommands is s).c) = ((e.run is).r, (e.run is).c) := by
  induction is generalizing s e with
  | nil => exact he
  | cons i is ih =>
    have hfirst : ((after i s).r, (after i s).c) = ((e.issue i).r, (e.issue i).c) := by
      obtain ⟨hr, hc⟩ := Prod.mk.inj he
      rw [after_crc (unfailed_of_runCommands h), hr, hc]
      rfl
    exact ih hfirst h

/-- The combined CRC that a host sequence leaves is that of its blocks, by the closed form of R113, whatever `C` held
before the header. -/
theorem StreamIssued.combinedCrc {level : Word} {leaveOpen : Bool} {blocks : List StreamBlock} {commands : List Instr}
    (hissued : StreamIssued level leaveOpen blocks commands) {s : State} (h : (runCommands commands s).phase ≠ .failed) :
    (runCommands commands s).c = foldLaw 0 (blocks.map fun b => crcOf b.bytes) := by
  obtain ⟨pre, mid, post, reads, rfl, hpre, hpost, hreads, hmid⟩ := hissued.between
  obtain ⟨-, hc⟩ := Prod.mk.inj (runCommands_crc _ (e := emission s) rfl h)
  obtain ⟨-, hblocks⟩ := Emission.run_blocks blocks ⟨(emission s).bits, (emission s).r, 0⟩
  rw [hc, Emission.run_append, Emission.run_reads hpre, Emission.run_cons, Emission.issue_faShdr, Emission.run_append,
    hmid.run, Emission.run_append, Emission.run_reads hreads, Emission.run_cons, Emission.issue_faStrl,
    Emission.run_reads hpost, hblocks]

/-! ### The empty input (R212; 42_field_assembler.md R156) -/

theorem crcOf_nil : crcOf [] = 0 := rfl

/-- Folding the CRC 0 of an empty block leaves a combined CRC of 0. -/
theorem foldLaw_zero_replicate (n : Nat) : foldLaw 0 (List.replicate n 0) = 0 := by
  induction n with
  | zero => exact foldLaw_nil 0
  | succ n ih => rwa [List.replicate_succ, foldLaw_cons]

theorem foldLaw_of_empty {blocks : List StreamBlock} (h : ∀ b ∈ blocks, b.bytes = []) :
    foldLaw 0 (blocks.map fun b => crcOf b.bytes) = 0 := by
  have hcrcs : (blocks.map fun b => crcOf b.bytes) = List.replicate blocks.length 0 := by
    rw [← List.map_const']
    exact List.map_congr_left fun b hb => by rw [h b hb, crcOf_nil]
  rw [hcrcs, foldLaw_zero_replicate]

/-- Empty blocks have no bits in the stream. -/
theorem layoutBits_of_empty (level : Word) {blocks : List StreamBlock} (h : ∀ b ∈ blocks, b.bytes = []) :
    layoutBits level blocks = headerBits level ++ trailerBits 0 := by
  have hbits : blocks.flatMap StreamBlock.bits = [] :=
    List.flatMap_eq_nil_iff.mpr fun b hb => by rw [StreamBlock.bits, if_pos (h b hb)]
  rw [layoutBits, hbits, foldLaw_of_empty h, List.append_nil]

/-- The four bytes of the stream header (R153). -/
theorem bytesBits_header (level : Word) : bytesBits (headerMark ++ [levelDigit level]) = headerBits level := by
  rw [bytesBits_append, bytesBits_headerMark, headerBits]
  rfl

/-- The ten bytes of the trailer (R159). -/
theorem bytesBits_trailer (c : Word) : bytesBits (trailerMagic ++ wordBytes c) = trailerBits c := by
  rw [bytesBits_append, bytesBits_trailerMagic, bytesBits_wordBytes, trailerBits]

/-! ### The host sequence of an input (R221) -/

/-- A non-empty block has its header among the commands. -/
theorem StreamIssued.header_mem {level : Word} {leaveOpen : Bool} {blocks : List StreamBlock} {commands : List Instr}
    (hissued : StreamIssued level leaveOpen blocks commands) {b : StreamBlock} (hb : b ∈ blocks) (hne : b.bytes ≠ []) :
    b.header ∈ commands := by
  obtain ⟨pre, mid, post, reads, rfl, -, -, -, hmid⟩ := hissued.between
  have hblock : b.header ∈ b.commands := by simp [StreamBlock.commands, hne]
  have hmem : b.header ∈ mid := hmid.perm.mem_iff.mpr (List.mem_append_left _ (List.mem_flatMap.mpr ⟨b, hb, hblock⟩))
  simp [hmem]

/-- Settles O46: a block that is not empty issues its header; and with every block empty the layout law leaves the header
and a trailer with the combined CRC 0, which are whole bytes. -/
theorem hostSequenceOfInput : Obligations.HostSequenceOfInput := by
  unfold Obligations.HostSequenceOfInput
  intro level leaveOpen blocks commands last hhost hlast
  obtain ⟨⟨h1, h9⟩, hlegal, hissued⟩ := hhost.issued
  obtain ⟨-, -, ⟨-, hinput⟩, -⟩ := hhost
  refine ⟨hissued.header_mem (List.mem_of_getLast? hlast), fun hempty s hp hs ho => ?_⟩
  have hblocks := hinput last hlast hempty
  have hlayout : layoutBits level blocks =
      bytesBits (headerMark ++ [levelDigit level] ++ (trailerMagic ++ wordBytes 0)) := by
    rw [layoutBits_of_empty level hblocks, bytesBits_append, bytesBits_header, bytesBits_trailer]
  have hlength : (layoutBits level blocks).length = 112 := by
    rw [hlayout, length_bytesBits]
    rfl
  obtain ⟨hout, hphase, herr, -, hclosed⟩ :=
    streamLayout level leaveOpen blocks commands s hp hs h1 h9 hlegal hissued (by rw [hlength]; exact ho)
  rw [hlength, show padBits 112 = [] from rfl, List.append_nil, hlayout, ← bytesBits_append] at hout
  have hc := hissued.combinedCrc (s := s) (by simp [hphase])
  exact ⟨bytesBits_injective hout, hphase, herr, hc.trans (foldLaw_of_empty hblocks), hclosed⟩

end Sys2Proof.Machine
end
